-- ==== Sys2Proof/Word.lean ====
section
/-! DEFINITION. The word types of GF2M-CORE (00_scope.md R14 to R16, 10_state.md R25, R36). -/

namespace Sys2Proof

/-- A command word or a host register: 32 bits (30_encoding.md R70, 10_state.md R36). -/
abbrev Word := BitVec 32

/-- An entry of a byte buffer, and a byte of the generator's strings (10_state.md R25, 00_scope.md R16). -/
abbrev Byte := BitVec 8

/-- An entry of an element buffer or a scalar register. The hardware's width is `M <= 16` bits
(00_scope.md R5); it is held in 16 bits whose bits `M` and above are zero in every reachable state (log 8). -/
abbrev Elem := BitVec 16

/-- A 4-bit field naming a `G` register: every value is a register (30_encoding.md R73). -/
abbrev GReg := BitVec 4

/-- The number of a `P` register, 0 to 3 (30_encoding.md R73). -/
abbrev PReg := BitVec 2

/-- The 32-byte key of the generator (00_scope.md R11). -/
abbrev Bytes32 := Vector Byte 32

/-- A 16-byte block or counter (00_scope.md R11). -/
abbrev Bytes16 := Vector Byte 16

/-- A 48-byte seed, provided data or keystream (00_scope.md R11). -/
abbrev Bytes48 := Vector Byte 48

end Sys2Proof
end

