-- ==== Sys2Proof/Config.lean ====
section
/-! DEFINITION. What an implementation fixes: the build-time parameters (00_scope.md R5 to R11), and the
constants the spec leaves uninterpreted (the cipher, another encoder, the drawn control bits). -/

namespace Sys2Proof

/-- Which function `ENC` is (42_benes.md R150, 93_implementation_defined.md U1). -/
inductive Encoder where
  /-- The function the spec pins so that a model is executable (42_benes.md R151). -/
  | pinned
  /-- Another implementation's function, `Config.otherEncoder`. -/
  | other
deriving DecidableEq, Repr

/-- The configuration record (00_scope.md section 3; 92_eei_decisions.md, open parameters). Log 1. -/
structure Build where
  /-- `M`, the field degree (R5). -/
  m : Nat
  /-- `POLY`: bit `i` is the coefficient of `x^i` (R6). -/
  poly : BitVec 17
  /-- `T`, the error-correcting capacity (R7). -/
  t : Nat
  /-- `N`, the length of the support sequence (R8). -/
  n : Nat
  /-- `OUTMAX`, the capacity of `OUT` in bytes (R9). -/
  outMax : Nat
  /-- Which `ENC` the unit contains (42_benes.md R150). -/
  encoder : Encoder
deriving DecidableEq, Repr

/-- `Q = 2^M`, positions of the network and entries of a permutation (00_scope.md R10). -/
def Build.q (b : Build) : Nat := 2 ^ b.m

/-- `R = 2M - 1`, network rounds (00_scope.md R10). -/
def Build.rounds (b : Build) : Nat := 2 * b.m - 1

/-- `H = 2^(M-1)`, switches per round (00_scope.md R10). -/
def Build.half (b : Build) : Nat := 2 ^ (b.m - 1)

/-- `CBITS = R * H`, control bits (00_scope.md R10). -/
def Build.cbits (b : Build) : Nat := b.rounds * b.half

/-- `CBYTES = ceil(CBITS / 8)` (00_scope.md R10). -/
def Build.cbytes (b : Build) : Nat := (b.cbits + 7) / 8

/-- `PLBYTES = ceil(Q / 8)`, bytes per bit-plane (00_scope.md R10). -/
def Build.plBytes (b : Build) : Nat := (b.q + 7) / 8

/-- `PLTOTAL = M * PLBYTES`, bytes of the bit-plane buffer (00_scope.md R10). -/
def Build.plTotal (b : Build) : Nat := b.m * b.plBytes

/-- The ranges of 00_scope.md R5 to R9: the builds that exist. Irreducibility of `POLY` (R6) is a premise of
the claims that need it, not part of this check: `mul` is total without it (40_field_arithmetic.md R95). -/
def Build.valid (b : Build) : Bool :=
  decide (2 ≤ b.m) && decide (b.m ≤ 16)
    && decide (b.poly.toNat < 2 ^ (b.m + 1)) && b.poly.getLsbD b.m && b.poly.getLsbD 0
    && decide (1 ≤ b.t) && decide (b.t ≤ 32767)
    && decide (1 ≤ b.n) && decide (b.n ≤ 2 ^ b.m)
    && decide (1 ≤ b.outMax) && decide (b.outMax ≤ 65535)

/-- The spec's example build: `M = 13`, `T = 64` (the source's example), `N = 8192`, `OUTMAX = 1024`
(95_test_vectors.md 2.8) and `POLY = 0x201B` (00_scope.md R6, there from general knowledge). Log 2. -/
def Config.exampleBuild : Build :=
  { m := 13, poly := 0x201B#17, t := 64, n := 8192, outMax := 1024, encoder := .pinned }

/-- The single-block cipher `E(key, block)` (00_scope.md R13): nothing is assumed of it but that it is a
function of its two arguments. Log 3. -/
opaque Config.cipher : Bytes32 → Bytes16 → Bytes16

/-- The `ENC` of a build whose encoder is not the pinned one: from `M` and the permutation to control bit
number `q` (42_benes.md R150). Log 4. -/
opaque Config.otherEncoder : Nat → List Elem → Nat → Bool

/-- The FREE VALUE of 42_benes.md R152 (93_implementation_defined.md U3): control bit number `q` of the
`k`-th string drawn. Log 5. -/
opaque Config.controlDraw : Nat → Nat → Bool

end Sys2Proof
end

