-- ==== Sys2Proof/Syntax.lean ====
section
/-! DEFINITION. The nineteen commands of GF2M-CORE, one constructor per row of the opcode map
(30_encoding.md R75), and the buffers they may name (10_state.md R26, 30_encoding.md R79). -/

namespace Sys2Proof

/-- The element buffers a command may name: numbers 0 to 6 (10_state.md R26). -/
inductive EBuf where
  /-- Polynomial register `P[k]`, buffer number `k`. -/
  | p (k : PReg)
  /-- The syndrome buffer `S`, number 4. -/
  | syn
  /-- The permutation buffer `PERM`, number 5. -/
  | perm
  /-- The support buffer `SUP`, number 6. -/
  | sup
deriving DecidableEq, Repr

/-- The byte buffers: numbers 8 to 11 (10_state.md R26). -/
inductive BBuf where
  /-- The control bits `CB`, number 8. -/
  | cb
  /-- The bit-planes `PL`, number 9. -/
  | pl
  /-- The entropy buffer `ENT`, number 10. -/
  | ent
  /-- The output buffer `OUT`, number 11. -/
  | out
deriving DecidableEq, Repr

/-- A buffer that has a fill count: numbers 0 to 6 and 8 to 11 (10_state.md R34, 30_encoding.md R79). -/
inductive Buf where
  | elem (b : EBuf)
  | byte (b : BBuf)
deriving DecidableEq, Repr

/-- The commands (30_encoding.md R75), in the table's order. Operand order is the assembler's (R81). -/
inductive Instr where
  /-- `NOP`. -/
  | nop
  /-- `LDI gd, imm`. -/
  | ldi (gd : GReg) (imm : BitVec 16)
  /-- `LDE gd, BUF, idx`. -/
  | lde (gd : GReg) (b : EBuf) (idx : BitVec 16)
  /-- `STE gs, BUF, idx`. -/
  | ste (gs : GReg) (b : EBuf) (idx : BitVec 16)
  /-- `SETFULL BUF`. -/
  | setfull (b : Buf)
  /-- `GF.ADD gd, gs1, gs2`. -/
  | gfAdd (gd gs1 gs2 : GReg)
  /-- `GF.MUL gd, gs1, gs2`. -/
  | gfMul (gd gs1 gs2 : GReg)
  /-- `GF.INV gd, gs`. -/
  | gfInv (gd gs : GReg)
  /-- `GF.FRAC gd, gden, gnum`: the denominator first. -/
  | gfFrac (gd gden gnum : GReg)
  /-- `GF.ISZERO gd, gs`. -/
  | gfIszero (gd gs : GReg)
  /-- `GF.BITREV gd, gs`. -/
  | gfBitrev (gd gs : GReg)
  /-- `PL.EVAL gd, ps, ga`. -/
  | plEval (gd : GReg) (ps : PReg) (ga : GReg)
  /-- `BM.RUN pd`. -/
  | bmRun (pd : PReg)
  /-- `BN.ENC`. -/
  | bnEnc
  /-- `BN.APPLY fwd | rev`. -/
  | bnApply (rev : Bool)
  /-- `BN.SUP`. -/
  | bnSup
  /-- `RB.INIT`. -/
  | rbInit
  /-- `RB.UPD nopd | pd`. -/
  | rbUpd (pd : Bool)
  /-- `RB.GEN n`. -/
  | rbGen (n : BitVec 16)
deriving DecidableEq, Repr

end Sys2Proof
end

