-- ==== Sys2Proof/WellFormed.lean ====
section
/-! DEFINITION. Which terms of `Instr` stand for a command word. The operand types already rule out every
register and buffer number a row does not allow (30_encoding.md R73, R79); what is left is the LDI immediate. -/

namespace Sys2Proof

/-- The constraints of 30_encoding.md R75 on a command of a build with field degree `m`: the immediate of LDI is
below `2^M` (R74); every other operand of every other command is constrained by its type. -/
def WellFormed (m : Nat) : Instr → Bool
  | .nop => true
  | .ldi _ imm => decide (imm.toNat < 2 ^ m)
  | .lde _ _ _ => true
  | .ste _ _ _ => true
  | .setfull _ => true
  | .gfAdd _ _ _ => true
  | .gfMul _ _ _ => true
  | .gfInv _ _ => true
  | .gfFrac _ _ _ => true
  | .gfIszero _ _ => true
  | .gfBitrev _ _ => true
  | .plEval _ _ _ => true
  | .bmRun _ => true
  | .bnEnc => true
  | .bnApply _ => true
  | .bnSup => true
  | .rbInit => true
  | .rbUpd _ => true
  | .rbGen _ => true

end Sys2Proof
end

