-- ==== Sys2Proof/Decode.lean ====
section
/-! DEFINITION. Decoding of a command word, total and rejecting by name (30_encoding.md R70 to R79), and after
it the encoder (R83). -/

namespace Sys2Proof

/-- Why a word is Illegal (30_encoding.md R77): the clauses of that rule, in its order. Every one of them is
raised as the ILLEGAL fault (60_exceptions.md R202). -/
inductive Illegal where
  /-- An `op` value not in the opcode map. -/
  | unassignedOp
  /-- A non-zero must-be-zero field. -/
  | strayBits
  /-- A `P` register number of 4 or more. -/
  | pRegister
  /-- A buffer number outside the row's set. -/
  | bufferNumber
  /-- An LDI immediate of `2^M` or more. -/
  | ldiImmediate
deriving DecidableEq, Repr

/-- `op`, bits 31:24 (30_encoding.md R71, R72). -/
def fieldOp (w : Word) : BitVec 8 := w.extractLsb' 24 8

/-- `a`, bits 23:20. -/
def fieldA (w : Word) : BitVec 4 := w.extractLsb' 20 4

/-- `b`, bits 19:16. -/
def fieldB (w : Word) : BitVec 4 := w.extractLsb' 16 4

/-- `c`, bits 15:12 of format R. -/
def fieldC (w : Word) : BitVec 4 := w.extractLsb' 12 4

/-- `z`, bits 11:0 of format R. -/
def fieldZ (w : Word) : BitVec 12 := w.extractLsb' 0 12

/-- `imm16`, bits 15:0 of format I. -/
def fieldImm (w : Word) : BitVec 16 := w.extractLsb' 0 16

/-- The number of an element buffer (10_state.md R26). -/
def EBuf.number : EBuf → BitVec 4
  | .p k => k.setWidth 4
  | .syn => 4
  | .perm => 5
  | .sup => 6

/-- The element buffer LDE and STE name by `b`: 0 to 6 (30_encoding.md R79). -/
def EBuf.ofNumber (b : BitVec 4) : Option EBuf :=
  match b.toNat with
  | 0 => some (.p 0)
  | 1 => some (.p 1)
  | 2 => some (.p 2)
  | 3 => some (.p 3)
  | 4 => some .syn
  | 5 => some .perm
  | 6 => some .sup
  | _ => none

/-- The number of a byte buffer (10_state.md R26). -/
def BBuf.number : BBuf → BitVec 4
  | .cb => 8
  | .pl => 9
  | .ent => 10
  | .out => 11

/-- The number of a buffer that has a fill count (10_state.md R26). -/
def Buf.number : Buf → BitVec 4
  | .elem e => e.number
  | .byte b => b.number

/-- The buffer a number names, for the numbers that have a fill count: 0 to 6 and 8 to 11 (30_encoding.md R79,
10_state.md R34); number 7 (the `G` window) and 12 to 15 (reserved) have none. -/
def Buf.ofNumber (b : BitVec 4) : Option Buf :=
  match b.toNat with
  | 8 => some (.byte .cb)
  | 9 => some (.byte .pl)
  | 10 => some (.byte .ent)
  | 11 => some (.byte .out)
  | _ => (EBuf.ofNumber b).map .elem

/-- A constraint of a row: the word decodes on only where it holds (30_encoding.md R76). -/
def need (ok : Bool) (why : Illegal) (k : Except Illegal Instr) : Except Illegal Instr :=
  if ok then k else .error why

/-- The three-operand rows of format R: `z` must be zero (30_encoding.md R71). -/
def decodeR3 (w : Word) (i : GReg → GReg → GReg → Instr) : Except Illegal Instr :=
  need (fieldZ w == 0) .strayBits (.ok (i (fieldA w) (fieldB w) (fieldC w)))

/-- The two-operand rows of format R: `c` and `z` must be zero (30_encoding.md R71). -/
def decodeR2 (w : Word) (i : GReg → GReg → Instr) : Except Illegal Instr :=
  need (fieldC w == 0 && fieldZ w == 0) .strayBits (.ok (i (fieldA w) (fieldB w)))

/-- The rows of format I with no operand: every field but `op` must be zero (30_encoding.md R72). -/
def decodeI0 (w : Word) (i : Instr) : Except Illegal Instr :=
  need (fieldA w == 0 && fieldB w == 0 && fieldImm w == 0) .strayBits (.ok i)

/-- The rows of format I with one flag: `imm16[0]`; `a`, `b` and `imm16[15:1]` must be zero (30_encoding.md R74). -/
def decodeFlag (w : Word) (i : Bool → Instr) : Except Illegal Instr :=
  need (fieldA w == 0 && fieldB w == 0 && (fieldImm w).extractLsb' 1 15 == 0) .strayBits
    (.ok (i ((fieldImm w).getLsbD 0)))

/-- LDE and STE: `b` names an element buffer (30_encoding.md R79). -/
def decodeEntry (w : Word) (i : GReg → EBuf → BitVec 16 → Instr) : Except Illegal Instr :=
  match EBuf.ofNumber (fieldB w) with
  | some b => .ok (i (fieldA w) b (fieldImm w))
  | none => .error .bufferNumber

/-- The decoder: a total function from words to the nineteen commands or the verdict Illegal, by the rows of
30_encoding.md R75; `m` is the field degree `M`, which only LDI's row reads (R76). -/
def decode (m : Nat) (w : Word) : Except Illegal Instr :=
  match (fieldOp w).toNat with
  | 0x00 => decodeI0 w .nop
  | 0x01 =>
    need (fieldB w == 0) .strayBits
      (need (decide ((fieldImm w).toNat < 2 ^ m)) .ldiImmediate (.ok (.ldi (fieldA w) (fieldImm w))))
  | 0x02 => decodeEntry w .lde
  | 0x03 => decodeEntry w .ste
  | 0x04 =>
    need (fieldA w == 0 && fieldImm w == 0) .strayBits
      (match Buf.ofNumber (fieldB w) with
        | some b => .ok (.setfull b)
        | none => .error .bufferNumber)
  | 0x10 => decodeR3 w .gfAdd
  | 0x11 => decodeR3 w .gfMul
  | 0x12 => decodeR2 w .gfInv
  | 0x13 => decodeR3 w .gfFrac
  | 0x14 => decodeR2 w .gfIszero
  | 0x15 => decodeR2 w .gfBitrev
  | 0x20 =>
    need (fieldZ w == 0) .strayBits
      (need (decide ((fieldB w).toNat < 4)) .pRegister
        (.ok (.plEval (fieldA w) ((fieldB w).setWidth 2) (fieldC w))))
  | 0x21 =>
    need (fieldB w == 0 && fieldImm w == 0) .strayBits
      (need (decide ((fieldA w).toNat < 4)) .pRegister (.ok (.bmRun ((fieldA w).setWidth 2))))
  | 0x30 => decodeI0 w .bnEnc
  | 0x31 => decodeFlag w .bnApply
  | 0x32 => decodeI0 w .bnSup
  | 0x40 => decodeI0 w .rbInit
  | 0x41 => decodeFlag w .rbUpd
  | 0x42 => need (fieldA w == 0 && fieldB w == 0) .strayBits (.ok (.rbGen (fieldImm w)))
  | _ => .error .unassignedOp

/-- A word of format R (30_encoding.md R71, R83): `{op, a, b, c, 0}`. -/
def wordR (op : BitVec 8) (a b c : BitVec 4) : Word := op ++ a ++ b ++ c ++ 0#12

/-- A word of format I (30_encoding.md R72, R83): `{op, a, b, imm16}`. -/
def wordI (op : BitVec 8) (a b : BitVec 4) (imm : BitVec 16) : Word := op ++ a ++ b ++ imm

/-- A flag as `imm16[0]` (30_encoding.md R74). -/
def flagImm (f : Bool) : BitVec 16 := if f then 1 else 0

/-- The word of a command (30_encoding.md R75, R83). -/
def encode : Instr → Word
  | .nop => wordI 0x00 0 0 0
  | .ldi gd imm => wordI 0x01 gd 0 imm
  | .lde gd b idx => wordI 0x02 gd b.number idx
  | .ste gs b idx => wordI 0x03 gs b.number idx
  | .setfull b => wordI 0x04 0 b.number 0
  | .gfAdd gd gs1 gs2 => wordR 0x10 gd gs1 gs2
  | .gfMul gd gs1 gs2 => wordR 0x11 gd gs1 gs2
  | .gfInv gd gs => wordR 0x12 gd gs 0
  | .gfFrac gd gden gnum => wordR 0x13 gd gden gnum
  | .gfIszero gd gs => wordR 0x14 gd gs 0
  | .gfBitrev gd gs => wordR 0x15 gd gs 0
  | .plEval gd ps ga => wordR 0x20 gd (ps.setWidth 4) ga
  | .bmRun pd => wordI 0x21 (pd.setWidth 4) 0 0
  | .bnEnc => wordI 0x30 0 0 0
  | .bnApply rev => wordI 0x31 0 0 (flagImm rev)
  | .bnSup => wordI 0x32 0 0 0
  | .rbInit => wordI 0x40 0 0 0
  | .rbUpd pd => wordI 0x41 0 0 (flagImm pd)
  | .rbGen n => wordI 0x42 0 0 n

/-- The host's view of the decoder: the command in the low `nbits` bits of `w` (every row is one 32-bit word,
30_encoding.md R70), in the build `State.reset` has; `none` where the decoder rejects the word. -/
def decodeTableWord (nbits w : Nat) : Option Instr :=
  (decode Config.exampleBuild.m (BitVec.ofNat 32 (w % 2 ^ nbits))).toOption

end Sys2Proof
end

