-- ==== Sys2Proof/Machine/State.lean ====
section
/-! DEFINITION. The state of GF2M-CORE as plain data (10_state.md R20), its reset value (R45), and the reasons a
step can stop. The fault causes of the hardware (60_exceptions.md R201) are data of the state: a hardware fault
is a next state. -/

namespace Sys2Proof.Machine

/-- One buffer's storage: (index, entry) pairs, indices strictly rising, no entry equal to `0`, the value an
unlisted index reads as (the reset content of 10_state.md R45; log 9). With `w = 8` a list of `Host.Cell`. -/
abbrev Memory (w : Nat) := List (Nat × BitVec w)

/-- The canonical form: every listed index is at least `lo`, indices rise strictly, no listed entry is `0`. -/
def Memory.wfFrom {w : Nat} (lo : Nat) : Memory w → Bool
  | [] => true
  | (i, x) :: rest => decide (lo ≤ i) && !(x == 0) && Memory.wfFrom (i + 1) rest

/-- The canonical form of a buffer's storage. -/
def Memory.wf {w : Nat} (mem : Memory w) : Bool := Memory.wfFrom 0 mem

/-- The fault causes and their codes (60_exceptions.md R201). -/
inductive Cause where
  /-- Cause 1: a consumed buffer's fill count differs from the required constant (R205). -/
  | precond
  /-- Cause 2: the command word is Illegal (R202). -/
  | illegal
  /-- Cause 3: an index not below `CAP`, or `n > OUTMAX` (R207). -/
  | range
  /-- Cause 4: the generator is unseeded (R208). -/
  | noSeed
deriving DecidableEq, Repr

/-- The fields of STATUS (10_state.md R37). The reserved bits hold no state. -/
structure Status where
  /-- Bit 0: a command is executing; 0 between the steps of this model (R37, log 7). -/
  busy : Bool
  /-- Bit 1: sticky after a fault. -/
  abort : Bool
  /-- Bit 2: RB.INIT has completed since reset. -/
  seeded : Bool
  /-- Bits 7:4: the fault cause code, 0 while ABORT = 0. -/
  cause : BitVec 4
deriving DecidableEq, Repr

/-- A transaction of the host port (10_state.md R40). `width` is the access width in bits: only 32 reaches a
register (R40). -/
inductive HostTxn where
  /-- `HostReset`. -/
  | reset
  /-- `HostRead(off)`. -/
  | read (width off : Nat)
  /-- `HostWrite(off, v)`. -/
  | write (width off : Nat) (v : Word)
deriving DecidableEq, Repr

/-- The machine's state: 10_state.md R20, and the model's own `build`, `draws`, `port` and `replies`. -/
structure State where
  /-- The configuration record (00_scope.md R5 to R9), which no step writes. The model's own field, log 1. -/
  build : Build
  /-- `G[0..15]` (10_state.md R21). -/
  g : Vector Elem 16
  /-- `P[0..3]` (R24). -/
  p : Vector (Memory 16) 4
  /-- `S` (R27). -/
  syn : Memory 16
  /-- `PERM` (R28). -/
  perm : Memory 16
  /-- `SUP` (R29). -/
  sup : Memory 16
  /-- `CB` (R30). -/
  cb : Memory 8
  /-- `PL` (R31). -/
  pl : Memory 8
  /-- `ENT` (R32). -/
  ent : Memory 8
  /-- `OUT` (R33). -/
  out : Memory 8
  /-- The eleven fill counts `LEN[b]`, in the order of `bufSlot` (R34). -/
  len : Vector Word 11
  /-- `KEY[0..31]` (R35). -/
  key : Bytes32
  /-- `V[0..15]`, big-endian (R35). -/
  v : Bytes16
  /-- `STATUS` (R37). -/
  status : Status
  /-- `FCMD` (R38). -/
  fcmd : Word
  /-- `BUFADDR` (R42). -/
  bufaddr : Word
  /-- How many free control-bit strings have been drawn (42_benes.md R152). The model's own field, log 5. -/
  draws : Nat
  /-- The host's transactions not yet accepted, oldest first (20_memory.md R61). The model's own field, log 6. -/
  port : List HostTxn
  /-- The values returned to the host, newest first (10_state.md R40). The model's own field, log 6. -/
  replies : List Word
deriving DecidableEq, Repr

/-- Why a step can stop the model with a fault. No command and no host transaction of the spec does: the
hardware's own faults (60_exceptions.md R203) are next states. -/
inductive Fault where
  /-- Raised by `step` alone, on a state whose `build` breaks the ranges of 00_scope.md R5 to R9: no such unit
  exists. Safe: no state of a unit is stopped. -/
  | noSuchBuild
deriving DecidableEq, Repr

/-- Why a command can be refused. -/
inductive Refusal where
  /-- A command without a meaning, raised by an arm of `exec`; no arm raises it. Safe. -/
  | notModelled (mnemonic : String)
deriving DecidableEq, Repr

/-- The outcome of a command or of a step. -/
abbrev Result := Host.Outcome State Fault Refusal

/-- The state after reset of a unit of build `b` (10_state.md R45, 70_reset_and_hazards.md R230): every piece
of the spec's state is zero. -/
def State.resetOf (b : Build) : State :=
  { build := b
    g := Vector.replicate 16 0
    p := Vector.replicate 4 []
    syn := [], perm := [], sup := [], cb := [], pl := [], ent := [], out := []
    len := Vector.replicate 11 0
    key := Vector.replicate 32 0
    v := Vector.replicate 16 0
    status := { busy := false, abort := false, seeded := false, cause := 0 }
    fcmd := 0
    bufaddr := 0
    draws := 0
    port := []
    replies := [] }

/-- The machine right after reset, in the spec's example build (log 2). -/
def State.reset : State := State.resetOf Config.exampleBuild

end Sys2Proof.Machine
end

