-- ==== Sys2Proof/Machine/Ops.lean ====
section
/-! DEFINITION. The named operations over buffers, registers and fill counts, taking a fault
(60_exceptions.md R203) and leaving the ABORT state by HostReset (70_reset_and_hazards.md R230). -/

namespace Sys2Proof.Machine

/-- The vector whose bit `i` is `f i` for `i < n`, and 0 from `n` on (00_scope.md R14). -/
def vecOfBits (w n : Nat) (f : Nat → Bool) : BitVec w :=
  (List.range n).foldl (fun acc i => if f i then acc ||| (1#w <<< i) else acc) 0#w

/-- The byte whose bit `i` is `f i` (20_memory.md R55, R56: least significant bit first). -/
def byteOfBits (f : Nat → Bool) : Byte := vecOfBits 8 8 f

/-- Entry `i` of a buffer: 0 where nothing is listed (10_state.md R45). -/
def Memory.read {w : Nat} (mem : Memory w) (i : Nat) : BitVec w :=
  match mem with
  | [] => 0
  | (j, x) :: rest => if i = j then x else Memory.read rest i

/-- Replaces entry `i` by `x` and keeps the canonical form (20_memory.md R50). -/
def Memory.write {w : Nat} (mem : Memory w) (i : Nat) (x : BitVec w) : Memory w :=
  match mem with
  | [] => if x == 0 then [] else [(i, x)]
  | (j, y) :: rest =>
    if i < j then if x == 0 then (j, y) :: rest else (i, x) :: (j, y) :: rest
    else if i = j then if x == 0 then rest else (i, x) :: rest
    else (j, y) :: Memory.write rest i x

/-- Entry `i` as a one-cell list, none where the entry is 0. -/
def Memory.cell {w : Nat} (i : Nat) (x : BitVec w) : Memory w := if x == 0 then [] else [(i, x)]

/-- Replaces entries `0 .. n-1` by `f 0 .. f (n-1)` and keeps every entry from `n` on. -/
def Memory.fill {w : Nat} (mem : Memory w) (n : Nat) (f : Nat → BitVec w) : Memory w :=
  (List.range n).flatMap (fun i => Memory.cell i (f i)) ++ mem.filter (fun c => decide (n ≤ c.1))

/-- `G[r]` (10_state.md R21): no register is hard-wired. -/
def State.getG (s : State) (r : GReg) : Elem := s.g[r.toNat]'r.isLt

/-- `G[r] <- x`. -/
def State.setG (s : State) (r : GReg) (x : Elem) : State := { s with g := s.g.set r.toNat x r.isLt }

/-- The storage of an element buffer (10_state.md R26). -/
def State.getE (s : State) : EBuf → Memory 16
  | .p k => s.p[k.toNat]'k.isLt
  | .syn => s.syn
  | .perm => s.perm
  | .sup => s.sup

/-- Replaces the storage of an element buffer. -/
def State.setE (s : State) (b : EBuf) (mem : Memory 16) : State :=
  match b with
  | .p k => { s with p := s.p.set k.toNat mem k.isLt }
  | .syn => { s with syn := mem }
  | .perm => { s with perm := mem }
  | .sup => { s with sup := mem }

/-- The storage of a byte buffer (10_state.md R26). -/
def State.getB (s : State) : BBuf → Memory 8
  | .cb => s.cb
  | .pl => s.pl
  | .ent => s.ent
  | .out => s.out

/-- Replaces the storage of a byte buffer. -/
def State.setB (s : State) (b : BBuf) (mem : Memory 8) : State :=
  match b with
  | .cb => { s with cb := mem }
  | .pl => { s with pl := mem }
  | .ent => { s with ent := mem }
  | .out => { s with out := mem }

/-- `BUF[b][i]` of an element buffer: `MemRead` (20_memory.md R50). -/
def State.readE (s : State) (b : EBuf) (i : Nat) : Elem := (s.getE b).read i

/-- `BUF[b][i]` of a byte buffer: `MemRead` (20_memory.md R50). -/
def State.readB (s : State) (b : BBuf) (i : Nat) : Byte := (s.getB b).read i

/-- `BUF[b][i] <- x` of an element buffer: `MemWrite` (20_memory.md R50). -/
def State.writeE (s : State) (b : EBuf) (i : Nat) (x : Elem) : State := s.setE b ((s.getE b).write i x)

/-- `BUF[b][i] <- x` of a byte buffer: `MemWrite` (20_memory.md R50). -/
def State.writeB (s : State) (b : BBuf) (i : Nat) (x : Byte) : State := s.setB b ((s.getB b).write i x)

/-- `BUF[b][i] <- f i` for `i = 0 .. n-1`, an element buffer. -/
def State.fillE (s : State) (b : EBuf) (n : Nat) (f : Nat → Elem) : State := s.setE b ((s.getE b).fill n f)

/-- `BUF[b][i] <- f i` for `i = 0 .. n-1`, a byte buffer. -/
def State.fillB (s : State) (b : BBuf) (n : Nat) (f : Nat → Byte) : State := s.setB b ((s.getB b).fill n f)

/-- The place of `LEN[b]` among the eleven fill counts. -/
def bufSlot : Buf → Fin 11
  | .elem (.p k) => ⟨k.toNat, by have := k.isLt; omega⟩
  | .elem .syn => 4
  | .elem .perm => 5
  | .elem .sup => 6
  | .byte .cb => 7
  | .byte .pl => 8
  | .byte .ent => 9
  | .byte .out => 10

/-- `LEN[b]` (10_state.md R34). -/
def State.getLen (s : State) (b : Buf) : Word := s.len[bufSlot b]

/-- `LEN[b] <- x`. -/
def State.setLen (s : State) (b : Buf) (x : Word) : State :=
  { s with len := s.len.set (bufSlot b).val x (bufSlot b).isLt }

/-- `(KEY, V) <- (key, v)`: the pair is replaced as a whole (10_state.md R35). -/
def State.setDrbg (s : State) (kv : Bytes32 × Bytes16) : State := { s with key := kv.1, v := kv.2 }

/-- The code written to STATUS.CAUSE (60_exceptions.md R201). -/
def Cause.code : Cause → BitVec 4
  | .precond => 1
  | .illegal => 2
  | .range => 3
  | .noSeed => 4

/-- STATUS as the host reads it (10_state.md R37): CAUSE in 7:4, SEEDED in 2, ABORT in 1, BUSY in 0, zeros in
the reserved bits. -/
def Status.word (st : Status) : Word :=
  0#24 ++ st.cause ++ 0#1 ++ BitVec.ofBool st.seeded ++ BitVec.ofBool st.abort ++ BitVec.ofBool st.busy

/-- FAULT ENTRY (60_exceptions.md R203): ABORT, CAUSE and FCMD are written and nothing else. -/
def State.takeFault (s : State) (c : Cause) (w : Word) : State :=
  { s with status := { s.status with abort := true, cause := c.code }, fcmd := w }

/-- HostReset (70_reset_and_hazards.md R230), the only way out of ABORT (60_exceptions.md R204): every piece of
the spec's state takes its reset value. The build (R230), the host's own queue and record, and the model's
draw counter stay (logs 1, 5, 6). -/
def State.hostReset (s : State) : State :=
  { State.resetOf s.build with draws := s.draws, port := s.port, replies := s.replies }

/-- The fault of command `i` with cause `c`: `raise c(w)`, `w` being the command's word (00_scope.md, pseudocode
primitives). -/
def raise (c : Cause) (i : Instr) (s : State) : Result := .next (s.takeFault c (encode i))

/-- One check of 60_exceptions.md R206: where it fails the command raises `c`, where it holds it goes on. -/
def check (ok : Bool) (c : Cause) (i : Instr) (s : State) (k : Result) : Result :=
  if ok then k else raise c i s

end Sys2Proof.Machine
end

