-- ==== Sys2Proof/Machine/Operands.lean ====
section
/-! DEFINITION. The operand forms: capacities (10_state.md R26), the checks the operands and fill counts
undergo (60_exceptions.md R205 to R208), immediates (30_encoding.md R74). -/

namespace Sys2Proof.Machine

/-- `CAP[b]` of an element buffer (10_state.md R26). -/
def capE (c : Build) : EBuf → Nat
  | .p _ => c.t + 1
  | .syn => 2 * c.t
  | .perm => c.q
  | .sup => c.n

/-- `CAP[b]` of a byte buffer (10_state.md R26). -/
def capB (c : Build) : BBuf → Nat
  | .cb => c.cbytes
  | .pl => c.plTotal
  | .ent => 48
  | .out => c.outMax

/-- `CAP[b]` (10_state.md R26). -/
def cap (c : Build) : Buf → Nat
  | .elem b => capE c b
  | .byte b => capB c b

/-- `LEN[b]` is the number of entries its consumers require, which is `CAP[b]` for every buffer that has a
consumer (44_data_movement_system.md R194, R196; equality of unsigned integers, 60_exceptions.md R205). -/
def State.filled (s : State) (b : Buf) : Bool := (s.getLen b).toNat == cap s.build b

/-- `LEN[b] <- CAP[b]`, which a producer of a whole buffer and SETFULL perform (10_state.md R34). -/
def State.declareFull (s : State) (b : Buf) : State := s.setLen b (BitVec.ofNat 32 (cap s.build b))

/-- The low `M` bits of a 16-bit value: `v[M-1:0]` (10_state.md R42, 44_data_movement_system.md R191). -/
def lowBits (m : Nat) (x : Elem) : Elem := x &&& BitVec.ofNat 16 (2 ^ m - 1)

/-- The fill-count check of 60_exceptions.md R205 for buffer `b`. -/
def needFilled (b : Buf) (i : Instr) (s : State) (k : Result) : Result := check (s.filled b) .precond i s k

/-- The index check of 60_exceptions.md R207: the immediate is below `limit`. -/
def needBelow (idx : BitVec 16) (limit : Nat) (i : Instr) (s : State) (k : Result) : Result :=
  check (decide (idx.toNat < limit)) .range i s k

/-- The seed check of 60_exceptions.md R208. -/
def needSeeded (i : Instr) (s : State) (k : Result) : Result := check s.status.seeded .noSeed i s k

end Sys2Proof.Machine
end

