-- ==== Sys2Proof/Machine/Flags.lean ====
section
/-! DEFINITION. GF2M-CORE has no arithmetic flags and no condition codes (10_state.md R23): a condition is a
mask, all ones or all zeros (00_scope.md R17). This file holds the masks. -/

namespace Sys2Proof.Machine

/-- `ones_M`: the `M`-bit all-ones mask, value `2^M - 1` (00_scope.md R17). -/
def ones (m : Nat) : Elem := BitVec.ofNat 16 (2 ^ m - 1)

/-- The mask of a condition: true is all ones, false is all zeros (00_scope.md R17). -/
def mask (m : Nat) (p : Bool) : Elem := if p then ones m else 0

/-- The complement of a mask of `M` bits (00_scope.md R17: the `~` of a mask). -/
def maskNot (m : Nat) (k : Elem) : Elem := k ^^^ ones m

/-- `blend(m, a, b) = (a & m) | (b & ~m)` (00_scope.md R17). -/
def blend (k a b : Elem) : Elem := (a &&& k) ||| (b &&& ~~~k)

/-- The zero detector: `ones_M` when `x = 0`, else 0 (40_field_arithmetic.md R104). -/
def iszero (m : Nat) (x : Elem) : Elem := mask m (x == 0)

end Sys2Proof.Machine
end

