-- ==== Sys2Proof/Machine/Field.lean ====
section
/-! DEFINITION. The field arithmetic unit (40_field_arithmetic.md): the datapath functions R90 to R104 and the
six GF commands R105 to R110. -/

namespace Sys2Proof.Machine

/-- `add(x, y) = x XOR y` (R90). -/
def add (x y : Elem) : Elem := x ^^^ y

/-- The carry-less multiplier (R91): the `2M-1` bit polynomial product, held in 32 bits. -/
def clmul (m : Nat) (x y : Elem) : BitVec 32 :=
  (List.range m).foldl (fun p i => if y.getLsbD i then p ^^^ (x.setWidth 32 <<< i) else p) 0

/-- Steps `i = M+k-1` down to `M` of the modular reducer (R93). -/
def reduceFrom (m : Nat) (poly : BitVec 17) : Nat → BitVec 32 → BitVec 32
  | 0, p => p
  | k + 1, p =>
    reduceFrom m poly k (if p.getLsbD (m + k) then p ^^^ (poly.setWidth 32 <<< k) else p)

/-- The modular reducer (R93): the remainder modulo `POLY` of a `2M-1` bit vector. -/
def reduce (m : Nat) (poly : BitVec 17) (p : BitVec 32) : Elem :=
  (reduceFrom m poly (m - 1) p).setWidth 16

/-- `mul(x, y) = reduce(clmul(x, y))` (R94). -/
def mul (c : Build) (x y : Elem) : Elem := reduce c.m c.poly (clmul c.m x y)

/-- `sq(x) = mul(x, x)` (R98). -/
def sq (c : Build) (x : Elem) : Elem := mul c x x

/-- `k` further steps of the squaring ladder from the pair `(s, out)` (R101). -/
def ladder (c : Build) : Nat → Elem → Elem → Elem
  | 0, _, out => out
  | k + 1, s, out => ladder c k (sq c s) (mul c out (sq c s))

/-- `inv(x)`, by the ladder of R101; `inv(0) = 0` (R102). -/
def inv (c : Build) (x : Elem) : Elem := ladder c (c.m - 1) x 1

/-- `frac(den, num) = mul(num, inv(den))`: the denominator first (R103). -/
def frac (c : Build) (den num : Elem) : Elem := mul c num (inv c den)

/-- `bitrev(x)`: bit `i` of the result is bit `M-1-i` of `x` (R96). -/
def bitrev (m : Nat) (x : Elem) : Elem := vecOfBits 16 m (fun i => x.getLsbD (m - 1 - i))

/-- GF.ADD gd, gs1, gs2 (R105). -/
def execGfAdd (gd gs1 gs2 : GReg) (s : State) : Result :=
  .next (s.setG gd (add (s.getG gs1) (s.getG gs2)))

/-- GF.MUL gd, gs1, gs2 (R106). -/
def execGfMul (gd gs1 gs2 : GReg) (s : State) : Result :=
  .next (s.setG gd (mul s.build (s.getG gs1) (s.getG gs2)))

/-- GF.INV gd, gs (R107). -/
def execGfInv (gd gs : GReg) (s : State) : Result :=
  .next (s.setG gd (inv s.build (s.getG gs)))

/-- GF.FRAC gd, gden, gnum (R108): `G[gnum] / G[gden]`. -/
def execGfFrac (gd gden gnum : GReg) (s : State) : Result :=
  .next (s.setG gd (frac s.build (s.getG gden) (s.getG gnum)))

/-- GF.ISZERO gd, gs (R109). -/
def execGfIszero (gd gs : GReg) (s : State) : Result :=
  .next (s.setG gd (iszero s.build.m (s.getG gs)))

/-- GF.BITREV gd, gs (R110). -/
def execGfBitrev (gd gs : GReg) (s : State) : Result :=
  .next (s.setG gd (bitrev s.build.m (s.getG gs)))

end Sys2Proof.Machine
end

