-- ==== Sys2Proof/Machine/Benes.lean ====
section
/-! DEFINITION. The Benes permutation network (42_benes.md): wiring R141, control-bit layout R143, routing R145,
the encoder R149 to R152, and the commands BN.ENC, BN.APPLY, BN.SUP. -/

namespace Sys2Proof.Machine

/-- `l(r) = min(r, 2M-2-r)`: round `r` has stride `2^l(r)` (R141). -/
def level (m r : Nat) : Nat := min r (2 * m - 2 - r)

/-- `lo`: the lower position of switch `k` of a round of level `l` (R141). -/
def loPos (l k : Nat) : Nat := ((k >>> l) <<< (l + 1)) ||| (k &&& (2 ^ l - 1))

/-- `hi = lo + 2^l`: the upper position of switch `k` of a round of level `l` (R141). -/
def hiPos (l k : Nat) : Nat := loPos l k + 2 ^ l

/-- The switch of a round of level `l` that contains position `x` (R141). -/
def swidx (l x : Nat) : Nat := ((x >>> (l + 1)) <<< l) ||| (x &&& (2 ^ l - 1))

/-- The number of the control bit that sets switch `k` of round `r` (R143): `q = r * H + k`. -/
def ctrlBit (m r k : Nat) : Nat := r * 2 ^ (m - 1) + k

/-- One round (R144, R145): position `x` belongs to one switch of the round, with the position `x XOR 2^l`; where the
switch's control bit is 1 the two positions exchange their contents. The items are of any one type. -/
def routeRound {α : Type} (m : Nat) (c : Nat → Bool) (a : Nat → α) (r : Nat) : Nat → α :=
  fun x => if c (ctrlBit m r (swidx (level m r) x)) then a (x ^^^ 2 ^ level m r) else a x

/-- The order in which a route visits the rounds (R145): `0 .. 2M-2`, or the opposite. -/
def roundOrder (m : Nat) (rev : Bool) : List Nat :=
  if rev then (List.range (2 * m - 1)).reverse else List.range (2 * m - 1)

/-- `route(c, a, reverse)` (R145). -/
def route {α : Type} (m : Nat) (c : Nat → Bool) (rev : Bool) (a : Nat → α) : Nat → α :=
  (roundOrder m rev).foldl (routeRound m c) a

/-- `pi_c`: the identity sequence routed forward (R145). -/
def permOf (m : Nat) (c : Nat → Bool) : Nat → Nat := route m c false (fun x => x)

/-- Control bit number `q` of `CB` (20_memory.md R55, R143). -/
def State.ctrl (s : State) (q : Nat) : Bool := (s.readB .cb (q / 8)).getLsbD (q % 8)

/-- Bit `i` of plane `j` of `PL` (20_memory.md R56). -/
def State.plane (s : State) (j i : Nat) : Bool :=
  (s.readB .pl (j * s.build.plBytes + i / 8)).getLsbD (i % 8)

/-- Byte number `a` of the plane buffer that holds the planes `f j i`, pad bits taken from `pad` (10_state.md R31). -/
def packPlane (c : Build) (f : Nat → Nat → Bool) (pad : Nat → Byte) (a : Nat) : Byte :=
  let j := a / c.plBytes
  let base := 8 * (a % c.plBytes)
  byteOfBits (fun k => if base + k < c.q then f j (base + k) else (pad a).getLsbD k)

/-- Byte number `a` of the control-bit buffer that holds the bits `f q`, pad bits 0 (10_state.md R30). -/
def packCtrl (c : Build) (f : Nat → Bool) (a : Nat) : Byte :=
  byteOfBits (fun k => decide (8 * a + k < c.cbits) && f (8 * a + k))

/-! ### The pinned encoder (R151) -/

/-- The side assignment of one level: which half feeds each output (`outs`) and takes each input (`ins`); `some
false` is the upper half (s = 0), `some true` the lower half (s = 1), `none` unassigned. -/
structure Sides where
  /-- `side_in`. -/
  ins : List (Option Bool)
  /-- `side_out`. -/
  outs : List (Option Bool)
deriving DecidableEq, Repr

/-- One turn of the `repeat` at output `u` (R151): output `u` and its source go to the upper half, the source's switch
partner `w` and the output `v` it is delivered to go to the lower half. -/
def assignPair (q : List Nat) (u : Nat) (sd : Sides) : Sides :=
  let w := q.getD u 0 ^^^ 1
  let v := q.idxOf w
  { ins := (sd.ins.set (q.getD u 0) (some false)).set w (some true)
    outs := (sd.outs.set u (some false)).set v (some true) }

/-- The output the walk visits after `u` (R151): the switch partner of `v`. -/
def nextOutput (q : List Nat) (u : Nat) : Nat := q.idxOf (q.getD u 0 ^^^ 1) ^^^ 1

/-- The walk of one loop from `start`, at output `u` (R151), for at most `fuel` turns; a loop visits each pair of
outputs at most once, so as many turns as there are outputs always suffice. -/
def walkLoop (q : List Nat) (start : Nat) : Nat → Nat → Sides → Sides
  | 0, _, sd => sd
  | fuel + 1, u, sd =>
    if nextOutput q u = start then assignPair q u sd
    else walkLoop q start fuel (nextOutput q u) (assignPair q u sd)

/-- All loops of one level, `start = 0, 2, .., k-2` (R151). -/
def assignSides (k : Nat) (q : List Nat) : Sides :=
  (List.range (k / 2)).foldl
    (fun sd j => if sd.outs.getD (2 * j) none = none then walkLoop q (2 * j) k (2 * j) sd else sd)
    { ins := List.replicate k none, outs := List.replicate k none }

/-- Sets bit `i` of a bit string held as a natural number to 1 where `x` holds; every bit starts at 0. -/
def orBit (acc i : Nat) (x : Bool) : Nat := if x then acc ||| 2 ^ i else acc

/-- The control bits of the input-side and output-side switches of one level (R151). -/
def sideBits (m l o k : Nat) (sd : Sides) (acc : Nat) : Nat :=
  (List.range (k / 2)).foldl
    (fun acc j =>
      let x := o + 2 * j * 2 ^ l
      orBit (orBit acc (ctrlBit m l (swidx l x)) (sd.ins.getD (2 * j) none == some true))
        (ctrlBit m (2 * m - 2 - l) (swidx l x)) (sd.outs.getD (2 * j) none == some true))
    acc

/-- The bijection the half `half` must realise (R151): `qs[j] = q[uo] div 2`. -/
def halfPerm (k : Nat) (q : List Nat) (sd : Sides) (half : Bool) : List Nat :=
  (List.range (k / 2)).map (fun j =>
    let uo := if sd.outs.getD (2 * j) none = some half then 2 * j else 2 * j + 1
    q.getD uo 0 / 2)

/-- `enc_rec(l, o, q)` on `2^j` positions, `j = M - l` (R151); the bit string is a natural number. -/
def encRec (m : Nat) : Nat → Nat → Nat → List Nat → Nat → Nat
  | 0, _, _, _, acc => acc
  | 1, _, o, q, acc => orBit acc (ctrlBit m (m - 1) (swidx (m - 1) o)) (q.getD 0 0 == 1)
  | j + 2, l, o, q, acc =>
    let k := 2 ^ (j + 2)
    let sd := assignSides k q
    let acc := sideBits m l o k sd acc
    let acc := encRec m (j + 1) (l + 1) o (halfPerm k q sd false) acc
    encRec m (j + 1) (l + 1) (o + 2 ^ l) (halfPerm k q sd true) acc

/-- The pinned `ENC` (R151): control bit number `q` of the permutation `p`. -/
def pinnedEnc (m : Nat) (p : List Elem) (q : Nat) : Bool :=
  (encRec m m 0 0 (p.map BitVec.toNat) 0).testBit q

/-- `PERM[0 .. Q-1]`. -/
def State.permList (s : State) : List Elem := (List.range s.build.q).map (s.readE .perm)

/-- The sequence is a bijection on `{0, .., Q-1}` (10_state.md R28): entries below `Q`, pairwise distinct. -/
def isBijection (c : Build) (p : List Elem) : Bool :=
  p.all (fun x => decide (x.toNat < c.q)) && decide p.Nodup

/-- `ENC` of the build (R150). -/
def enc (c : Build) (p : List Elem) : Nat → Bool :=
  match c.encoder with
  | .pinned => pinnedEnc c.m p
  | .other => Config.otherEncoder c.m p

/-- The control bits BN.ENC writes: `ENC(p)` for a bijection (R149); for any other content of `PERM` a FREE VALUE, the
next string drawn (R152, U3; log 5). -/
def State.encBits (s : State) : Nat → Bool :=
  if isBijection s.build s.permList then enc s.build s.permList else Config.controlDraw s.draws

/-- The counter of drawn strings after BN.ENC: a draw is made only for a non-bijection (log 5). -/
def State.drawsAfterEnc (s : State) : Nat :=
  if isBijection s.build s.permList then s.draws else s.draws + 1

/-! ### The commands -/

/-- BN.ENC (R149). -/
def execBnEnc (s : State) : Result :=
  needFilled (.elem .perm) .bnEnc s
    (.next { (s.fillB .cb s.build.cbytes (packCtrl s.build s.encBits)).declareFull (.byte .cb) with
      draws := s.drawsAfterEnc })

/-- The routed planes of BN.APPLY (R146, R147). -/
def State.routedPlanes (s : State) (rev : Bool) (j : Nat) : Nat → Bool :=
  route s.build.m s.ctrl rev (s.plane j)

/-- BN.APPLY fwd | rev (R147): pad bits of `PL` stay as they are. -/
def execBnApply (rev : Bool) (s : State) : Result :=
  needFilled (.byte .cb) (.bnApply rev) s
    (needFilled (.byte .pl) (.bnApply rev) s
      (.next (s.fillB .pl s.build.plTotal (packPlane s.build (s.routedPlanes rev) (s.readB .pl)))))

/-- Plane `j` of the bit-reversed index sequence (R153): bit `i` is `bitrev(i)[j]`. -/
def indexPlane (m j i : Nat) : Bool := (bitrev m (BitVec.ofNat 16 i)).getLsbD j

/-- The routed planes of BN.SUP (R153): forward. -/
def State.supportPlanes (s : State) (j : Nat) : Nat → Bool :=
  route s.build.m s.ctrl false (indexPlane s.build.m j)

/-- `SUP[i]`: bit `j` is bit `i` of routed plane `j` (R153). -/
def State.supportEntry (s : State) (i : Nat) : Elem :=
  vecOfBits 16 s.build.m (fun j => s.supportPlanes j i)

/-- BN.SUP (R153): `PL` is overwritten, pad bits 0; then `SUP[0 .. N-1]`. -/
def execBnSup (s : State) : Result :=
  needFilled (.byte .cb) .bnSup s
    (.next ((((s.fillB .pl s.build.plTotal
        (packPlane s.build s.supportPlanes (fun _ => 0))).declareFull (.byte .pl)).fillE .sup s.build.n
        s.supportEntry).declareFull (.elem .sup)))

end Sys2Proof.Machine
end

