-- ==== Sys2Proof/Machine/Data.lean ====
section
/-! DEFINITION. Data movement and system commands (44_data_movement_system.md R190 to R194). -/

namespace Sys2Proof.Machine

/-- NOP (R190). -/
def execNop (s : State) : Result := .next s

/-- LDI gd, imm (R191). No word decodes to a term whose immediate is `2^M` or more; on such a term the meaning
raises the ILLEGAL fault R191 names (log 11). -/
def execLdi (gd : GReg) (imm : BitVec 16) (s : State) : Result :=
  check (decide (imm.toNat < 2 ^ s.build.m)) .illegal (.ldi gd imm) s
    (.next (s.setG gd (lowBits s.build.m imm)))

/-- LDE gd, BUF, idx (R192). -/
def execLde (gd : GReg) (b : EBuf) (idx : BitVec 16) (s : State) : Result :=
  needBelow idx (capE s.build b) (.lde gd b idx) s (.next (s.setG gd (s.readE b idx.toNat)))

/-- STE gs, BUF, idx (R193). -/
def execSte (gs : GReg) (b : EBuf) (idx : BitVec 16) (s : State) : Result :=
  needBelow idx (capE s.build b) (.ste gs b idx) s (.next (s.writeE b idx.toNat (s.getG gs)))

/-- SETFULL BUF (R194). -/
def execSetfull (b : Buf) (s : State) : Result := .next (s.declareFull b)

end Sys2Proof.Machine
end

