-- ==== Sys2Proof/Machine/Drbg.lean ====
section
/-! DEFINITION. The deterministic bit generator (43_drbg.md): counter R171, update R172, and the commands RB.INIT,
RB.UPD, RB.GEN. The operations take the cipher as an argument `e`; the commands pass `Config.cipher`. -/

namespace Sys2Proof.Machine

/-- The cipher's type (00_scope.md R13). -/
abbrev Cipher := Bytes32 → Bytes16 → Bytes16

/-- `BE128(b)`: byte 0 is the most significant (00_scope.md R16). -/
def be128 (b : Bytes16) : Nat := b.toList.foldl (fun acc x => acc * 256 + x.toNat) 0

/-- The 16-byte big-endian string of `n mod 2^128` (00_scope.md R16, 20_memory.md R53). -/
def bytesOf128 (n : Nat) : Bytes16 := Vector.ofFn (fun i => BitVec.ofNat 8 (n / 256 ^ (15 - i.val)))

/-- `incr(v)` (R171): the whole 128 bits, wrapping. -/
def incr (v : Bytes16) : Bytes16 := bytesOf128 (be128 v + 1)

/-- `k` increments. -/
def incrBy : Nat → Bytes16 → Bytes16
  | 0, v => v
  | k + 1, v => incrBy k (incr v)

/-- The keystream of an update (R172): `E(key, v+1) ++ E(key, v+2) ++ E(key, v+3)`. -/
def keystream (e : Cipher) (key : Bytes32) (v : Bytes16) : Bytes48 :=
  e key (incr v) ++ e key (incr (incr v)) ++ e key (incr (incr (incr v)))

/-- `temp XOR pd` where provided data is supplied (R172, 00_scope.md R16). -/
def xorProvided (temp : Bytes48) : Option Bytes48 → Bytes48
  | none => temp
  | some pd => Vector.ofFn (fun i => temp[i] ^^^ pd[i])

/-- The split of 48 bytes into a new key and a new counter (20_memory.md R54). -/
def splitState (temp : Bytes48) : Bytes32 × Bytes16 :=
  (Vector.ofFn (fun i => temp[i.val]), Vector.ofFn (fun i => temp[32 + i.val]))

/-- `update(provided_data_or_none, key, v)` (R172). -/
def update (e : Cipher) (pd : Option Bytes48) (key : Bytes32) (v : Bytes16) : Bytes32 × Bytes16 :=
  splitState (xorProvided (keystream e key v) pd)

/-- The output blocks of `generate` (R175): `k` blocks, each on the next counter value. -/
def blocks (e : Cipher) (key : Bytes32) : Nat → Bytes16 → List Byte
  | 0, _ => []
  | k + 1, v => (e key (incr v)).toList ++ blocks e key k (incr v)

/-- `ceil(n / 16)`: the blocks RB.GEN n produces (R175). -/
def blockCount (n : Nat) : Nat := (n + 15) / 16

/-- `ENT[0..47]` (10_state.md R32). -/
def State.entropy (s : State) : Bytes48 := Vector.ofFn (fun i => s.readB .ent i.val)

/-- The generator's part of RB.INIT (R173): one update of the zero state, and SEEDED. -/
def initWith (e : Cipher) (s : State) : State :=
  { s.setDrbg (update e (some s.entropy) (Vector.replicate 32 0) (Vector.replicate 16 0)) with
    status := { s.status with seeded := true } }

/-- The generator's part of RB.UPD (R174). -/
def updateWith (e : Cipher) (pd : Bool) (s : State) : State :=
  s.setDrbg (update e (if pd then some s.entropy else none) s.key s.v)

/-- The generator's part of RB.GEN (R175): output, fill count, final update from the counter after the last block. -/
def generateWith (e : Cipher) (n : Nat) (s : State) : State :=
  let buf := blocks e s.key (blockCount n) s.v
  ((s.fillB .out n (fun i => buf.getD i 0)).setLen (.byte .out) (BitVec.ofNat 32 n)).setDrbg
    (update e none s.key (incrBy (blockCount n) s.v))

/-- RB.INIT (R173). -/
def execRbInit (s : State) : Result :=
  needFilled (.byte .ent) .rbInit s (.next (initWith Config.cipher s))

/-- RB.UPD nopd | pd (R174): NOSEED before PRECOND (60_exceptions.md R208); `ENT` is looked at only with `pd`. -/
def execRbUpd (pd : Bool) (s : State) : Result :=
  needSeeded (.rbUpd pd) s
    (check (!pd || s.filled (.byte .ent)) .precond (.rbUpd pd) s (.next (updateWith Config.cipher pd s)))

/-- RB.GEN n (R175): RANGE before NOSEED. -/
def execRbGen (n : BitVec 16) (s : State) : Result :=
  check (decide (n.toNat ≤ s.build.outMax)) .range (.rbGen n) s
    (needSeeded (.rbGen n) s (.next (generateWith Config.cipher n.toNat s)))

end Sys2Proof.Machine
end

