-- ==== Sys2Proof/Machine/Poly.lean ====
section
/-! DEFINITION. The polynomial evaluator and the Berlekamp-Massey decoder (41_polynomial_bm.md): PL.EVAL and
BM.RUN. -/

namespace Sys2Proof.Machine

/-- Steps `i = k-1` down to 0 of the Horner loop (R120). -/
def horner (c : Build) (f : Nat → Elem) (a : Elem) : Nat → Elem → Elem
  | 0, r => r
  | k + 1, r => horner c f a k (add (mul c r a) (f k))

/-- `eval(f, a)`: `T` steps from the coefficient of degree `T` down (R120). -/
def eval (c : Build) (f : Nat → Elem) (a : Elem) : Elem := horner c f a c.t (f c.t)

/-- The working set of the decoder (R123): polynomials `C` and `B` of `T+1` coefficients, the scale `b`, the length
counter `L`. Working values of the command, not state (10_state.md R44). -/
structure BmWork where
  /-- `C`, coefficient `i` at index `i`. -/
  cs : List Elem
  /-- `B`, coefficient `i` at index `i`. -/
  bs : List Elem
  /-- `b`. -/
  scale : Elem
  /-- `L`. -/
  len : Nat
deriving DecidableEq, Repr

/-- The initial values (R127): `C = 1`, `B = x`, `b = 1`, `L = 0`. -/
def bmInit (c : Build) : BmWork :=
  { cs := 1 :: List.replicate c.t 0
    bs := 0 :: 1 :: List.replicate (c.t - 1) 0
    scale := 1
    len := 0 }

/-- The discrepancy of step `n` (R125): the XOR over `i = 0 .. min(n, T)` of `mul(C[i], S[n-i])`. -/
def discrepancy (c : Build) (syn : Nat → Elem) (cs : List Elem) (n : Nat) : Elem :=
  (List.range (min n c.t + 1)).foldl (fun d i => add d (mul c (cs.getD i 0) (syn (n - i)))) 0

/-- Multiplication by `x` within `T+1` coefficients: the coefficient that leaves degree `T` is dropped (R125). -/
def shiftUp (bs : List Elem) : List Elem := 0 :: bs.dropLast

/-- One step of the decoder (R125), with its two masks (`mne`: the discrepancy is nonzero; `mle`: `N >= 2L`) and
their conjunction `mup`. -/
def bmStep (c : Build) (syn : Nat → Elem) (n : Nat) (w : BmWork) : BmWork :=
  let d := discrepancy c syn w.cs n
  let mne := maskNot c.m (iszero c.m d)
  let mle := mask c.m (decide (2 * w.len ≤ n))
  let mup := mne &&& mle
  let f := frac c w.scale d
  { cs := List.zipWith (fun ci bi => add ci (mul c f bi &&& mne)) w.cs w.bs
    bs := shiftUp (List.zipWith (blend mup) w.cs w.bs)
    scale := blend mup d w.scale
    len := if mup == 0 then w.len else n + 1 - w.len }

/-- Steps `0 .. k-1` of the decoder from the initial values (R124). -/
def bmSteps (c : Build) (syn : Nat → Elem) (k : Nat) : BmWork :=
  (List.range k).foldl (fun w n => bmStep c syn n w) (bmInit c)

/-- The decoder's output, coefficient `i` (R130): `C[T - i]` after all `2T` steps. -/
def locator (c : Build) (syn : Nat → Elem) (i : Nat) : Elem :=
  (bmSteps c syn (2 * c.t)).cs.getD (c.t - i) 0

/-- PL.EVAL gd, ps, ga (R121). -/
def execPlEval (gd : GReg) (ps : PReg) (ga : GReg) (s : State) : Result :=
  needFilled (.elem (.p ps)) (.plEval gd ps ga) s
    (.next (s.setG gd (eval s.build (s.readE (.p ps)) (s.getG ga))))

/-- BM.RUN pd (R124). -/
def execBmRun (pd : PReg) (s : State) : Result :=
  needFilled (.elem .syn) (.bmRun pd) s
    (.next ((s.fillE (.p pd) (s.build.t + 1) (locator s.build (s.readE .syn))).declareFull (.elem (.p pd))))

end Sys2Proof.Machine
end

