-- ==== Sys2Proof/Machine/Dispatch.lean ====
section
/-! DEFINITION. The execution of a decoded command: one arm per row of the opcode map (30_encoding.md R75). -/

namespace Sys2Proof.Machine

def exec (i : Instr) (s : State) : Host.Outcome State Fault Refusal :=
  match i with
  | .nop => Sys2Proof.Machine.execNop s
  | .ldi gd imm => Sys2Proof.Machine.execLdi gd imm s
  | .lde gd b idx => Sys2Proof.Machine.execLde gd b idx s
  | .ste gs b idx => Sys2Proof.Machine.execSte gs b idx s
  | .setfull b => Sys2Proof.Machine.execSetfull b s
  | .gfAdd gd gs1 gs2 => Sys2Proof.Machine.execGfAdd gd gs1 gs2 s
  | .gfMul gd gs1 gs2 => Sys2Proof.Machine.execGfMul gd gs1 gs2 s
  | .gfInv gd gs => Sys2Proof.Machine.execGfInv gd gs s
  | .gfFrac gd gden gnum => Sys2Proof.Machine.execGfFrac gd gden gnum s
  | .gfIszero gd gs => Sys2Proof.Machine.execGfIszero gd gs s
  | .gfBitrev gd gs => Sys2Proof.Machine.execGfBitrev gd gs s
  | .plEval gd ps ga => Sys2Proof.Machine.execPlEval gd ps ga s
  | .bmRun pd => Sys2Proof.Machine.execBmRun pd s
  | .bnEnc => Sys2Proof.Machine.execBnEnc s
  | .bnApply rev => Sys2Proof.Machine.execBnApply rev s
  | .bnSup => Sys2Proof.Machine.execBnSup s
  | .rbInit => Sys2Proof.Machine.execRbInit s
  | .rbUpd pd => Sys2Proof.Machine.execRbUpd pd s
  | .rbGen n => Sys2Proof.Machine.execRbGen n s

end Sys2Proof.Machine
end

