-- ==== Sys2Proof/Machine/HostPort.lean ====
section
/-! DEFINITION. The host port (10_state.md R40 to R43): the register map, BUFADDR and BUFDATA, the issue of a command
word (60_exceptions.md R206, steps 1 and 2), and what the port does with each transaction. -/

namespace Sys2Proof.Machine

/-- The host registers (10_state.md R41). -/
inductive HostReg where
  | status
  | fcmd
  | cmd
  | bufaddr
  | bufdata
  | paramM
  | paramT
  | paramN
  | paramPoly
  | paramOutmax
  | len (b : Buf)
deriving DecidableEq, Repr

/-- The register at a byte offset (10_state.md R41); `none` at a reserved or unmapped offset. -/
def hostReg (off : Nat) : Option HostReg :=
  if off = 0x00 then some .status
  else if off = 0x04 then some .fcmd
  else if off = 0x08 then some .cmd
  else if off = 0x0C then some .bufaddr
  else if off = 0x10 then some .bufdata
  else if off = 0x20 then some .paramM
  else if off = 0x24 then some .paramT
  else if off = 0x28 then some .paramN
  else if off = 0x2C then some .paramPoly
  else if off = 0x30 then some .paramOutmax
  else if 0x40 ≤ off ∧ off < 0x80 ∧ off % 4 = 0 then
    (Buf.ofNumber (BitVec.ofNat 4 ((off - 0x40) / 4))).map .len
  else none

/-- What BUFADDR addresses (10_state.md R42): the host's buffer numbers 0 to 11, the `G` window (7) among them. -/
inductive HostBuf where
  /-- Number 7: the scalar registers. -/
  | window
  | buf (b : Buf)
deriving DecidableEq, Repr

/-- The buffer number `BUFADDR[31:28]` names; `none` for the reserved numbers 12 to 15 (10_state.md R26). -/
def hostBuf (addr : Word) : Option HostBuf :=
  if addr.extractLsb' 28 4 = 7 then some .window
  else (Buf.ofNumber (addr.extractLsb' 28 4)).map .buf

/-- The entry index `BUFADDR[27:0]` (10_state.md R42). -/
def hostIndex (addr : Word) : Nat := (addr.extractLsb' 0 28).toNat

/-- A host read of BUFDATA (10_state.md R42): the addressed entry zero-extended, 0 where the buffer is reserved or the
index is not below its capacity. -/
def State.readBufdata (s : State) : Word :=
  let i := hostIndex s.bufaddr
  match hostBuf s.bufaddr with
  | none => 0
  | some .window => if i < 16 then (s.getG (BitVec.ofNat 4 i)).setWidth 32 else 0
  | some (.buf (.elem b)) => if i < capE s.build b then (s.readE b i).setWidth 32 else 0
  | some (.buf (.byte b)) => if i < capB s.build b then (s.readB b i).setWidth 32 else 0

/-- A host write of BUFDATA outside ABORT (10_state.md R42): the low bits of `v` go to the addressed entry, and nothing
happens where the buffer is reserved or the index is not below its capacity. -/
def State.writeBufdata (s : State) (v : Word) : State :=
  let i := hostIndex s.bufaddr
  match hostBuf s.bufaddr with
  | none => s
  | some .window => if i < 16 then s.setG (BitVec.ofNat 4 i) (lowBits s.build.m (v.setWidth 16)) else s
  | some (.buf (.elem b)) =>
    if i < capE s.build b then s.writeE b i (lowBits s.build.m (v.setWidth 16)) else s
  | some (.buf (.byte b)) => if i < capB s.build b then s.writeB b i (v.setWidth 8) else s

/-- `HostRead(off)` of 32 bits (10_state.md R41): reads change nothing (20_memory.md R58). -/
def State.hostRead (s : State) (off : Nat) : Word :=
  match hostReg off with
  | some .status => s.status.word
  | some .fcmd => s.fcmd
  | some .cmd => 0
  | some .bufaddr => s.bufaddr
  | some .bufdata => s.readBufdata
  | some .paramM => BitVec.ofNat 32 s.build.m
  | some .paramT => BitVec.ofNat 32 s.build.t
  | some .paramN => BitVec.ofNat 32 s.build.n
  | some .paramPoly => s.build.poly.setWidth 32
  | some .paramOutmax => BitVec.ofNat 32 s.build.outMax
  | some (.len b) => s.getLen b
  | none => 0

/-- The issue of command word `w` (10_state.md R43), steps 1 and 2 of 60_exceptions.md R206: in ABORT the word is
discarded; an Illegal word takes the ILLEGAL fault; any other word is handed on as the command to execute. -/
def State.issue (s : State) (w : Word) : State × Option Instr :=
  if s.status.abort then (s, none)
  else
    match decode s.build.m w with
    | .ok i => (s, some i)
    | .error _ => (s.takeFault .illegal w, none)

/-- `HostWrite(off, v)` of 32 bits (10_state.md R41): in ABORT only BUFADDR is writable (60_exceptions.md R204); a
write to CMD issues `v`. -/
def State.hostWrite (s : State) (off : Nat) (v : Word) : State × Option Instr :=
  match hostReg off with
  | some .cmd => s.issue v
  | some .bufaddr => ({ s with bufaddr := v }, none)
  | some .bufdata => (if s.status.abort then s else s.writeBufdata v, none)
  | some (.len b) => (if s.status.abort then s else s.setLen b v, none)
  | _ => (s, none)

/-- The value a read transaction returns: an access that is not of 32 bits reads 0 (10_state.md R40). -/
def State.replyTo (s : State) (width off : Nat) : Word := if width = 32 then s.hostRead off else 0

/-- What the port does with one transaction (10_state.md R40): the state once it is performed, and the command to
execute where it issued one. An access that is not of 32 bits writes nothing. -/
def State.accept (s : State) : HostTxn → State × Option Instr
  | .reset => (s.hostReset, none)
  | .read width off => ({ s with replies := s.replyTo width off :: s.replies }, none)
  | .write width off v => if width = 32 then s.hostWrite off v else (s, none)

/-- The next transaction in the port's order (20_memory.md R61), and the state without it. -/
def State.nextTxn (s : State) : Option (HostTxn × State) :=
  match s.port with
  | [] => none
  | t :: rest => some (t, { s with port := rest })

/-- The host's write of a command word to CMD (10_state.md R43). -/
def commandTxn (w : Word) : HostTxn := .write 32 0x08 w

end Sys2Proof.Machine
end

