-- ==== Sys2Proof/Machine/Step.lean ====
section
/-! DEFINITION. One step of the machine: the port accepts the host's next transaction and the unit performs it,
with the command it issued, as one atomic step (00_scope.md R12, 20_memory.md R61). -/

namespace Sys2Proof.Machine

/-- One step. With no transaction waiting the unit is idle with all state held (60_exceptions.md R217). -/
def step (s : State) : Host.Outcome State Fault Refusal :=
  if s.build.valid then
    match s.nextTxn with
    | none => .next s
    | some (t, s1) =>
      match s1.accept t with
      | (s2, none) => .next s2
      | (s2, some i) => exec i s2
  else .fault .noSuchBuild

/-- `s` with the host's write of the command word in the low `nbits` bits of `w` as its next transaction, so that
the very next step issues it (log 6). -/
def State.withFetchWord (s : State) (nbits w : Nat) : State :=
  { s with port := commandTxn (BitVec.ofNat 32 (w % 2 ^ nbits)) :: s.port }

end Sys2Proof.Machine
end

