-- ==== Sys2Proof/Safety.lean ====
section
/-! DEFINITION. The terms the claims use: the machine's invariant, the table of the opcode map, the order of the
checks, what a command may write, and the mathematical objects the rules name (polynomials over GF(2)). Nothing here
is called by the machine. -/

namespace Sys2Proof

/-! ### The opcode map as masks (spec/opcode_table.json, 30_encoding.md R75) -/

/-- One row: its mask and match word, and the constraint the mask does not carry. -/
structure OpcodeRow where
  /-- The row's must-be bits. -/
  mask : Word
  /-- Their values. -/
  pattern : Word
  /-- What else the row requires, for a field degree `m`. -/
  extra : Nat → Word → Bool

/-- No further constraint. -/
def noExtra (_ : Nat) (_ : Word) : Bool := true

/-- The nineteen rows, with the mask and match of spec/opcode_table.json and its `constraint`. -/
def opcodeRows : List OpcodeRow :=
  [ ⟨0xFFFFFFFF, 0x00000000, noExtra⟩,                                        -- NOP
    ⟨0xFF0F0000, 0x01000000, fun m w => decide ((w &&& 0xFFFF).toNat < 2 ^ m)⟩,  -- LDI: value < 2^M
    ⟨0xFF080000, 0x02000000, fun _ w => !((w >>> 16) &&& 0xF == 7)⟩,              -- LDE: buffer in 0..6
    ⟨0xFF080000, 0x03000000, fun _ w => !((w >>> 16) &&& 0xF == 7)⟩,              -- STE: buffer in 0..6
    ⟨0xFFF0FFFF, 0x04000000,
      fun _ w => !((w >>> 16) &&& 0xF == 7) && decide (((w >>> 16) &&& 0xF).toNat < 12)⟩,  -- SETFULL
    ⟨0xFF000FFF, 0x10000000, noExtra⟩,                                        -- GF.ADD
    ⟨0xFF000FFF, 0x11000000, noExtra⟩,                                        -- GF.MUL
    ⟨0xFF00FFFF, 0x12000000, noExtra⟩,                                        -- GF.INV
    ⟨0xFF000FFF, 0x13000000, noExtra⟩,                                        -- GF.FRAC
    ⟨0xFF00FFFF, 0x14000000, noExtra⟩,                                        -- GF.ISZERO
    ⟨0xFF00FFFF, 0x15000000, noExtra⟩,                                        -- GF.BITREV
    ⟨0xFF0C0FFF, 0x20000000, noExtra⟩,                                        -- PL.EVAL
    ⟨0xFFCFFFFF, 0x21000000, noExtra⟩,                                        -- BM.RUN
    ⟨0xFFFFFFFF, 0x30000000, noExtra⟩,                                        -- BN.ENC
    ⟨0xFFFFFFFE, 0x31000000, noExtra⟩,                                        -- BN.APPLY
    ⟨0xFFFFFFFF, 0x32000000, noExtra⟩,                                        -- BN.SUP
    ⟨0xFFFFFFFF, 0x40000000, noExtra⟩,                                        -- RB.INIT
    ⟨0xFFFFFFFE, 0x41000000, noExtra⟩,                                        -- RB.UPD
    ⟨0xFFFF0000, 0x42000000, noExtra⟩ ]                                       -- RB.GEN

/-- The word has the row's bits and meets its constraint. -/
def OpcodeRow.matchesWord (r : OpcodeRow) (m : Nat) (w : Word) : Bool :=
  w &&& r.mask == r.pattern && r.extra m w

end Sys2Proof

namespace Sys2Proof.Machine

/-! ### The invariant -/

/-- An element buffer: canonical, nothing listed at or above its capacity, every entry an `M`-bit word
(10_state.md R25, R26). -/
def elemsOk (m capacity : Nat) (mem : Memory 16) : Prop :=
  mem.wf = true ∧ (∀ i, capacity ≤ i → mem.read i = 0) ∧ ∀ i, (mem.read i).toNat < 2 ^ m

/-- A byte buffer: canonical, nothing listed at or above its capacity (10_state.md R25, R26). -/
def bytesOk (capacity : Nat) (mem : Memory 8) : Prop :=
  mem.wf = true ∧ ∀ i, capacity ≤ i → mem.read i = 0

/-- STATUS and FCMD (10_state.md R37, R38): BUSY is 0 between steps, CAUSE and FCMD are 0 while ABORT is 0, and a
CAUSE that a fault left is one of the four codes (60_exceptions.md R201). -/
def statusOk (st : Status) (fcmd : Word) : Prop :=
  st.busy = false ∧ (st.abort = false → st.cause = 0 ∧ fcmd = 0) ∧
    (st.abort = true → 1 ≤ st.cause.toNat ∧ st.cause.toNat ≤ 4)

/-- THE INVARIANT. The build is one the spec admits; every register and every entry is an `M`-bit word or a byte and
every buffer's storage is canonical and within its capacity; STATUS and FCMD agree; an unseeded generator still holds
its reset state (10_state.md R35). -/
def Inv (s : State) : Prop :=
  s.build.valid = true ∧ (∀ r, (s.getG r).toNat < 2 ^ s.build.m) ∧
    (∀ b, elemsOk s.build.m (capE s.build b) (s.getE b)) ∧ (∀ b, bytesOk (capB s.build b) (s.getB b)) ∧
    statusOk s.status s.fcmd ∧
    (s.status.seeded = false → s.key = Vector.replicate 32 0 ∧ s.v = Vector.replicate 16 0)

/-! ### The checks, in the order of 60_exceptions.md R206 -/

/-- Step 3: the RANGE condition (R207). -/
def rangeFails (c : Build) : Instr → Bool
  | .lde _ b idx => decide (capE c b ≤ idx.toNat)
  | .ste _ b idx => decide (capE c b ≤ idx.toNat)
  | .rbGen n => decide (c.outMax < n.toNat)
  | _ => false

/-- Step 4: the NOSEED condition (R208). -/
def seedFails (seeded : Bool) : Instr → Bool
  | .rbUpd _ => !seeded
  | .rbGen _ => !seeded
  | _ => false

/-- The fill counts a command requires, the complete list of 44_data_movement_system.md R196. -/
def fillRequired (c : Build) : Instr → List (Buf × Nat)
  | .plEval _ ps _ => [(.elem (.p ps), c.t + 1)]
  | .bmRun _ => [(.elem .syn, 2 * c.t)]
  | .bnEnc => [(.elem .perm, 2 ^ c.m)]
  | .bnApply _ => [(.byte .cb, c.cbytes), (.byte .pl, c.plTotal)]
  | .bnSup => [(.byte .cb, c.cbytes)]
  | .rbInit => [(.byte .ent, 48)]
  | .rbUpd true => [(.byte .ent, 48)]
  | _ => []

/-- Step 5: the PRECOND condition (R205). -/
def fillFails (s : State) (i : Instr) : Bool :=
  (fillRequired s.build i).any (fun r => !((s.getLen r.1).toNat == r.2))

/-- The first failing check of steps 3 to 5 on a decoded command. -/
def faultOf (s : State) (i : Instr) : Option Cause :=
  if rangeFails s.build i then some .range
  else if seedFails s.status.seeded i then some .noSeed
  else if fillFails s i then some .precond
  else none

/-- The first failing check of steps 2 to 5 on an issued word. -/
def faultOfWord (s : State) (w : Word) : Option Cause :=
  match decode s.build.m w with
  | .error _ => some .illegal
  | .ok i => faultOf s i

/-- A unit of an existing build, not in ABORT, whose port presents command word `w` and then `rest`. -/
def Presents (s : State) (w : Word) (rest : List HostTxn) : Prop :=
  s.build.valid = true ∧ s.status.abort = false ∧ s.port = commandTxn w :: rest

/-! ### What a command may write: a function of the command and the build (70_reset_and_hazards.md R236) -/

/-- The destination register, where a command has one. -/
def destG : Instr → Option GReg
  | .ldi gd _ => some gd
  | .lde gd _ _ => some gd
  | .gfAdd gd _ _ => some gd
  | .gfMul gd _ _ => some gd
  | .gfInv gd _ => some gd
  | .gfFrac gd _ _ => some gd
  | .gfIszero gd _ => some gd
  | .gfBitrev gd _ => some gd
  | .plEval gd _ _ => some gd
  | _ => none

/-- The entries of element buffers a command may store to (10_state.md R26, written by commands). -/
def storesE (c : Build) (i : Instr) (b : EBuf) (k : Nat) : Bool :=
  match i with
  | .ste _ b' idx => b == b' && k == idx.toNat
  | .bmRun pd => b == .p pd && decide (k < c.t + 1)
  | .bnSup => b == .sup && decide (k < c.n)
  | _ => false

/-- The entries of byte buffers a command may store to (10_state.md R26, written by commands). -/
def storesB (c : Build) (i : Instr) (b : BBuf) (k : Nat) : Bool :=
  match i with
  | .bnEnc => b == .cb && decide (k < c.cbytes)
  | .bnApply _ => b == .pl && decide (k < c.plTotal)
  | .bnSup => b == .pl && decide (k < c.plTotal)
  | .rbGen n => b == .out && decide (k < n.toNat)
  | _ => false

/-- The fill counts a command may write (10_state.md R34). -/
def setsLen (i : Instr) (b : Buf) : Bool :=
  match i with
  | .setfull b' => b == b'
  | .bmRun pd => b == .elem (.p pd)
  | .bnEnc => b == .byte .cb
  | .bnSup => b == .byte .pl || b == .elem .sup
  | .rbGen _ => b == .byte .out
  | _ => false

/-- The commands that may write KEY and V (10_state.md R35). -/
def usesGenerator : Instr → Bool
  | .rbInit => true
  | .rbUpd _ => true
  | .rbGen _ => true
  | _ => false

/-- Everything but the generator's state, the data of the buffers and the G registers is alike (the public part the
fault checks read, 70_reset_and_hazards.md R237). -/
def samePublic (s t : State) : Prop :=
  s.build = t.build ∧ s.len = t.len ∧ s.status = t.status

/-- Two states agree on all that the generator's commands may depend on, and on `OUT` (43_drbg.md R178). -/
def sameGenerator (s t : State) : Prop :=
  s.build = t.build ∧ s.status.seeded = t.status.seeded ∧ s.key = t.key ∧ s.v = t.v ∧ s.ent = t.ent ∧
    s.out = t.out ∧ s.getLen (.byte .ent) = t.getLen (.byte .ent) ∧
    s.getLen (.byte .out) = t.getLen (.byte .out)

/-! ### Mathematical objects -/

/-- The polynomial over GF(2) a bit vector stands for: bit `i` is the coefficient of `x^i` (00_scope.md R15). -/
noncomputable def polyOf {w : Nat} (x : BitVec w) : Polynomial (ZMod 2) :=
  ∑ i ∈ Finset.range w, if x.getLsbD i then Polynomial.X ^ i else 0

/-- `x` raised to the power `k`, by repeated multiplication in the field. -/
def power (c : Build) (x : Elem) : Nat → Elem
  | 0 => 1
  | k + 1 => mul c (power c x k) x

/-- The XOR of `f 0 .. f (k-1)`: a sum in the field. -/
def xorSum (k : Nat) (f : Nat → Elem) : Elem := (List.range k).foldl (fun acc i => add acc (f i)) 0

/-- The syndromes of 41_polynomial_bm.md R131: `S[j]` is the XOR over the locators of their `j`-th powers. -/
def syndromes (c : Build) (locators : List Elem) (j : Nat) : Elem :=
  (locators.map (fun a => power c a j)).foldl add 0

/-- The product over the locators of `(x + a)`, coefficients from degree 0 up (41_polynomial_bm.md R131). -/
def rootProduct (c : Build) : List Elem → List Elem
  | [] => [1]
  | a :: rest =>
    let p := rootProduct c rest
    List.zipWith add (p.map (mul c a) ++ [0]) (0 :: p)

/-- The postcondition of 42_benes.md R148 for one sequence: routing the identity forward with the control bits `bits`
yields it. -/
def encodes (c : Build) (bits : Nat → Bool) (p : List Elem) : Prop :=
  ∀ i, i < c.q → permOf c.m bits i = (p.getD i 0).toNat

end Sys2Proof.Machine
end

