-- ==== Sys2Proof/Certificates/Slice0/Obligations.lean ====
section
/-! DEFINITION. The statements for the provers. Each is a claim about the machine of Machine/Core.lean; what it
formalises of spec/ stands in its docstring and in OBLIGATIONS.json. -/

open Sys2Proof Sys2Proof.Machine

/-! ### Encoding -/

/-- Decoding an encoded well-formed command gives it back, with every operand at every value its row admits
(30_encoding.md R75, R76, R83). -/
def Obligations.DecodeOfEncodeIsTheCommand : Prop :=
  ∀ (m : Nat) (i : Instr), WellFormed m i = true → decode m (encode i) = .ok i

/-- A word that decodes is exactly the word of the command it decodes to: no stray bit is accepted
(30_encoding.md R77). -/
def Obligations.DecodedWordIsTheEncoding : Prop :=
  ∀ (m : Nat) (w : Word) (i : Instr), decode m w = .ok i → encode i = w ∧ WellFormed m i = true

/-- 30_encoding.md R76: a word decodes to a command exactly when it matches a row of the opcode map, every other word is
Illegal, no two of the nineteen rows share an `op`, and at most one row matches. -/
def Obligations.DecodeAcceptsExactlyTheTableRows : Prop :=
  ∀ (m : Nat) (w : Word),
    ((∃ i, decode m w = .ok i) ↔ ∃ r ∈ opcodeRows, r.matchesWord m w = true) ∧
      ((∃ e, decode m w = .error e) ↔ ∀ r ∈ opcodeRows, r.matchesWord m w = false) ∧
      opcodeRows.length = 19 ∧ (opcodeRows.map (fun r => fieldOp r.pattern)).Nodup ∧
      (∀ r ∈ opcodeRows, ∀ r' ∈ opcodeRows, r.matchesWord m w = true → r'.matchesWord m w = true →
        r.pattern = r'.pattern)

/-- 30_encoding.md R83: the two formats as sums of shifted fields, and the rule's worked examples. -/
def Obligations.EncodedWordsFollowTheFormats : Prop :=
  (∀ (op : BitVec 8) (a b c : BitVec 4), wordR op a b c =
      (op.setWidth 32 <<< 24) ||| (a.setWidth 32 <<< 20) ||| (b.setWidth 32 <<< 16) ||| (c.setWidth 32 <<< 12)) ∧
    (∀ (op : BitVec 8) (a b : BitVec 4) (imm : BitVec 16), wordI op a b imm =
      (op.setWidth 32 <<< 24) ||| (a.setWidth 32 <<< 20) ||| (b.setWidth 32 <<< 16) ||| imm.setWidth 32) ∧
    encode (.gfAdd 3 1 2) = 0x10312000 ∧ encode (.gfInv 2 1) = 0x12210000 ∧ encode (.gfFrac 4 2 1) = 0x13421000 ∧
    encode (.ldi 1 0x1234) = 0x01101234 ∧ encode (.lde 6 (.p 1) 0) = 0x02610000 ∧
    encode (.ste 1 .syn 1) = 0x03140001 ∧ encode (.setfull (.elem .syn)) = 0x04040000 ∧
    encode (.plEval 5 1 4) = 0x20514000 ∧ encode (.bmRun 1) = 0x21100000 ∧ encode .bnEnc = 0x30000000 ∧
    encode (.bnApply true) = 0x31000001 ∧ encode .bnSup = 0x32000000 ∧ encode .rbInit = 0x40000000 ∧
    encode (.rbUpd true) = 0x41000001 ∧ encode (.rbGen 32) = 0x42000020

/-- Words written out from the spec's encodings decode to the commands they stand for (95_test_vectors.md 2.1), at
M = 13: one word of each unit, and a word that is Illegal. -/
def Obligations.SpecWordsDecode : Prop :=
  decode 13 0x00000000 = .ok .nop ∧ decode 13 0x01101FFF = .ok (.ldi 1 0x1FFF) ∧
    decode 13 0x13421000 = .ok (.gfFrac 4 2 1) ∧ decode 13 0x20514000 = .ok (.plEval 5 1 4) ∧
    decode 13 0x31000001 = .ok (.bnApply true) ∧ decode 13 0x42000020 = .ok (.rbGen 32) ∧
    decode 13 0x01102000 = .error .ldiImmediate

/-! ### The step -/

/-- A step runs the decoded command: the port hands on the host's command word, and where it decodes, the step is the
execution of the command on the state without that transaction (10_state.md R43; how the word comes to the port is the
model's own, log 6). -/
def Obligations.StepRunsTheIssuedCommand : Prop :=
  ∀ (s : State) (w : Word) (rest : List HostTxn) (i : Instr), Presents s w rest → decode s.build.m w = .ok i →
    step s = exec i { s with port := rest }

/-- 60_exceptions.md R206: an issued word is discarded in ABORT; else the first failing check raises its fault, in the
order ILLEGAL, RANGE, NOSEED, PRECOND, with its code of R201 in CAUSE (PRECOND 1, ILLEGAL 2, RANGE 3, NOSEED 4), the word
in FCMD and nothing else changed; else the command executes and raises nothing. -/
def Obligations.IssuedWordsAreCheckedInOrder : Prop :=
  ∀ (s : State) (w : Word) (rest : List HostTxn), s.build.valid = true → s.port = commandTxn w :: rest →
    (s.status.abort = true → step s = .next { s with port := rest }) ∧
    (s.status.abort = false → ∀ c, faultOfWord s w = some c →
      ∃ x : BitVec 4, step s = .next { s with
          port := rest
          status := { busy := s.status.busy, abort := true, seeded := s.status.seeded, cause := x }
          fcmd := w } ∧
        (c = .precond → x = 1) ∧ (c = .illegal → x = 2) ∧ (c = .range → x = 3) ∧ (c = .noSeed → x = 4)) ∧
    (s.status.abort = false → faultOfWord s w = none →
      ∃ i t, decode s.build.m w = .ok i ∧ step s = exec i { s with port := rest } ∧
        exec i { s with port := rest } = .next t ∧ t.status.abort = false ∧ t.fcmd = s.fcmd)

/-- EVERY command, decoded, completes with a next state and without a fault wherever no check of 60_exceptions.md R206
fails, whatever the operands, the registers and the buffers hold (R210: no domain errors). -/
def Obligations.CommandsCompleteWhereNoCheckFails : Prop :=
  ∀ (i : Instr) (s : State), WellFormed s.build.m i = true → faultOf s i = none →
    ∃ t, exec i s = .next t ∧ t.status.abort = s.status.abort ∧ t.status.cause = s.status.cause ∧
      t.status.busy = s.status.busy ∧ t.fcmd = s.fcmd

/-- A decoded command whose checks fail takes the fault of the first one, and an issued word that is Illegal takes the
ILLEGAL fault (60_exceptions.md R202, R205, R207, R208, R209): ABORT, CAUSE and FCMD are written, CAUSE with the code of
R201 (PRECOND 1, ILLEGAL 2, RANGE 3, NOSEED 4), FCMD with the command's word, and nothing else changes (R203). -/
def Obligations.FailingChecksTakeTheFault : Prop :=
  (∀ (i : Instr) (s : State) (c : Cause), WellFormed s.build.m i = true → faultOf s i = some c →
    ∃ x : BitVec 4, exec i s = .next { s with
        status := { busy := s.status.busy, abort := true, seeded := s.status.seeded, cause := x }
        fcmd := encode i } ∧
      (c = .precond ∧ x = 1 ∨ c = .range ∧ x = 3 ∨ c = .noSeed ∧ x = 4)) ∧
  ∀ (s : State) (w : Word) (e : Illegal), s.status.abort = false → decode s.build.m w = .error e →
    s.issue w = ({ s with
      status := { busy := s.status.busy, abort := true, seeded := s.status.seeded, cause := 2 }
      fcmd := w }, none)

/-- 60_exceptions.md R204, R212: in ABORT a transaction other than HostReset changes nothing but BUFADDR, which a write to
it sets, and the host's own record, to which a read adds what it reads as outside ABORT; so ABORT, CAUSE and FCMD keep
the first fault. -/
def Obligations.AbortIsLeftOnlyByReset : Prop :=
  ∀ (s : State) (x : HostTxn) (rest : List HostTxn), s.build.valid = true → s.status.abort = true →
    s.port = x :: rest →
    (x ≠ .reset → ∃ a rs, step s = .next { s with port := rest, bufaddr := a, replies := rs } ∧
      ((∀ v, x ≠ .write 32 0x0C v) → a = s.bufaddr) ∧ (∀ v, x = .write 32 0x0C v → a = v) ∧
      ((∀ width off, x ≠ .read width off) → rs = s.replies) ∧
      ∀ width off, x = .read width off → rs = s.replyTo width off :: s.replies) ∧
    (x = .reset → ∃ t, step s = .next t ∧ t.status.abort = false)

/-- 70_reset_and_hazards.md R230, 10_state.md R45: HostReset sets every register, entry, fill count, KEY, V, STATUS, FCMD
and BUFADDR to zero, from any state, and leaves the parameters. -/
def Obligations.HostResetClearsEverything : Prop :=
  ∀ (s : State) (rest : List HostTxn), s.build.valid = true → s.port = .reset :: rest →
    ∃ t, step s = .next t ∧ (∀ r, t.getG r = 0) ∧ (∀ b k, t.readE b k = 0) ∧ (∀ b k, t.readB b k = 0) ∧
      (∀ b, t.getLen b = 0) ∧ (∀ k : Fin 32, t.key[k] = 0) ∧ (∀ k : Fin 16, t.v[k] = 0) ∧
      t.status = { busy := false, abort := false, seeded := false, cause := 0 } ∧ t.fcmd = 0 ∧ t.bufaddr = 0 ∧
      t.build = s.build ∧ t.port = rest ∧ t.replies = s.replies

/-- 10_state.md R37, R38, R39, R41: what each offset of the register map reads as, bit by bit for STATUS; every other
offset, and an access that is not of 32 bits, reads 0; a read changes nothing. -/
def Obligations.HostReadsFollowTheRegisterMap : Prop :=
  ∀ (s : State) (width off : Nat) (rest : List HostTxn), s.build.valid = true → s.port = .read width off :: rest →
    ∃ v, step s = .next { s with port := rest, replies := v :: s.replies } ∧
      (width ≠ 32 → v = 0) ∧
      (width = 32 →
        (off = 0x00 → v.getLsbD 0 = s.status.busy ∧ v.getLsbD 1 = s.status.abort ∧ v.getLsbD 2 = s.status.seeded ∧
          v.getLsbD 3 = false ∧ v.extractLsb' 4 4 = s.status.cause ∧ v.extractLsb' 8 24 = 0) ∧
        (off = 0x04 → v = s.fcmd) ∧ (off = 0x08 → v = 0) ∧ (off = 0x0C → v = s.bufaddr) ∧
        (off = 0x10 → v = s.readBufdata) ∧
        (off = 0x20 → v.toNat = s.build.m) ∧ (off = 0x24 → v.toNat = s.build.t) ∧
        (off = 0x28 → v.toNat = s.build.n) ∧ (off = 0x2C → v.toNat = s.build.poly.toNat) ∧
        (off = 0x30 → v.toNat = s.build.outMax) ∧
        (∀ b : Buf, off = 0x40 + 4 * b.number.toNat → v = s.getLen b) ∧
        (off ∉ [0x00, 0x04, 0x0C, 0x10, 0x20, 0x24, 0x28, 0x2C, 0x30] →
          (∀ b : Buf, off ≠ 0x40 + 4 * b.number.toNat) → v = 0))

/-- 10_state.md R42: BUFDATA reads the addressed entry zero-extended and writes its low bits, for an element buffer, a
byte buffer and the `G` window; where the buffer is reserved or the index is not below its capacity it reads 0 and writes
nothing. The write changes nothing else: no fill count, not BUFADDR, and no fault is raised, whatever BUFADDR names. -/
def Obligations.BufdataReachesTheAddressedEntry : Prop :=
  ∀ (s : State) (v : Word), (∀ b, (s.getE b).wf = true) → (∀ b, (s.getB b).wf = true) →
    let n := s.bufaddr.extractLsb' 28 4
    let k := (s.bufaddr.extractLsb' 0 28).toNat
    let t := s.writeBufdata v
    t.bufaddr = s.bufaddr ∧ t.len = s.len ∧ t.status = s.status ∧ t.fcmd = s.fcmd ∧ t.key = s.key ∧ t.v = s.v ∧
      t.build = s.build ∧ t.draws = s.draws ∧ t.port = s.port ∧ t.replies = s.replies ∧
      (∀ b : EBuf, n = b.number → k < capE s.build b →
        s.readBufdata = (s.readE b k).setWidth 32 ∧ t.readE b k = lowBits s.build.m (v.setWidth 16) ∧
        (∀ b' k', (b', k') ≠ (b, k) → t.readE b' k' = s.readE b' k') ∧ t.g = s.g ∧ ∀ b', t.getB b' = s.getB b') ∧
      (∀ b : BBuf, n = b.number → k < capB s.build b →
        s.readBufdata = (s.readB b k).setWidth 32 ∧ t.readB b k = v.setWidth 8 ∧
        (∀ b' k', (b', k') ≠ (b, k) → t.readB b' k' = s.readB b' k') ∧ t.g = s.g ∧ ∀ b', t.getE b' = s.getE b') ∧
      (n = 7 → k < 16 →
        s.readBufdata = (s.getG (BitVec.ofNat 4 k)).setWidth 32 ∧
        t.getG (BitVec.ofNat 4 k) = lowBits s.build.m (v.setWidth 16) ∧
        (∀ r : GReg, r.toNat ≠ k → t.getG r = s.getG r) ∧ (∀ b', t.getE b' = s.getE b') ∧
        ∀ b', t.getB b' = s.getB b') ∧
      ((∀ b : EBuf, n = b.number → capE s.build b ≤ k) → (∀ b : BBuf, n = b.number → capB s.build b ≤ k) →
        (n = 7 → 16 ≤ k) → s.readBufdata = 0 ∧ t = s)

/-- What a host write does outside ABORT (10_state.md R34, R41): BUFADDR and a fill count take the value, BUFDATA is
written through, the read-only, reserved and unmapped offsets and accesses of another width ignore it. -/
def Obligations.HostWritesFollowTheRegisterMap : Prop :=
  ∀ (s : State) (width off : Nat) (v : Word) (rest : List HostTxn), s.build.valid = true → s.status.abort = false →
    s.port = .write width off v :: rest →
    (width ≠ 32 → step s = .next { s with port := rest }) ∧
    (width = 32 →
      (off = 0x0C → step s = .next { s with port := rest, bufaddr := v }) ∧
      (off = 0x10 → step s = .next (State.writeBufdata { s with port := rest } v)) ∧
      (∀ b : Buf, off = 0x40 + 4 * b.number.toNat → step s = .next (State.setLen { s with port := rest } b v)) ∧
      (off ∉ [0x08, 0x0C, 0x10] → (∀ b : Buf, off ≠ 0x40 + 4 * b.number.toNat) →
        step s = .next { s with port := rest }))

/-- 10_state.md R35, R46: the host port has no path to KEY and V. What a transaction that issues no command returns and
leaves is the same whatever KEY and V hold, and it does not change them unless it is HostReset. -/
def Obligations.HostCannotReachTheGeneratorState : Prop :=
  ∀ (s : State) (x : HostTxn) (key : Bytes32) (v : Bytes16), (∀ w, x ≠ commandTxn w) →
    ((State.accept { s with key := key, v := v } x).1.replies = (s.accept x).1.replies) ∧
    (x = .reset ∨
      ((s.accept x).1.key = s.key ∧ (s.accept x).1.v = s.v ∧
        State.accept { s with key := key, v := v } x = ({ (s.accept x).1 with key := key, v := v }, none)))

/-! ### Data movement (44_data_movement_system.md) -/

/-- R190: NOP is the all-zero word only, and leaves the state equal. -/
def Obligations.NopLeavesTheStateEqual : Prop :=
  (∀ (m : Nat) (w : Word), decode m w = .ok .nop ↔ w = 0) ∧
    (∀ (m : Nat) (w : Word), fieldOp w = 0 → w ≠ 0 → decode m w = .error .strayBits) ∧
    ∀ s : State, exec .nop s = .next s

/-- R191: LDI loads its immediate, which decoding keeps below `2^M`; an LDI word that breaks a constraint is Illegal. -/
def Obligations.LdiLoadsTheImmediate : Prop :=
  (∀ (m : Nat) (w : Word), fieldOp w = 1 →
    (fieldB w = 0 ∧ (fieldImm w).toNat < 2 ^ m → decode m w = .ok (.ldi (fieldA w) (fieldImm w))) ∧
    (fieldB w ≠ 0 ∨ 2 ^ m ≤ (fieldImm w).toNat → ∃ e, decode m w = .error e)) ∧
    ∀ (gd : GReg) (imm : BitVec 16) (s : State), imm.toNat < 2 ^ s.build.m →
      exec (.ldi gd imm) s = .next (s.setG gd imm)

/-- R192: LDE loads the entry at its index, whatever the fill count; an index not below the capacity raises RANGE. -/
def Obligations.LdeLoadsTheEntry : Prop :=
  ∀ (gd : GReg) (b : EBuf) (idx : BitVec 16) (s : State),
    (idx.toNat < capE s.build b → exec (.lde gd b idx) s = .next (s.setG gd (s.readE b idx.toNat))) ∧
    (capE s.build b ≤ idx.toNat → exec (.lde gd b idx) s = .next (s.takeFault .range (encode (.lde gd b idx))))

/-- R193: STE stores the register at its index and changes no other entry, no register and no fill count. -/
def Obligations.SteStoresTheRegister : Prop :=
  ∀ (gs : GReg) (b : EBuf) (idx : BitVec 16) (s : State), (∀ b', (s.getE b').wf = true) →
    (idx.toNat < capE s.build b → ∃ t, exec (.ste gs b idx) s = .next t ∧ t.readE b idx.toNat = s.getG gs ∧
      (∀ b' k, (b', k) ≠ (b, idx.toNat) → t.readE b' k = s.readE b' k) ∧
      t.g = s.g ∧ t.len = s.len ∧ (∀ b', t.getB b' = s.getB b') ∧ t.key = s.key ∧ t.v = s.v ∧
      t.status = s.status ∧ t.fcmd = s.fcmd ∧ t.bufaddr = s.bufaddr) ∧
    (capE s.build b ≤ idx.toNat → exec (.ste gs b idx) s = .next (s.takeFault .range (encode (.ste gs b idx))))

/-- R194: SETFULL sets the fill count to the capacity, and nothing else; in an existing build the 32-bit register holds the
capacity exactly. -/
def Obligations.SetfullDeclaresTheCapacity : Prop :=
  ∀ (b : Buf) (s : State), s.build.valid = true →
    ∃ x : Word, exec (.setfull b) s = .next (s.setLen b x) ∧ x.toNat = cap s.build b

/-! ### Field arithmetic (40_field_arithmetic.md) -/

/-- R105: GF.ADD writes the XOR of its sources, and equal sources give 0. -/
def Obligations.GfAddWritesTheXor : Prop :=
  ∀ (gd a b : GReg) (s : State),
    exec (.gfAdd gd a b) s = .next (s.setG gd (s.getG a ^^^ s.getG b)) ∧
    (a = b → exec (.gfAdd gd a b) s = .next (s.setG gd 0))

/-- R106, R91, R93, R94: GF.MUL writes the remainder modulo POLY of the polynomial product of its sources, an `M`-bit value. -/
def Obligations.GfMulWritesTheProductModuloPoly : Prop :=
  ∀ (gd a b : GReg) (s : State), s.build.valid = true → (s.getG a).toNat < 2 ^ s.build.m →
    (s.getG b).toNat < 2 ^ s.build.m →
    ∃ x : Elem, exec (.gfMul gd a b) s = .next (s.setG gd x) ∧ x.toNat < 2 ^ s.build.m ∧
      polyOf x = (polyOf (s.getG a) * polyOf (s.getG b)) %ₘ polyOf s.build.poly

/-- R107, R99, R102: GF.INV writes the `2^M - 2`-th power of its source, which for an irreducible POLY and a non-zero
`M`-bit source is its one inverse; zero gives zero, without a fault. -/
def Obligations.GfInvWritesTheInverse : Prop :=
  ∀ (gd a : GReg) (s : State), s.build.valid = true →
    ∃ x : Elem, exec (.gfInv gd a) s = .next (s.setG gd x) ∧
      (s.getG a = 0 → x = 0) ∧
      (Irreducible (polyOf s.build.poly) → (s.getG a).toNat < 2 ^ s.build.m →
        x = power s.build (s.getG a) (2 ^ s.build.m - 2) ∧
        (s.getG a ≠ 0 → mul s.build (s.getG a) x = 1 ∧
          ∀ y : Elem, y.toNat < 2 ^ s.build.m → mul s.build (s.getG a) y = 1 → y = x))

/-- R108, R103: GF.FRAC writes numerator times inverse of the denominator, the denominator being its FIRST source: for an
irreducible POLY and a non-zero denominator the product of result and denominator is the numerator; a zero denominator
gives 0, without a fault. -/
def Obligations.GfFracDividesByTheFirstSource : Prop :=
  ∀ (gd den num : GReg) (s : State), s.build.valid = true →
    ∃ x : Elem, exec (.gfFrac gd den num) s = .next (s.setG gd x) ∧
      x = mul s.build (s.getG num) (inv s.build (s.getG den)) ∧
      (s.getG den = 0 → x = 0) ∧
      (Irreducible (polyOf s.build.poly) → (s.getG den).toNat < 2 ^ s.build.m →
        (s.getG num).toNat < 2 ^ s.build.m → s.getG den ≠ 0 → mul s.build x (s.getG den) = s.getG num)

/-- R109, R104: GF.ISZERO writes the mask `2^M - 1` for a zero source and 0 for any other, and the borrow circuit of R104 has
that value. -/
def Obligations.GfIszeroWritesTheMask : Prop :=
  ∀ (gd a : GReg) (s : State), s.build.valid = true → (s.getG a).toNat < 2 ^ s.build.m →
    ∃ x : Elem, exec (.gfIszero gd a) s = .next (s.setG gd x) ∧
      (s.getG a = 0 → x.toNat = 2 ^ s.build.m - 1) ∧ (s.getG a ≠ 0 → x = 0) ∧
      x.toNat = (if (((s.getG a).toNat + 2 ^ (s.build.m + 1) - 1) % 2 ^ (s.build.m + 1)).testBit s.build.m
        then 2 ^ s.build.m - 1 else 0)

/-- R110, R96: GF.BITREV writes the reversal of the low `M` bits, and reversing twice gives an `M`-bit source back. -/
def Obligations.GfBitrevReversesTheBits : Prop :=
  ∀ (gd a : GReg) (s : State), s.build.valid = true →
    ∃ x : Elem, exec (.gfBitrev gd a) s = .next (s.setG gd x) ∧
      (∀ i, x.getLsbD i = (decide (i < s.build.m) && (s.getG a).getLsbD (s.build.m - 1 - i))) ∧
      ((s.getG a).toNat < 2 ^ s.build.m → bitrev s.build.m x = s.getG a)

/-- 40_field_arithmetic.md R91, R92: the carry-less multiplier computes the polynomial product, of degree at most `2M-2`. -/
def Obligations.ClmulIsThePolynomialProduct : Prop :=
  ∀ (m : Nat) (x y : Elem), m ≤ 16 → x.toNat < 2 ^ m → y.toNat < 2 ^ m →
    polyOf (clmul m x y) = polyOf x * polyOf y ∧ (clmul m x y).toNat < 2 ^ (2 * m - 1)

/-- R93: the reducer returns the remainder modulo POLY, of degree below `M`. -/
def Obligations.ReduceIsTheRemainder : Prop :=
  ∀ (c : Build) (p : BitVec 32), c.valid = true → p.toNat < 2 ^ (2 * c.m - 1) →
    polyOf (reduce c.m c.poly p) = polyOf p %ₘ polyOf c.poly ∧ (reduce c.m c.poly p).toNat < 2 ^ c.m

/-- R95: `mul` distributes over `add`; for an irreducible POLY the `M`-bit vectors with `add` and `mul` form a field. -/
def Obligations.FieldLawsHold : Prop :=
  ∀ (c : Build) (x y z : Elem), c.valid = true → x.toNat < 2 ^ c.m → y.toNat < 2 ^ c.m → z.toNat < 2 ^ c.m →
    mul c x (add y z) = add (mul c x y) (mul c x z) ∧ mul c x 1 = x ∧ mul c x 0 = 0 ∧
    mul c x y = mul c y x ∧ mul c (mul c x y) z = mul c x (mul c y z) ∧
    (Irreducible (polyOf c.poly) → mul c x y = 0 → x = 0 ∨ y = 0)

/-! ### Polynomials and the decoder (41_polynomial_bm.md) -/

/-- R121, R120: PL.EVAL writes the sum over the degrees of coefficient times power of the point, read before the result is
written; a wrong fill count raises PRECOND. -/
def Obligations.PlEvalWritesTheValueAtThePoint : Prop :=
  ∀ (gd : GReg) (ps : PReg) (ga : GReg) (s : State), Inv s →
    ((s.getLen (.elem (.p ps))).toNat = s.build.t + 1 →
      exec (.plEval gd ps ga) s = .next (s.setG gd
        (xorSum (s.build.t + 1) (fun i => mul s.build (s.readE (.p ps) i) (power s.build (s.getG ga) i))))) ∧
    ((s.getLen (.elem (.p ps))).toNat ≠ s.build.t + 1 →
      exec (.plEval gd ps ga) s = .next (s.takeFault .precond (encode (.plEval gd ps ga))))

/-- R122: `eval` is linear in the polynomial, its value at 0 is the coefficient of degree 0, its value at 1 is the XOR of all
coefficients; and the rule's three worked examples. A constant polynomial has its constant everywhere (R121's corner case). -/
def Obligations.EvalIsLinear : Prop :=
  (∀ (c : Build) (f g : Nat → Elem) (a : Elem), c.valid = true → (∀ i, (f i).toNat < 2 ^ c.m) →
    (∀ i, (g i).toNat < 2 ^ c.m) → a.toNat < 2 ^ c.m →
    eval c (fun i => add (f i) (g i)) a = add (eval c f a) (eval c g a) ∧ eval c f 0 = f 0 ∧
    eval c f 1 = xorSum (c.t + 1) f ∧
    ((∀ i, 1 ≤ i → i ≤ c.t → f i = 0) → eval c f a = f 0)) ∧
  let c4 : Build := { m := 4, poly := 0x13, t := 2, n := 16, outMax := 1024, encoder := .pinned }
  let c13 : Build := { m := 13, poly := 0x201B, t := 2, n := 8192, outMax := 1024, encoder := .pinned }
  eval c4 (fun i => [1, 2, 3].getD i 0) 5 = 0xD ∧ eval c4 (fun i => [7, 0, 0].getD i 0) 9 = 7 ∧
    eval c13 (fun i => [0x0001, 0x0002, 0x0003].getD i 0) 0x1000 = 0x08EF

/-- R124, R130: BM.RUN writes the reversal of the working polynomial after `2T` steps and declares `P[pd]` full, whatever
the syndromes are, and changes nothing else; a wrong fill count raises PRECOND. -/
def Obligations.BmRunWritesTheReversedLocator : Prop :=
  ∀ (pd : PReg) (s : State), Inv s →
    ((s.getLen (.elem .syn)).toNat = 2 * s.build.t →
      ∃ t, exec (.bmRun pd) s = .next t ∧
        (∀ i, i ≤ s.build.t →
          t.readE (.p pd) i =
            (bmSteps s.build (s.readE .syn) (2 * s.build.t)).cs.getD (s.build.t - i) 0) ∧
        (t.getLen (.elem (.p pd))).toNat = s.build.t + 1 ∧
        (∀ b k, (b, k) ∉ (List.range (s.build.t + 1)).map (fun i => (EBuf.p pd, i)) → t.readE b k = s.readE b k) ∧
        (∀ b, b ≠ .elem (.p pd) → t.getLen b = s.getLen b) ∧ t.g = s.g ∧ (∀ b, t.getB b = s.getB b) ∧
        t.key = s.key ∧ t.v = s.v ∧ t.status = s.status ∧ t.fcmd = s.fcmd ∧ t.bufaddr = s.bufaddr) ∧
    ((s.getLen (.elem .syn)).toNat ≠ 2 * s.build.t →
      exec (.bmRun pd) s = .next (s.takeFault .precond (encode (.bmRun pd))))

/-- R126, R127: at every step of the decoder the length counter is at most the number of steps taken, the scale `b` is never
zero, and `C` and `B` keep their `T+1` coefficients of `M` bits. -/
def Obligations.DecoderWorkingSetStaysInRange : Prop :=
  ∀ (c : Build) (syn : Nat → Elem) (k : Nat), c.valid = true → (∀ i, (syn i).toNat < 2 ^ c.m) →
    (bmSteps c syn k).len ≤ k ∧ (bmSteps c syn k).scale ≠ 0 ∧
    (bmSteps c syn k).cs.length = c.t + 1 ∧ (bmSteps c syn k).bs.length = c.t + 1 ∧
    (∀ x ∈ (bmSteps c syn k).cs, x.toNat < 2 ^ c.m) ∧ ∀ x ∈ (bmSteps c syn k).bs, x.toNat < 2 ^ c.m

/-- R128: the output always has coefficient `T` equal to 1, and the all-zero syndrome gives the polynomial `x^T`. -/
def Obligations.LocatorIsMonic : Prop :=
  ∀ (c : Build) (syn : Nat → Elem), c.valid = true → (∀ i, (syn i).toNat < 2 ^ c.m) →
    locator c syn c.t = 1 ∧ ((∀ i, i < 2 * c.t → syn i = 0) → ∀ i, i < c.t → locator c syn i = 0)

/-- R131: from the syndromes of at most `T` distinct non-zero locators the decoder recovers `x^(T-e)` times the product of
`(x + a)` over the locators. -/
def Obligations.DecoderRecoversTheLocators : Prop :=
  ∀ (c : Build) (locators : List Elem), c.valid = true → Irreducible (polyOf c.poly) →
    (∀ a ∈ locators, a ≠ 0 ∧ a.toNat < 2 ^ c.m) → locators.Nodup → locators.length ≤ c.t →
    ∀ i, i ≤ c.t →
      locator c (syndromes c locators) i =
        if c.t - locators.length ≤ i then (rootProduct c locators).getD (i - (c.t - locators.length)) 0 else 0

/-! ### The Benes network (42_benes.md) -/

/-- R140, R141: in a round of level `l < M` every position below `2^M` belongs to exactly one switch, `swidx`, as its lower
or its upper position, according to bit `l`; and the two positions of a switch are below `2^M` and differ by `2^l`. -/
def Obligations.SwitchesPartitionThePositions : Prop :=
  ∀ (m l : Nat), l < m →
    (∀ k, k < 2 ^ (m - 1) → hiPos l k < 2 ^ m ∧ (loPos l k).testBit l = false ∧ hiPos l k = loPos l k ^^^ 2 ^ l ∧
      swidx l (loPos l k) = k ∧ swidx l (hiPos l k) = k) ∧
    ∀ x, x < 2 ^ m → swidx l x < 2 ^ (m - 1) ∧ x = if x.testBit l then hiPos l (swidx l x) else loPos l (swidx l x)

/-- R144: a switch whose control bit is 1 exchanges the contents of its two positions, one whose bit is 0 leaves them;
items of any one type. -/
def Obligations.SwitchExchangesItsPositions : Prop :=
  ∀ (α : Type) (m : Nat) (c : Nat → Bool) (a : Nat → α) (r k : Nat), 1 ≤ m → r < 2 * m - 1 → k < 2 ^ (m - 1) →
    let l := min r (2 * m - 2 - r)
    let x := c (r * 2 ^ (m - 1) + k)
    routeRound m c a r (loPos l k) = (if x then a (hiPos l k) else a (loPos l k)) ∧
    routeRound m c a r (hiPos l k) = (if x then a (loPos l k) else a (hiPos l k))

/-- R145: for every sequence of items of any one type, forward routing brings to position `i` the item from position
`pi_c[i]`, reverse routing brings to position `pi_c[i]` the item from position `i`, `pi_c` permutes the positions, and
routing back and forth in either order is the identity. -/
def Obligations.RoutingIsThePermutationOfItsBits : Prop :=
  ∀ (α : Type) (m : Nat) (c : Nat → Bool) (a : Nat → α), 1 ≤ m →
    (∀ i, route m c false a i = a (permOf m c i)) ∧ (∀ i, route m c true a (permOf m c i) = a i) ∧
    (∀ i, route m c true (route m c false a) i = a i) ∧
    (∀ i, route m c false (route m c true a) i = a i) ∧ (∀ i, i < 2 ^ m → permOf m c i < 2 ^ m) ∧
    ∀ i j, permOf m c i = permOf m c j → i = j

/-- R147: BN.APPLY routes every plane with the control bits of CB, in the direction of its flag; the pad bits of PL and
everything else stay; a wrong fill count raises PRECOND. -/
def Obligations.BnApplyRoutesThePlanes : Prop :=
  ∀ (rev : Bool) (s : State), Inv s →
    ((s.getLen (.byte .cb)).toNat = s.build.cbytes → (s.getLen (.byte .pl)).toNat = s.build.plTotal →
      ∃ t, exec (.bnApply rev) s = .next t ∧
        (∀ j i, j < s.build.m → i < s.build.q → t.plane j i = route s.build.m s.ctrl rev (s.plane j) i) ∧
        (∀ j i, j < s.build.m → s.build.q ≤ i → i < 8 * s.build.plBytes → t.plane j i = s.plane j i) ∧
        (∀ b k, b ≠ .pl ∨ s.build.plTotal ≤ k → t.readB b k = s.readB b k) ∧ (∀ b, t.getE b = s.getE b) ∧
        t.g = s.g ∧ t.len = s.len ∧ t.key = s.key ∧ t.v = s.v ∧ t.status = s.status ∧ t.fcmd = s.fcmd ∧
        t.bufaddr = s.bufaddr) ∧
    ((s.getLen (.byte .cb)).toNat ≠ s.build.cbytes ∨ (s.getLen (.byte .pl)).toNat ≠ s.build.plTotal →
      exec (.bnApply rev) s = .next (s.takeFault .precond (encode (.bnApply rev))))

/-- R147, R145: BN.APPLY in one direction followed by BN.APPLY in the other restores the whole state. -/
def Obligations.BnApplyRoundTripRestoresTheState : Prop :=
  ∀ (rev : Bool) (s : State), Inv s → (s.getLen (.byte .cb)).toNat = s.build.cbytes →
    (s.getLen (.byte .pl)).toNat = s.build.plTotal →
    ∃ t, exec (.bnApply rev) s = .next t ∧ exec (.bnApply (!rev)) t = .next s

/-- R153, R154: BN.SUP writes `bitrev(pi_c[i])` to `SUP[i]`, the entries pairwise distinct, declares PL and SUP full, and
leaves the routed bit-reversed index planes in PL with pad bits 0; a wrong fill count raises PRECOND. -/
def Obligations.BnSupWritesTheSupport : Prop :=
  ∀ (s : State), Inv s →
    ((s.getLen (.byte .cb)).toNat = s.build.cbytes →
      ∃ t, exec .bnSup s = .next t ∧
        (∀ i, i < s.build.n →
          t.readE .sup i = bitrev s.build.m (BitVec.ofNat 16 (permOf s.build.m s.ctrl i))) ∧
        (∀ i j, i < s.build.n → j < s.build.n → t.readE .sup i = t.readE .sup j → i = j) ∧
        (∀ j i, j < s.build.m → i < 8 * s.build.plBytes →
          t.plane j i = (decide (i < s.build.q) &&
            (bitrev s.build.m (BitVec.ofNat 16 (permOf s.build.m s.ctrl i))).getLsbD j)) ∧
        (t.getLen (.byte .pl)).toNat = s.build.plTotal ∧ (t.getLen (.elem .sup)).toNat = s.build.n ∧
        (∀ b, b ≠ .byte .pl → b ≠ .elem .sup → t.getLen b = s.getLen b) ∧
        (∀ b, b ≠ .sup → t.getE b = s.getE b) ∧ (∀ b, b ≠ .pl → t.getB b = s.getB b) ∧ t.g = s.g ∧
        t.key = s.key ∧ t.v = s.v ∧ t.status = s.status ∧ t.fcmd = s.fcmd ∧ t.bufaddr = s.bufaddr) ∧
    ((s.getLen (.byte .cb)).toNat ≠ s.build.cbytes →
      exec .bnSup s = .next (s.takeFault .precond (encode .bnSup)))

/-- R149, R150, R152: with a filled PERM BN.ENC raises no fault, declares CB full, writes its pad bits as 0 and changes no
other buffer, register or fill count; its control bits are `ENC` of the permutation where PERM holds a bijection, whichever
`ENC` the build has; on any other content nothing is said of them. -/
def Obligations.BnEncWritesTheControlBits : Prop :=
  ∀ (s : State), Inv s →
    ((s.getLen (.elem .perm)).toNat = s.build.q →
      ∃ t, exec .bnEnc s = .next t ∧
        ((∀ i j, i < s.build.q → j < s.build.q → s.readE .perm i = s.readE .perm j → i = j) →
          ∀ k, k < s.build.cbits → t.ctrl k = enc s.build s.permList k) ∧
        (∀ k, s.build.cbits ≤ k → k < 8 * s.build.cbytes → t.ctrl k = false) ∧
        (t.getLen (.byte .cb)).toNat = s.build.cbytes ∧ (∀ b, b ≠ .byte .cb → t.getLen b = s.getLen b) ∧
        (∀ b, b ≠ .cb → t.getB b = s.getB b) ∧ (∀ b, t.getE b = s.getE b) ∧ t.g = s.g ∧ t.key = s.key ∧
        t.v = s.v ∧ t.status = s.status ∧ t.fcmd = s.fcmd ∧ t.bufaddr = s.bufaddr) ∧
    ((s.getLen (.elem .perm)).toNat ≠ s.build.q →
      exec .bnEnc s = .next (s.takeFault .precond (encode .bnEnc)))

/-- R148, R151: for every field degree and every bijection the pinned encoder's control bits encode it. -/
def Obligations.PinnedEncoderEncodesEveryBijection : Prop :=
  ∀ (c : Build) (p : List Elem), c.valid = true → p.length = c.q → isBijection c p = true →
    encodes c (pinnedEnc c.m p) p

/-- R155: with any encoder that meets its postcondition on the bijection PERM holds, BN.ENC then BN.SUP gives
`SUP[i] = bitrev(PERM[i])`. -/
def Obligations.EncodeThenSupportReproducesThePermutation : Prop :=
  ∀ (s : State), Inv s → (s.getLen (.elem .perm)).toNat = s.build.q →
    (∀ i j, i < s.build.q → j < s.build.q → s.readE .perm i = s.readE .perm j → i = j) →
    encodes s.build (enc s.build s.permList) s.permList →
    ∃ t u, exec .bnEnc s = .next t ∧ exec .bnSup t = .next u ∧
      ∀ i, i < s.build.n → u.readE .sup i = bitrev s.build.m (s.readE .perm i)

/-! ### The bit generator (43_drbg.md) -/

/-- R171, 20_memory.md R53: the counter increment adds 1 to the big-endian value modulo `2^128`. -/
def Obligations.IncrAddsOneBigEndian : Prop :=
  ∀ v : Bytes16, be128 (incr v) = (be128 v + 1) % 2 ^ 128

/-- R173: RB.INIT replaces KEY and V by the update of the zero state with the entropy, whatever they held, sets SEEDED and
changes nothing else; a wrong fill count raises PRECOND. -/
def Obligations.RbInitSeedsTheGenerator : Prop :=
  ∀ (s : State),
    ((s.getLen (.byte .ent)).toNat = 48 →
      ∃ key v, exec .rbInit s = .next { s with key := key, v := v, status := { s.status with seeded := true } } ∧
        (∀ (i : Fin 16), key[i.val] = (Config.cipher (Vector.replicate 32 0) (bytesOf128 1))[i] ^^^ s.readB .ent i) ∧
        (∀ (i : Fin 16), key[16 + i.val] =
          (Config.cipher (Vector.replicate 32 0) (bytesOf128 2))[i] ^^^ s.readB .ent (16 + i)) ∧
        (∀ (i : Fin 16), v[i] = (Config.cipher (Vector.replicate 32 0) (bytesOf128 3))[i] ^^^ s.readB .ent (32 + i))) ∧
    ((s.getLen (.byte .ent)).toNat ≠ 48 → exec .rbInit s = .next (s.takeFault .precond (encode .rbInit)))

/-- R174, R172: RB.UPD replaces KEY and V by the three blocks on the next counter values under the OLD key, XOR the entropy
where `pd` is set; NOSEED comes before PRECOND; without `pd` ENT is not looked at. -/
def Obligations.RbUpdAdvancesTheGenerator : Prop :=
  ∀ (pd : Bool) (s : State),
    (s.status.seeded = true → (pd = true → (s.getLen (.byte .ent)).toNat = 48) →
      ∃ key v, exec (.rbUpd pd) s = .next { s with key := key, v := v } ∧
        (∀ (i : Fin 16), key[i.val] =
          (Config.cipher s.key (incrBy 1 s.v))[i] ^^^ (if pd then s.readB .ent i else 0)) ∧
        (∀ (i : Fin 16), key[16 + i.val] =
          (Config.cipher s.key (incrBy 2 s.v))[i] ^^^ (if pd then s.readB .ent (16 + i) else 0)) ∧
        (∀ (i : Fin 16), v[i] =
          (Config.cipher s.key (incrBy 3 s.v))[i] ^^^ (if pd then s.readB .ent (32 + i) else 0))) ∧
    (s.status.seeded = false → exec (.rbUpd pd) s = .next (s.takeFault .noSeed (encode (.rbUpd pd)))) ∧
    (s.status.seeded = true → pd = true → (s.getLen (.byte .ent)).toNat ≠ 48 →
      exec (.rbUpd pd) s = .next (s.takeFault .precond (encode (.rbUpd pd))))

/-- R174: RB.UPD pd with all-zero entropy is RB.UPD nopd. -/
def Obligations.ZeroProvidedDataIsNoProvidedData : Prop :=
  ∀ (s : State), (s.getLen (.byte .ent)).toNat = 48 → s.status.seeded = true → (∀ i, i < 48 → s.readB .ent i = 0) →
    ∃ t, exec (.rbUpd true) s = .next t ∧ exec (.rbUpd false) s = .next t

/-- R175: RB.GEN writes byte `i` of the output blocks to `OUT[i]` for `i < n`, keeps every later byte, sets LEN[OUT], and
ends with an update from the counter after the last block; RANGE comes before NOSEED. -/
def Obligations.RbGenWritesTheBlocks : Prop :=
  ∀ (n : BitVec 16) (s : State), Inv s →
    (n.toNat ≤ s.build.outMax → s.status.seeded = true →
      ∃ t, exec (.rbGen n) s = .next t ∧
        (∀ i, i < n.toNat → t.readB .out i =
          (Config.cipher s.key (incrBy (i / 16 + 1) s.v)).toList.getD (i % 16) 0) ∧
        (∀ i, n.toNat ≤ i → t.readB .out i = s.readB .out i) ∧
        (t.getLen (.byte .out)).toNat = n.toNat ∧ (∀ b, b ≠ .byte .out → t.getLen b = s.getLen b) ∧
        (∀ (i : Fin 16), t.key[i.val] = (Config.cipher s.key (incrBy ((n.toNat + 15) / 16 + 1) s.v))[i]) ∧
        (∀ (i : Fin 16), t.key[16 + i.val] = (Config.cipher s.key (incrBy ((n.toNat + 15) / 16 + 2) s.v))[i]) ∧
        (∀ (i : Fin 16), t.v[i] = (Config.cipher s.key (incrBy ((n.toNat + 15) / 16 + 3) s.v))[i]) ∧
        (∀ b, b ≠ .out → t.getB b = s.getB b) ∧ (∀ b, t.getE b = s.getE b) ∧ t.g = s.g ∧
        t.status = s.status ∧ t.fcmd = s.fcmd ∧ t.bufaddr = s.bufaddr) ∧
    (s.build.outMax < n.toNat → exec (.rbGen n) s = .next (s.takeFault .range (encode (.rbGen n)))) ∧
    (n.toNat ≤ s.build.outMax → s.status.seeded = false →
      exec (.rbGen n) s = .next (s.takeFault .noSeed (encode (.rbGen n))))

/-- R178: what a generator command leaves in KEY, V, SEEDED, OUT and LEN[OUT] depends on nothing but the generator's state
and the entropy: on two states that agree there it completes alike and leaves states that agree there again. -/
def Obligations.GeneratorOutputIsDetermined : Prop :=
  ∀ (i : Instr) (s s' t t' : State), usesGenerator i = true → sameGenerator s s' → exec i s = .next t →
    exec i s' = .next t' → sameGenerator t t'

/-! ### The whole machine -/

/-- The frame of every command (10_state.md R26, R34, R35; 20_memory.md R59, R61): what it may write is a function of the
command and the build; every other register, entry, fill count, KEY, V, BUFADDR, the build and the host's record stay as
they were. -/
def Obligations.CommandsChangeOnlyTheirDestinations : Prop :=
  ∀ (i : Instr) (s t : State), (∀ b, (s.getE b).wf = true) → (∀ b, (s.getB b).wf = true) → exec i s = .next t →
    (∀ r, destG i ≠ some r → t.getG r = s.getG r) ∧
    (∀ b k, storesE s.build i b k = false → t.readE b k = s.readE b k) ∧
    (∀ b k, storesB s.build i b k = false → t.readB b k = s.readB b k) ∧
    (∀ b, setsLen i b = false → t.getLen b = s.getLen b) ∧
    (usesGenerator i = false → t.key = s.key ∧ t.v = s.v) ∧
    (i ≠ .rbInit → t.status.seeded = s.status.seeded) ∧
    t.bufaddr = s.bufaddr ∧ t.build = s.build ∧ t.port = s.port ∧ t.replies = s.replies

/-- 70_reset_and_hazards.md R237: whether a command faults, and how, is the same in any two states that agree on the build,
the fill counts and STATUS, whatever the registers, buffers, KEY and V hold. -/
def Obligations.FaultChecksAreNotSecretDependent : Prop :=
  ∀ (i : Instr) (s s' t t' : State), samePublic s s' → exec i s = .next t → exec i s' = .next t' →
    t.status.abort = t'.status.abort ∧ t.status.cause = t'.status.cause ∧ t.status.seeded = t'.status.seeded ∧
      t.len = t'.len

/-- The reset state meets the invariant (10_state.md R45), in every build the spec admits. -/
def Obligations.ResetStateMeetsTheInvariant : Prop :=
  (∀ c : Build, c.valid = true → Inv (State.resetOf c)) ∧ Inv State.reset

/-- Every step keeps the invariant: buffers stay canonical, within their capacity and `M` bits wide, STATUS stays legal, an
unseeded generator keeps its reset state. -/
def Obligations.StepKeepsTheInvariant : Prop :=
  ∀ s t : State, Inv s → step s = .next t → Inv t

/-- From a state that meets the invariant no step stops: the spec gives every transaction and every command word a next
state (60_exceptions.md R200, R210; 30_encoding.md R76). -/
def Obligations.NoStepStops : Prop :=
  ∀ s : State, Inv s → ∃ t, step s = .next t ∧ t.build = s.build

/-- 10_state.md R37, 43_drbg.md R170: a step sets SEEDED only by executing RB.INIT (presented outside ABORT, with its fill
count right), and clears it only by HostReset. -/
def Obligations.SeededChangesOnlyByInitAndReset : Prop :=
  ∀ (s t : State), step s = .next t →
    (s.status.seeded = false → t.status.seeded = true →
      ∃ rest, s.port = commandTxn (encode .rbInit) :: rest ∧ s.status.abort = false ∧
        (s.getLen (.byte .ent)).toNat = 48 ∧ step s = exec .rbInit { s with port := rest }) ∧
    (s.status.seeded = true → t.status.seeded = false → ∃ rest, s.port = .reset :: rest)
end

