-- ==== Sys2Proof/Laws/Bits.lean ====
section
/-! SUPPORT. The bits of the helpers of Machine/Ops.lean, Operands.lean and Flags.lean. -/

namespace Sys2Proof.Machine

theorem vecOfBits_succ (w n : Nat) (f : Nat → Bool) :
    vecOfBits w (n + 1) f = if f n then vecOfBits w n f ||| (1#w <<< n) else vecOfBits w n f := by
  simp [vecOfBits, List.range_succ]

/-- Bit `i` of `vecOfBits w n f` is `f i`, for the bits it has. -/
theorem getLsbD_vecOfBits (w n : Nat) (f : Nat → Bool) (i : Nat) :
    (vecOfBits w n f).getLsbD i = (decide (i < n) && decide (i < w) && f i) := by
  induction n with
  | zero => simp [vecOfBits]
  | succ n ih =>
    have hone : (1#w <<< n).getLsbD i = (decide (i < w) && decide (i = n)) := by
      rw [BitVec.getLsbD_shiftLeft, BitVec.getLsbD_one]
      by_cases hw : i < w
      · by_cases hi : i = n
        · subst hi; simp; omega
        · by_cases hlt : i < n
          · simp [hlt, hi]
          · have : i - n ≠ 0 := by omega
            simp [hi, this]
      · simp [hw]
    rw [vecOfBits_succ]
    by_cases hf : f n = true
    · rw [if_pos hf, BitVec.getLsbD_or, ih, hone]
      by_cases hin : i = n
      · subst hin; simp [hf]
      · have : (i < n + 1) ↔ i < n := by omega
        simp [hin, this]
    · rw [if_neg hf, ih]
      by_cases hin : i = n
      · subst hin; simp [hf]
      · have : (i < n + 1) ↔ i < n := by omega
        simp [this]

@[simp] theorem getLsbD_byteOfBits (f : Nat → Bool) (i : Nat) :
    (byteOfBits f).getLsbD i = (decide (i < 8) && f i) := by
  rw [byteOfBits, getLsbD_vecOfBits]; by_cases h : i < 8 <;> simp [h]

/-- Bit `i` of `ones_M` (00_scope.md R17). -/
theorem getLsbD_ones (m i : Nat) : (ones m).getLsbD i = (decide (i < m) && decide (i < 16)) := by
  rw [ones, BitVec.getLsbD_ofNat, Nat.testBit_two_pow_sub_one, Bool.and_comm]

theorem lowBits_eq (m : Nat) (x : Elem) : lowBits m x = x &&& ones m := rfl

/-- Bit `i` of `v[M-1:0]`. -/
theorem getLsbD_lowBits (m : Nat) (x : Elem) (i : Nat) :
    (lowBits m x).getLsbD i = (x.getLsbD i && decide (i < m)) := by
  rw [lowBits_eq, BitVec.getLsbD_and, getLsbD_ones]
  by_cases h : i < 16
  · simp [h]
  · simp [BitVec.getLsbD_of_ge x i (by omega)]

/-- A value whose bits from `M` on are 0 is below `2^M`, and the other way round. -/
theorem lt_two_pow_iff_bits {w : Nat} (x : BitVec w) (m : Nat) :
    x.toNat < 2 ^ m ↔ ∀ i, m ≤ i → x.getLsbD i = false := by
  constructor
  · intro h i hi
    exact Nat.testBit_lt_two_pow (lt_of_lt_of_le h (Nat.pow_le_pow_right (by norm_num) hi))
  · intro h
    exact Nat.lt_pow_two_of_testBit _ (fun i hi => h i hi)

/-- `v[M-1:0]` is an `M`-bit value. -/
theorem lowBits_lt (m : Nat) (x : Elem) : (lowBits m x).toNat < 2 ^ m := by
  rw [lt_two_pow_iff_bits]
  intro i hi
  rw [getLsbD_lowBits]
  simp [Nat.not_lt.mpr hi]

/-- An `M`-bit value is its own low `M` bits. -/
theorem lowBits_of_lt {m : Nat} {x : Elem} (h : x.toNat < 2 ^ m) : lowBits m x = x := by
  rw [lt_two_pow_iff_bits] at h
  apply BitVec.eq_of_getLsbD_eq
  intro i _
  rw [getLsbD_lowBits]
  by_cases hi : i < m
  · simp [hi]
  · simp [h i (by omega)]

theorem vecOfBits_lt (w n : Nat) (f : Nat → Bool) : (vecOfBits w n f).toNat < 2 ^ n := by
  rw [lt_two_pow_iff_bits]
  intro i hi
  rw [getLsbD_vecOfBits]
  simp [Nat.not_lt.mpr hi]

/-- A blend under the mask of a condition selects (00_scope.md R17), for `M`-bit operands. -/
theorem blend_mask {m : Nat} {a b : Elem} (ha : a.toNat < 2 ^ m) (hb : b.toNat < 2 ^ m) (p : Bool) :
    blend (mask m p) a b = if p then a else b := by
  rw [lt_two_pow_iff_bits] at ha hb
  apply BitVec.eq_of_getLsbD_eq
  intro i hi
  cases p
  · simp only [blend, mask, Bool.false_eq_true, if_false, BitVec.getLsbD_or, BitVec.getLsbD_and, BitVec.getLsbD_not]
    simp [hi]
  · simp only [blend, mask, if_true, BitVec.getLsbD_or, BitVec.getLsbD_and, BitVec.getLsbD_not, getLsbD_ones]
    by_cases h : i < m
    · simp [h, hi]
    · simp [h, ha i (by omega), hb i (by omega)]

/-- The mask of a false condition is 0, of a true one `ones_M`. -/
@[simp] theorem mask_false (m : Nat) : mask m false = 0 := rfl
@[simp] theorem mask_true (m : Nat) : mask m true = ones m := rfl

theorem ones_toNat {m : Nat} (h : m ≤ 16) : (ones m).toNat = 2 ^ m - 1 := by
  rw [ones, BitVec.toNat_ofNat]
  apply Nat.mod_eq_of_lt
  have := Nat.pow_le_pow_right (n := 2) (by norm_num) h
  omega

/-- `ones_M` is not 0 for a field degree above 0. -/
theorem ones_ne_zero {m : Nat} (h1 : 1 ≤ m) (h : m ≤ 16) : ones m ≠ 0 := by
  intro h0
  have := congrArg BitVec.toNat h0
  rw [ones_toNat h] at this
  have : 2 ^ 1 ≤ 2 ^ m := Nat.pow_le_pow_right (by norm_num) h1
  simp at *
  omega

end Sys2Proof.Machine
end

