-- ==== Sys2Proof/Laws/State.lean ====
section
/-! SUPPORT. One lemma per field and named update of `State` (Machine/Ops.lean), so that no proof unfolds a record
update; and what the read operations see after each update. -/

namespace Sys2Proof.Machine


/-! ### `G[r] <- x` -/

@[simp] theorem setG_build (s : State) (r : GReg) (x : Elem) : (s.setG r x).build = s.build := rfl
@[simp] theorem setG_p (s : State) (r : GReg) (x : Elem) : (s.setG r x).p = s.p := rfl
@[simp] theorem setG_syn (s : State) (r : GReg) (x : Elem) : (s.setG r x).syn = s.syn := rfl
@[simp] theorem setG_perm (s : State) (r : GReg) (x : Elem) : (s.setG r x).perm = s.perm := rfl
@[simp] theorem setG_sup (s : State) (r : GReg) (x : Elem) : (s.setG r x).sup = s.sup := rfl
@[simp] theorem setG_cb (s : State) (r : GReg) (x : Elem) : (s.setG r x).cb = s.cb := rfl
@[simp] theorem setG_pl (s : State) (r : GReg) (x : Elem) : (s.setG r x).pl = s.pl := rfl
@[simp] theorem setG_ent (s : State) (r : GReg) (x : Elem) : (s.setG r x).ent = s.ent := rfl
@[simp] theorem setG_out (s : State) (r : GReg) (x : Elem) : (s.setG r x).out = s.out := rfl
@[simp] theorem setG_len (s : State) (r : GReg) (x : Elem) : (s.setG r x).len = s.len := rfl
@[simp] theorem setG_key (s : State) (r : GReg) (x : Elem) : (s.setG r x).key = s.key := rfl
@[simp] theorem setG_v (s : State) (r : GReg) (x : Elem) : (s.setG r x).v = s.v := rfl
@[simp] theorem setG_status (s : State) (r : GReg) (x : Elem) : (s.setG r x).status = s.status := rfl
@[simp] theorem setG_fcmd (s : State) (r : GReg) (x : Elem) : (s.setG r x).fcmd = s.fcmd := rfl
@[simp] theorem setG_bufaddr (s : State) (r : GReg) (x : Elem) : (s.setG r x).bufaddr = s.bufaddr := rfl
@[simp] theorem setG_draws (s : State) (r : GReg) (x : Elem) : (s.setG r x).draws = s.draws := rfl
@[simp] theorem setG_port (s : State) (r : GReg) (x : Elem) : (s.setG r x).port = s.port := rfl
@[simp] theorem setG_replies (s : State) (r : GReg) (x : Elem) : (s.setG r x).replies = s.replies := rfl

/-! ### An element buffer is replaced -/

@[simp] theorem setE_build (s : State) (b : EBuf) (mem : Memory 16) :
    (s.setE b mem).build = s.build := by cases b <;> rfl
@[simp] theorem setE_g (s : State) (b : EBuf) (mem : Memory 16) : (s.setE b mem).g = s.g := by cases b <;> rfl
@[simp] theorem setE_cb (s : State) (b : EBuf) (mem : Memory 16) : (s.setE b mem).cb = s.cb := by cases b <;> rfl
@[simp] theorem setE_pl (s : State) (b : EBuf) (mem : Memory 16) : (s.setE b mem).pl = s.pl := by cases b <;> rfl
@[simp] theorem setE_ent (s : State) (b : EBuf) (mem : Memory 16) : (s.setE b mem).ent = s.ent := by cases b <;> rfl
@[simp] theorem setE_out (s : State) (b : EBuf) (mem : Memory 16) : (s.setE b mem).out = s.out := by cases b <;> rfl
@[simp] theorem setE_len (s : State) (b : EBuf) (mem : Memory 16) : (s.setE b mem).len = s.len := by cases b <;> rfl
@[simp] theorem setE_key (s : State) (b : EBuf) (mem : Memory 16) : (s.setE b mem).key = s.key := by cases b <;> rfl
@[simp] theorem setE_v (s : State) (b : EBuf) (mem : Memory 16) : (s.setE b mem).v = s.v := by cases b <;> rfl
@[simp] theorem setE_status (s : State) (b : EBuf) (mem : Memory 16) :
    (s.setE b mem).status = s.status := by cases b <;> rfl
@[simp] theorem setE_fcmd (s : State) (b : EBuf) (mem : Memory 16) :
    (s.setE b mem).fcmd = s.fcmd := by cases b <;> rfl
@[simp] theorem setE_bufaddr (s : State) (b : EBuf) (mem : Memory 16) :
    (s.setE b mem).bufaddr = s.bufaddr := by cases b <;> rfl
@[simp] theorem setE_draws (s : State) (b : EBuf) (mem : Memory 16) :
    (s.setE b mem).draws = s.draws := by cases b <;> rfl
@[simp] theorem setE_port (s : State) (b : EBuf) (mem : Memory 16) :
    (s.setE b mem).port = s.port := by cases b <;> rfl
@[simp] theorem setE_replies (s : State) (b : EBuf) (mem : Memory 16) :
    (s.setE b mem).replies = s.replies := by cases b <;> rfl

/-! ### A byte buffer is replaced -/

@[simp] theorem setB_build (s : State) (b : BBuf) (mem : Memory 8) :
    (s.setB b mem).build = s.build := by cases b <;> rfl
@[simp] theorem setB_g (s : State) (b : BBuf) (mem : Memory 8) : (s.setB b mem).g = s.g := by cases b <;> rfl
@[simp] theorem setB_p (s : State) (b : BBuf) (mem : Memory 8) : (s.setB b mem).p = s.p := by cases b <;> rfl
@[simp] theorem setB_syn (s : State) (b : BBuf) (mem : Memory 8) : (s.setB b mem).syn = s.syn := by cases b <;> rfl
@[simp] theorem setB_perm (s : State) (b : BBuf) (mem : Memory 8) : (s.setB b mem).perm = s.perm := by cases b <;> rfl
@[simp] theorem setB_sup (s : State) (b : BBuf) (mem : Memory 8) : (s.setB b mem).sup = s.sup := by cases b <;> rfl
@[simp] theorem setB_len (s : State) (b : BBuf) (mem : Memory 8) : (s.setB b mem).len = s.len := by cases b <;> rfl
@[simp] theorem setB_key (s : State) (b : BBuf) (mem : Memory 8) : (s.setB b mem).key = s.key := by cases b <;> rfl
@[simp] theorem setB_v (s : State) (b : BBuf) (mem : Memory 8) : (s.setB b mem).v = s.v := by cases b <;> rfl
@[simp] theorem setB_status (s : State) (b : BBuf) (mem : Memory 8) :
    (s.setB b mem).status = s.status := by cases b <;> rfl
@[simp] theorem setB_fcmd (s : State) (b : BBuf) (mem : Memory 8) : (s.setB b mem).fcmd = s.fcmd := by cases b <;> rfl
@[simp] theorem setB_bufaddr (s : State) (b : BBuf) (mem : Memory 8) :
    (s.setB b mem).bufaddr = s.bufaddr := by cases b <;> rfl
@[simp] theorem setB_draws (s : State) (b : BBuf) (mem : Memory 8) :
    (s.setB b mem).draws = s.draws := by cases b <;> rfl
@[simp] theorem setB_port (s : State) (b : BBuf) (mem : Memory 8) : (s.setB b mem).port = s.port := by cases b <;> rfl
@[simp] theorem setB_replies (s : State) (b : BBuf) (mem : Memory 8) :
    (s.setB b mem).replies = s.replies := by cases b <;> rfl

/-! ### `LEN[b] <- x` -/

@[simp] theorem setLen_build (s : State) (b : Buf) (x : Word) : (s.setLen b x).build = s.build := rfl
@[simp] theorem setLen_g (s : State) (b : Buf) (x : Word) : (s.setLen b x).g = s.g := rfl
@[simp] theorem setLen_p (s : State) (b : Buf) (x : Word) : (s.setLen b x).p = s.p := rfl
@[simp] theorem setLen_syn (s : State) (b : Buf) (x : Word) : (s.setLen b x).syn = s.syn := rfl
@[simp] theorem setLen_perm (s : State) (b : Buf) (x : Word) : (s.setLen b x).perm = s.perm := rfl
@[simp] theorem setLen_sup (s : State) (b : Buf) (x : Word) : (s.setLen b x).sup = s.sup := rfl
@[simp] theorem setLen_cb (s : State) (b : Buf) (x : Word) : (s.setLen b x).cb = s.cb := rfl
@[simp] theorem setLen_pl (s : State) (b : Buf) (x : Word) : (s.setLen b x).pl = s.pl := rfl
@[simp] theorem setLen_ent (s : State) (b : Buf) (x : Word) : (s.setLen b x).ent = s.ent := rfl
@[simp] theorem setLen_out (s : State) (b : Buf) (x : Word) : (s.setLen b x).out = s.out := rfl
@[simp] theorem setLen_key (s : State) (b : Buf) (x : Word) : (s.setLen b x).key = s.key := rfl
@[simp] theorem setLen_v (s : State) (b : Buf) (x : Word) : (s.setLen b x).v = s.v := rfl
@[simp] theorem setLen_status (s : State) (b : Buf) (x : Word) : (s.setLen b x).status = s.status := rfl
@[simp] theorem setLen_fcmd (s : State) (b : Buf) (x : Word) : (s.setLen b x).fcmd = s.fcmd := rfl
@[simp] theorem setLen_bufaddr (s : State) (b : Buf) (x : Word) : (s.setLen b x).bufaddr = s.bufaddr := rfl
@[simp] theorem setLen_draws (s : State) (b : Buf) (x : Word) : (s.setLen b x).draws = s.draws := rfl
@[simp] theorem setLen_port (s : State) (b : Buf) (x : Word) : (s.setLen b x).port = s.port := rfl
@[simp] theorem setLen_replies (s : State) (b : Buf) (x : Word) : (s.setLen b x).replies = s.replies := rfl

/-! ### An entry of an element buffer is written -/

@[simp] theorem writeE_build (s : State) (b : EBuf) (i : Nat) (x : Elem) :
    (s.writeE b i x).build = s.build := setE_build _ _ _
@[simp] theorem writeE_g (s : State) (b : EBuf) (i : Nat) (x : Elem) : (s.writeE b i x).g = s.g := setE_g _ _ _
@[simp] theorem writeE_cb (s : State) (b : EBuf) (i : Nat) (x : Elem) : (s.writeE b i x).cb = s.cb := setE_cb _ _ _
@[simp] theorem writeE_pl (s : State) (b : EBuf) (i : Nat) (x : Elem) : (s.writeE b i x).pl = s.pl := setE_pl _ _ _
@[simp] theorem writeE_ent (s : State) (b : EBuf) (i : Nat) (x : Elem) :
    (s.writeE b i x).ent = s.ent := setE_ent _ _ _
@[simp] theorem writeE_out (s : State) (b : EBuf) (i : Nat) (x : Elem) :
    (s.writeE b i x).out = s.out := setE_out _ _ _
@[simp] theorem writeE_len (s : State) (b : EBuf) (i : Nat) (x : Elem) :
    (s.writeE b i x).len = s.len := setE_len _ _ _
@[simp] theorem writeE_key (s : State) (b : EBuf) (i : Nat) (x : Elem) :
    (s.writeE b i x).key = s.key := setE_key _ _ _
@[simp] theorem writeE_v (s : State) (b : EBuf) (i : Nat) (x : Elem) : (s.writeE b i x).v = s.v := setE_v _ _ _
@[simp] theorem writeE_status (s : State) (b : EBuf) (i : Nat) (x : Elem) :
    (s.writeE b i x).status = s.status := setE_status _ _ _
@[simp] theorem writeE_fcmd (s : State) (b : EBuf) (i : Nat) (x : Elem) :
    (s.writeE b i x).fcmd = s.fcmd := setE_fcmd _ _ _
@[simp] theorem writeE_bufaddr (s : State) (b : EBuf) (i : Nat) (x : Elem) :
    (s.writeE b i x).bufaddr = s.bufaddr := setE_bufaddr _ _ _
@[simp] theorem writeE_draws (s : State) (b : EBuf) (i : Nat) (x : Elem) :
    (s.writeE b i x).draws = s.draws := setE_draws _ _ _
@[simp] theorem writeE_port (s : State) (b : EBuf) (i : Nat) (x : Elem) :
    (s.writeE b i x).port = s.port := setE_port _ _ _
@[simp] theorem writeE_replies (s : State) (b : EBuf) (i : Nat) (x : Elem) :
    (s.writeE b i x).replies = s.replies := setE_replies _ _ _

/-! ### An entry of a byte buffer is written -/

@[simp] theorem writeB_build (s : State) (b : BBuf) (i : Nat) (x : Byte) :
    (s.writeB b i x).build = s.build := setB_build _ _ _
@[simp] theorem writeB_g (s : State) (b : BBuf) (i : Nat) (x : Byte) : (s.writeB b i x).g = s.g := setB_g _ _ _
@[simp] theorem writeB_p (s : State) (b : BBuf) (i : Nat) (x : Byte) : (s.writeB b i x).p = s.p := setB_p _ _ _
@[simp] theorem writeB_syn (s : State) (b : BBuf) (i : Nat) (x : Byte) :
    (s.writeB b i x).syn = s.syn := setB_syn _ _ _
@[simp] theorem writeB_perm (s : State) (b : BBuf) (i : Nat) (x : Byte) :
    (s.writeB b i x).perm = s.perm := setB_perm _ _ _
@[simp] theorem writeB_sup (s : State) (b : BBuf) (i : Nat) (x : Byte) :
    (s.writeB b i x).sup = s.sup := setB_sup _ _ _
@[simp] theorem writeB_len (s : State) (b : BBuf) (i : Nat) (x : Byte) :
    (s.writeB b i x).len = s.len := setB_len _ _ _
@[simp] theorem writeB_key (s : State) (b : BBuf) (i : Nat) (x : Byte) :
    (s.writeB b i x).key = s.key := setB_key _ _ _
@[simp] theorem writeB_v (s : State) (b : BBuf) (i : Nat) (x : Byte) : (s.writeB b i x).v = s.v := setB_v _ _ _
@[simp] theorem writeB_status (s : State) (b : BBuf) (i : Nat) (x : Byte) :
    (s.writeB b i x).status = s.status := setB_status _ _ _
@[simp] theorem writeB_fcmd (s : State) (b : BBuf) (i : Nat) (x : Byte) :
    (s.writeB b i x).fcmd = s.fcmd := setB_fcmd _ _ _
@[simp] theorem writeB_bufaddr (s : State) (b : BBuf) (i : Nat) (x : Byte) :
    (s.writeB b i x).bufaddr = s.bufaddr := setB_bufaddr _ _ _
@[simp] theorem writeB_draws (s : State) (b : BBuf) (i : Nat) (x : Byte) :
    (s.writeB b i x).draws = s.draws := setB_draws _ _ _
@[simp] theorem writeB_port (s : State) (b : BBuf) (i : Nat) (x : Byte) :
    (s.writeB b i x).port = s.port := setB_port _ _ _
@[simp] theorem writeB_replies (s : State) (b : BBuf) (i : Nat) (x : Byte) :
    (s.writeB b i x).replies = s.replies := setB_replies _ _ _

/-! ### The first entries of an element buffer are written -/

@[simp] theorem fillE_build (s : State) (b : EBuf) (n : Nat) (f : Nat → Elem) :
    (s.fillE b n f).build = s.build := setE_build _ _ _
@[simp] theorem fillE_g (s : State) (b : EBuf) (n : Nat) (f : Nat → Elem) : (s.fillE b n f).g = s.g := setE_g _ _ _
@[simp] theorem fillE_cb (s : State) (b : EBuf) (n : Nat) (f : Nat → Elem) :
    (s.fillE b n f).cb = s.cb := setE_cb _ _ _
@[simp] theorem fillE_pl (s : State) (b : EBuf) (n : Nat) (f : Nat → Elem) :
    (s.fillE b n f).pl = s.pl := setE_pl _ _ _
@[simp] theorem fillE_ent (s : State) (b : EBuf) (n : Nat) (f : Nat → Elem) :
    (s.fillE b n f).ent = s.ent := setE_ent _ _ _
@[simp] theorem fillE_out (s : State) (b : EBuf) (n : Nat) (f : Nat → Elem) :
    (s.fillE b n f).out = s.out := setE_out _ _ _
@[simp] theorem fillE_len (s : State) (b : EBuf) (n : Nat) (f : Nat → Elem) :
    (s.fillE b n f).len = s.len := setE_len _ _ _
@[simp] theorem fillE_key (s : State) (b : EBuf) (n : Nat) (f : Nat → Elem) :
    (s.fillE b n f).key = s.key := setE_key _ _ _
@[simp] theorem fillE_v (s : State) (b : EBuf) (n : Nat) (f : Nat → Elem) : (s.fillE b n f).v = s.v := setE_v _ _ _
@[simp] theorem fillE_status (s : State) (b : EBuf) (n : Nat) (f : Nat → Elem) :
    (s.fillE b n f).status = s.status := setE_status _ _ _
@[simp] theorem fillE_fcmd (s : State) (b : EBuf) (n : Nat) (f : Nat → Elem) :
    (s.fillE b n f).fcmd = s.fcmd := setE_fcmd _ _ _
@[simp] theorem fillE_bufaddr (s : State) (b : EBuf) (n : Nat) (f : Nat → Elem) :
    (s.fillE b n f).bufaddr = s.bufaddr := setE_bufaddr _ _ _
@[simp] theorem fillE_draws (s : State) (b : EBuf) (n : Nat) (f : Nat → Elem) :
    (s.fillE b n f).draws = s.draws := setE_draws _ _ _
@[simp] theorem fillE_port (s : State) (b : EBuf) (n : Nat) (f : Nat → Elem) :
    (s.fillE b n f).port = s.port := setE_port _ _ _
@[simp] theorem fillE_replies (s : State) (b : EBuf) (n : Nat) (f : Nat → Elem) :
    (s.fillE b n f).replies = s.replies := setE_replies _ _ _

/-! ### The first entries of a byte buffer are written -/

@[simp] theorem fillB_build (s : State) (b : BBuf) (n : Nat) (f : Nat → Byte) :
    (s.fillB b n f).build = s.build := setB_build _ _ _
@[simp] theorem fillB_g (s : State) (b : BBuf) (n : Nat) (f : Nat → Byte) : (s.fillB b n f).g = s.g := setB_g _ _ _
@[simp] theorem fillB_p (s : State) (b : BBuf) (n : Nat) (f : Nat → Byte) : (s.fillB b n f).p = s.p := setB_p _ _ _
@[simp] theorem fillB_syn (s : State) (b : BBuf) (n : Nat) (f : Nat → Byte) :
    (s.fillB b n f).syn = s.syn := setB_syn _ _ _
@[simp] theorem fillB_perm (s : State) (b : BBuf) (n : Nat) (f : Nat → Byte) :
    (s.fillB b n f).perm = s.perm := setB_perm _ _ _
@[simp] theorem fillB_sup (s : State) (b : BBuf) (n : Nat) (f : Nat → Byte) :
    (s.fillB b n f).sup = s.sup := setB_sup _ _ _
@[simp] theorem fillB_len (s : State) (b : BBuf) (n : Nat) (f : Nat → Byte) :
    (s.fillB b n f).len = s.len := setB_len _ _ _
@[simp] theorem fillB_key (s : State) (b : BBuf) (n : Nat) (f : Nat → Byte) :
    (s.fillB b n f).key = s.key := setB_key _ _ _
@[simp] theorem fillB_v (s : State) (b : BBuf) (n : Nat) (f : Nat → Byte) : (s.fillB b n f).v = s.v := setB_v _ _ _
@[simp] theorem fillB_status (s : State) (b : BBuf) (n : Nat) (f : Nat → Byte) :
    (s.fillB b n f).status = s.status := setB_status _ _ _
@[simp] theorem fillB_fcmd (s : State) (b : BBuf) (n : Nat) (f : Nat → Byte) :
    (s.fillB b n f).fcmd = s.fcmd := setB_fcmd _ _ _
@[simp] theorem fillB_bufaddr (s : State) (b : BBuf) (n : Nat) (f : Nat → Byte) :
    (s.fillB b n f).bufaddr = s.bufaddr := setB_bufaddr _ _ _
@[simp] theorem fillB_draws (s : State) (b : BBuf) (n : Nat) (f : Nat → Byte) :
    (s.fillB b n f).draws = s.draws := setB_draws _ _ _
@[simp] theorem fillB_port (s : State) (b : BBuf) (n : Nat) (f : Nat → Byte) :
    (s.fillB b n f).port = s.port := setB_port _ _ _
@[simp] theorem fillB_replies (s : State) (b : BBuf) (n : Nat) (f : Nat → Byte) :
    (s.fillB b n f).replies = s.replies := setB_replies _ _ _

/-! ### A buffer is declared full -/

@[simp] theorem declareFull_build (s : State) (b : Buf) : (s.declareFull b).build = s.build := setLen_build _ _ _
@[simp] theorem declareFull_g (s : State) (b : Buf) : (s.declareFull b).g = s.g := setLen_g _ _ _
@[simp] theorem declareFull_p (s : State) (b : Buf) : (s.declareFull b).p = s.p := setLen_p _ _ _
@[simp] theorem declareFull_syn (s : State) (b : Buf) : (s.declareFull b).syn = s.syn := setLen_syn _ _ _
@[simp] theorem declareFull_perm (s : State) (b : Buf) : (s.declareFull b).perm = s.perm := setLen_perm _ _ _
@[simp] theorem declareFull_sup (s : State) (b : Buf) : (s.declareFull b).sup = s.sup := setLen_sup _ _ _
@[simp] theorem declareFull_cb (s : State) (b : Buf) : (s.declareFull b).cb = s.cb := setLen_cb _ _ _
@[simp] theorem declareFull_pl (s : State) (b : Buf) : (s.declareFull b).pl = s.pl := setLen_pl _ _ _
@[simp] theorem declareFull_ent (s : State) (b : Buf) : (s.declareFull b).ent = s.ent := setLen_ent _ _ _
@[simp] theorem declareFull_out (s : State) (b : Buf) : (s.declareFull b).out = s.out := setLen_out _ _ _
@[simp] theorem declareFull_key (s : State) (b : Buf) : (s.declareFull b).key = s.key := setLen_key _ _ _
@[simp] theorem declareFull_v (s : State) (b : Buf) : (s.declareFull b).v = s.v := setLen_v _ _ _
@[simp] theorem declareFull_status (s : State) (b : Buf) : (s.declareFull b).status = s.status := setLen_status _ _ _
@[simp] theorem declareFull_fcmd (s : State) (b : Buf) : (s.declareFull b).fcmd = s.fcmd := setLen_fcmd _ _ _
@[simp] theorem declareFull_bufaddr (s : State) (b : Buf) :
    (s.declareFull b).bufaddr = s.bufaddr := setLen_bufaddr _ _ _
@[simp] theorem declareFull_draws (s : State) (b : Buf) : (s.declareFull b).draws = s.draws := setLen_draws _ _ _
@[simp] theorem declareFull_port (s : State) (b : Buf) : (s.declareFull b).port = s.port := setLen_port _ _ _
@[simp] theorem declareFull_replies (s : State) (b : Buf) :
    (s.declareFull b).replies = s.replies := setLen_replies _ _ _

/-! ### `(KEY, V) <- kv` -/

@[simp] theorem setDrbg_build (s : State) (kv : Bytes32 × Bytes16) : (s.setDrbg kv).build = s.build := rfl
@[simp] theorem setDrbg_g (s : State) (kv : Bytes32 × Bytes16) : (s.setDrbg kv).g = s.g := rfl
@[simp] theorem setDrbg_p (s : State) (kv : Bytes32 × Bytes16) : (s.setDrbg kv).p = s.p := rfl
@[simp] theorem setDrbg_syn (s : State) (kv : Bytes32 × Bytes16) : (s.setDrbg kv).syn = s.syn := rfl
@[simp] theorem setDrbg_perm (s : State) (kv : Bytes32 × Bytes16) : (s.setDrbg kv).perm = s.perm := rfl
@[simp] theorem setDrbg_sup (s : State) (kv : Bytes32 × Bytes16) : (s.setDrbg kv).sup = s.sup := rfl
@[simp] theorem setDrbg_cb (s : State) (kv : Bytes32 × Bytes16) : (s.setDrbg kv).cb = s.cb := rfl
@[simp] theorem setDrbg_pl (s : State) (kv : Bytes32 × Bytes16) : (s.setDrbg kv).pl = s.pl := rfl
@[simp] theorem setDrbg_ent (s : State) (kv : Bytes32 × Bytes16) : (s.setDrbg kv).ent = s.ent := rfl
@[simp] theorem setDrbg_out (s : State) (kv : Bytes32 × Bytes16) : (s.setDrbg kv).out = s.out := rfl
@[simp] theorem setDrbg_len (s : State) (kv : Bytes32 × Bytes16) : (s.setDrbg kv).len = s.len := rfl
@[simp] theorem setDrbg_key (s : State) (kv : Bytes32 × Bytes16) : (s.setDrbg kv).key = kv.1 := rfl
@[simp] theorem setDrbg_v (s : State) (kv : Bytes32 × Bytes16) : (s.setDrbg kv).v = kv.2 := rfl
@[simp] theorem setDrbg_status (s : State) (kv : Bytes32 × Bytes16) : (s.setDrbg kv).status = s.status := rfl
@[simp] theorem setDrbg_fcmd (s : State) (kv : Bytes32 × Bytes16) : (s.setDrbg kv).fcmd = s.fcmd := rfl
@[simp] theorem setDrbg_bufaddr (s : State) (kv : Bytes32 × Bytes16) : (s.setDrbg kv).bufaddr = s.bufaddr := rfl
@[simp] theorem setDrbg_draws (s : State) (kv : Bytes32 × Bytes16) : (s.setDrbg kv).draws = s.draws := rfl
@[simp] theorem setDrbg_port (s : State) (kv : Bytes32 × Bytes16) : (s.setDrbg kv).port = s.port := rfl
@[simp] theorem setDrbg_replies (s : State) (kv : Bytes32 × Bytes16) : (s.setDrbg kv).replies = s.replies := rfl

/-! ### Fault entry (60_exceptions.md R203) -/

@[simp] theorem takeFault_build (s : State) (c : Cause) (w : Word) : (s.takeFault c w).build = s.build := rfl
@[simp] theorem takeFault_g (s : State) (c : Cause) (w : Word) : (s.takeFault c w).g = s.g := rfl
@[simp] theorem takeFault_p (s : State) (c : Cause) (w : Word) : (s.takeFault c w).p = s.p := rfl
@[simp] theorem takeFault_syn (s : State) (c : Cause) (w : Word) : (s.takeFault c w).syn = s.syn := rfl
@[simp] theorem takeFault_perm (s : State) (c : Cause) (w : Word) : (s.takeFault c w).perm = s.perm := rfl
@[simp] theorem takeFault_sup (s : State) (c : Cause) (w : Word) : (s.takeFault c w).sup = s.sup := rfl
@[simp] theorem takeFault_cb (s : State) (c : Cause) (w : Word) : (s.takeFault c w).cb = s.cb := rfl
@[simp] theorem takeFault_pl (s : State) (c : Cause) (w : Word) : (s.takeFault c w).pl = s.pl := rfl
@[simp] theorem takeFault_ent (s : State) (c : Cause) (w : Word) : (s.takeFault c w).ent = s.ent := rfl
@[simp] theorem takeFault_out (s : State) (c : Cause) (w : Word) : (s.takeFault c w).out = s.out := rfl
@[simp] theorem takeFault_len (s : State) (c : Cause) (w : Word) : (s.takeFault c w).len = s.len := rfl
@[simp] theorem takeFault_key (s : State) (c : Cause) (w : Word) : (s.takeFault c w).key = s.key := rfl
@[simp] theorem takeFault_v (s : State) (c : Cause) (w : Word) : (s.takeFault c w).v = s.v := rfl
@[simp] theorem takeFault_busy (s : State) (c : Cause) (w : Word) :
    (s.takeFault c w).status.busy = s.status.busy := rfl
@[simp] theorem takeFault_abort (s : State) (c : Cause) (w : Word) : (s.takeFault c w).status.abort = true := rfl
@[simp] theorem takeFault_seeded (s : State) (c : Cause) (w : Word) :
    (s.takeFault c w).status.seeded = s.status.seeded := rfl
@[simp] theorem takeFault_cause (s : State) (c : Cause) (w : Word) : (s.takeFault c w).status.cause = c.code := rfl
@[simp] theorem takeFault_fcmd (s : State) (c : Cause) (w : Word) : (s.takeFault c w).fcmd = w := rfl
@[simp] theorem takeFault_bufaddr (s : State) (c : Cause) (w : Word) : (s.takeFault c w).bufaddr = s.bufaddr := rfl
@[simp] theorem takeFault_draws (s : State) (c : Cause) (w : Word) : (s.takeFault c w).draws = s.draws := rfl
@[simp] theorem takeFault_port (s : State) (c : Cause) (w : Word) : (s.takeFault c w).port = s.port := rfl
@[simp] theorem takeFault_replies (s : State) (c : Cause) (w : Word) : (s.takeFault c w).replies = s.replies := rfl

/-! ### HostReset (70_reset_and_hazards.md R230): what stays -/

@[simp] theorem hostReset_build (s : State) : s.hostReset.build = s.build := rfl
@[simp] theorem hostReset_draws (s : State) : s.hostReset.draws = s.draws := rfl
@[simp] theorem hostReset_port (s : State) : s.hostReset.port = s.port := rfl
@[simp] theorem hostReset_replies (s : State) : s.hostReset.replies = s.replies := rfl

/-! ### What the accessors see after each update -/

@[simp] theorem getG_writeE (s : State) (b : EBuf) (i : Nat) (x : Elem) (r' : GReg) :
    (s.writeE b i x).getG r' = s.getG r' := by cases b <;> rfl
@[simp] theorem getB_writeE (s : State) (b : EBuf) (i : Nat) (x : Elem) (b' : BBuf) :
    (s.writeE b i x).getB b' = s.getB b' := by cases b' <;> cases b <;> rfl
@[simp] theorem getLen_writeE (s : State) (b : EBuf) (i : Nat) (x : Elem) (b' : Buf) :
    (s.writeE b i x).getLen b' = s.getLen b' := by cases b <;> rfl
@[simp] theorem getG_writeB (s : State) (b : BBuf) (i : Nat) (x : Byte) (r' : GReg) :
    (s.writeB b i x).getG r' = s.getG r' := by cases b <;> rfl
@[simp] theorem getE_writeB (s : State) (b : BBuf) (i : Nat) (x : Byte) (b' : EBuf) :
    (s.writeB b i x).getE b' = s.getE b' := by cases b' <;> cases b <;> rfl
@[simp] theorem getLen_writeB (s : State) (b : BBuf) (i : Nat) (x : Byte) (b' : Buf) :
    (s.writeB b i x).getLen b' = s.getLen b' := by cases b <;> rfl
@[simp] theorem getG_fillE (s : State) (b : EBuf) (n : Nat) (f : Nat → Elem) (r' : GReg) :
    (s.fillE b n f).getG r' = s.getG r' := by cases b <;> rfl
@[simp] theorem getB_fillE (s : State) (b : EBuf) (n : Nat) (f : Nat → Elem) (b' : BBuf) :
    (s.fillE b n f).getB b' = s.getB b' := by cases b' <;> cases b <;> rfl
@[simp] theorem getLen_fillE (s : State) (b : EBuf) (n : Nat) (f : Nat → Elem) (b' : Buf) :
    (s.fillE b n f).getLen b' = s.getLen b' := by cases b <;> rfl
@[simp] theorem getG_fillB (s : State) (b : BBuf) (n : Nat) (f : Nat → Byte) (r' : GReg) :
    (s.fillB b n f).getG r' = s.getG r' := by cases b <;> rfl
@[simp] theorem getE_fillB (s : State) (b : BBuf) (n : Nat) (f : Nat → Byte) (b' : EBuf) :
    (s.fillB b n f).getE b' = s.getE b' := by cases b' <;> cases b <;> rfl
@[simp] theorem getLen_fillB (s : State) (b : BBuf) (n : Nat) (f : Nat → Byte) (b' : Buf) :
    (s.fillB b n f).getLen b' = s.getLen b' := by cases b <;> rfl
@[simp] theorem getG_declareFull (s : State) (b : Buf) (r' : GReg) : (s.declareFull b).getG r' = s.getG r' := rfl
@[simp] theorem getE_declareFull (s : State) (b : Buf) (b' : EBuf) :
    (s.declareFull b).getE b' = s.getE b' := by cases b' <;> rfl
@[simp] theorem getB_declareFull (s : State) (b : Buf) (b' : BBuf) :
    (s.declareFull b).getB b' = s.getB b' := by cases b' <;> rfl
@[simp] theorem getE_setG (s : State) (r : GReg) (x : Elem) (b' : EBuf) :
    (s.setG r x).getE b' = s.getE b' := by cases b' <;> rfl
@[simp] theorem getB_setG (s : State) (r : GReg) (x : Elem) (b' : BBuf) :
    (s.setG r x).getB b' = s.getB b' := by cases b' <;> rfl
@[simp] theorem getLen_setG (s : State) (r : GReg) (x : Elem) (b' : Buf) : (s.setG r x).getLen b' = s.getLen b' := rfl
@[simp] theorem getG_setE (s : State) (b : EBuf) (mem : Memory 16) (r' : GReg) :
    (s.setE b mem).getG r' = s.getG r' := by cases b <;> rfl
@[simp] theorem getB_setE (s : State) (b : EBuf) (mem : Memory 16) (b' : BBuf) :
    (s.setE b mem).getB b' = s.getB b' := by cases b' <;> cases b <;> rfl
@[simp] theorem getLen_setE (s : State) (b : EBuf) (mem : Memory 16) (b' : Buf) :
    (s.setE b mem).getLen b' = s.getLen b' := by cases b <;> rfl
@[simp] theorem getG_setB (s : State) (b : BBuf) (mem : Memory 8) (r' : GReg) :
    (s.setB b mem).getG r' = s.getG r' := by cases b <;> rfl
@[simp] theorem getE_setB (s : State) (b : BBuf) (mem : Memory 8) (b' : EBuf) :
    (s.setB b mem).getE b' = s.getE b' := by cases b' <;> cases b <;> rfl
@[simp] theorem getLen_setB (s : State) (b : BBuf) (mem : Memory 8) (b' : Buf) :
    (s.setB b mem).getLen b' = s.getLen b' := by cases b <;> rfl
@[simp] theorem getG_setLen (s : State) (b : Buf) (x : Word) (r' : GReg) : (s.setLen b x).getG r' = s.getG r' := rfl
@[simp] theorem getE_setLen (s : State) (b : Buf) (x : Word) (b' : EBuf) :
    (s.setLen b x).getE b' = s.getE b' := by cases b' <;> rfl
@[simp] theorem getB_setLen (s : State) (b : Buf) (x : Word) (b' : BBuf) :
    (s.setLen b x).getB b' = s.getB b' := by cases b' <;> rfl
@[simp] theorem getG_setDrbg (s : State) (kv : Bytes32 × Bytes16) (r' : GReg) :
    (s.setDrbg kv).getG r' = s.getG r' := rfl
@[simp] theorem getE_setDrbg (s : State) (kv : Bytes32 × Bytes16) (b' : EBuf) :
    (s.setDrbg kv).getE b' = s.getE b' := by cases b' <;> rfl
@[simp] theorem getB_setDrbg (s : State) (kv : Bytes32 × Bytes16) (b' : BBuf) :
    (s.setDrbg kv).getB b' = s.getB b' := by cases b' <;> rfl
@[simp] theorem getLen_setDrbg (s : State) (kv : Bytes32 × Bytes16) (b' : Buf) :
    (s.setDrbg kv).getLen b' = s.getLen b' := rfl
@[simp] theorem getG_takeFault (s : State) (c : Cause) (w : Word) (r' : GReg) :
    (s.takeFault c w).getG r' = s.getG r' := rfl
@[simp] theorem getE_takeFault (s : State) (c : Cause) (w : Word) (b' : EBuf) :
    (s.takeFault c w).getE b' = s.getE b' := by cases b' <;> rfl
@[simp] theorem getB_takeFault (s : State) (c : Cause) (w : Word) (b' : BBuf) :
    (s.takeFault c w).getB b' = s.getB b' := by cases b' <;> rfl
@[simp] theorem getLen_takeFault (s : State) (c : Cause) (w : Word) (b' : Buf) :
    (s.takeFault c w).getLen b' = s.getLen b' := rfl

/-- `G[r] <- x` changes register `r` and no other (10_state.md R21). -/
theorem getG_setG (s : State) (r r' : GReg) (x : Elem) :
    (s.setG r x).getG r' = if r' = r then x else s.getG r' := by
  simp only [State.getG, State.setG, Vector.getElem_set, BitVec.toNat_inj]
  by_cases h : r' = r
  · simp [h]
  · simp [h, Ne.symm h]

@[simp] theorem getG_setG_self (s : State) (r : GReg) (x : Elem) : (s.setG r x).getG r = x := by simp [getG_setG]

/-- Replacing one element buffer changes no other (10_state.md R25). -/
theorem getE_setE (s : State) (b b' : EBuf) (mem : Memory 16) :
    (s.setE b mem).getE b' = if b' = b then mem else s.getE b' := by
  cases b <;> cases b' <;> simp [State.getE, State.setE, Vector.getElem_set, BitVec.toNat_inj, eq_comm]

/-- Replacing one byte buffer changes no other (10_state.md R25). -/
theorem getB_setB (s : State) (b b' : BBuf) (mem : Memory 8) :
    (s.setB b mem).getB b' = if b' = b then mem else s.getB b' := by
  cases b <;> cases b' <;> simp [State.getB, State.setB]

/-- Distinct buffers have distinct fill counts (10_state.md R34). -/
theorem bufSlot_inj {b b' : Buf} : bufSlot b = bufSlot b' ↔ b = b' := by
  constructor
  · intro h
    have hv := congrArg Fin.val h
    rcases b with (⟨k⟩ | _ | _ | _) | (_ | _ | _ | _) <;> rcases b' with (⟨k'⟩ | _ | _ | _) | (_ | _ | _ | _) <;>
      simp [bufSlot, BitVec.toNat_inj] at hv ⊢ <;>
      first
        | exact hv
        | exact absurd (BitVec.isLt ‹PReg›) (by omega)
  · rintro rfl; rfl

/-- `LEN[b] <- x` changes one fill count (10_state.md R34). -/
theorem getLen_setLen (s : State) (b b' : Buf) (x : Word) :
    (s.setLen b x).getLen b' = if b' = b then x else s.getLen b' := by
  simp only [State.getLen, State.setLen, Fin.getElem_fin, Vector.getElem_set, Fin.val_inj, bufSlot_inj]
  by_cases h : b' = b
  · simp [h]
  · simp [h, Ne.symm h]

@[simp] theorem getLen_setLen_self (s : State) (b : Buf) (x : Word) : (s.setLen b x).getLen b = x := by
  simp [getLen_setLen]

end Sys2Proof.Machine
end

