-- ==== Sys2Proof/Laws/Drbg.lean ====
section
/-! SUPPORT. What the generator's operations leave as it was, field by field (43_drbg.md: no other unit's state is touched),
and what an update is, byte by byte (R172). -/

namespace Sys2Proof.Machine

/-! ### RB.INIT (R173) -/

@[simp] theorem initWith_build (e : Cipher) (s : State) : (initWith e s).build = s.build := by simp [initWith]
@[simp] theorem initWith_g (e : Cipher) (s : State) : (initWith e s).g = s.g := by simp [initWith]
@[simp] theorem initWith_p (e : Cipher) (s : State) : (initWith e s).p = s.p := by simp [initWith]
@[simp] theorem initWith_syn (e : Cipher) (s : State) : (initWith e s).syn = s.syn := by simp [initWith]
@[simp] theorem initWith_perm (e : Cipher) (s : State) : (initWith e s).perm = s.perm := by simp [initWith]
@[simp] theorem initWith_sup (e : Cipher) (s : State) : (initWith e s).sup = s.sup := by simp [initWith]
@[simp] theorem initWith_cb (e : Cipher) (s : State) : (initWith e s).cb = s.cb := by simp [initWith]
@[simp] theorem initWith_pl (e : Cipher) (s : State) : (initWith e s).pl = s.pl := by simp [initWith]
@[simp] theorem initWith_ent (e : Cipher) (s : State) : (initWith e s).ent = s.ent := by simp [initWith]
@[simp] theorem initWith_out (e : Cipher) (s : State) : (initWith e s).out = s.out := by simp [initWith]
@[simp] theorem initWith_len (e : Cipher) (s : State) : (initWith e s).len = s.len := by simp [initWith]
@[simp] theorem initWith_fcmd (e : Cipher) (s : State) : (initWith e s).fcmd = s.fcmd := by simp [initWith]
@[simp] theorem initWith_bufaddr (e : Cipher) (s : State) : (initWith e s).bufaddr = s.bufaddr := by simp [initWith]
@[simp] theorem initWith_draws (e : Cipher) (s : State) : (initWith e s).draws = s.draws := by simp [initWith]
@[simp] theorem initWith_port (e : Cipher) (s : State) : (initWith e s).port = s.port := by simp [initWith]
@[simp] theorem initWith_replies (e : Cipher) (s : State) : (initWith e s).replies = s.replies := by simp [initWith]
@[simp] theorem initWith_status (e : Cipher) (s : State) :
    (initWith e s).status = { s.status with seeded := true } := by simp [initWith]

/-! ### RB.UPD (R174) -/

@[simp] theorem updateWith_build (e : Cipher) (pd : Bool) (s : State) :
    (updateWith e pd s).build = s.build := by simp [updateWith]
@[simp] theorem updateWith_g (e : Cipher) (pd : Bool) (s : State) :
    (updateWith e pd s).g = s.g := by simp [updateWith]
@[simp] theorem updateWith_p (e : Cipher) (pd : Bool) (s : State) :
    (updateWith e pd s).p = s.p := by simp [updateWith]
@[simp] theorem updateWith_syn (e : Cipher) (pd : Bool) (s : State) :
    (updateWith e pd s).syn = s.syn := by simp [updateWith]
@[simp] theorem updateWith_perm (e : Cipher) (pd : Bool) (s : State) :
    (updateWith e pd s).perm = s.perm := by simp [updateWith]
@[simp] theorem updateWith_sup (e : Cipher) (pd : Bool) (s : State) :
    (updateWith e pd s).sup = s.sup := by simp [updateWith]
@[simp] theorem updateWith_cb (e : Cipher) (pd : Bool) (s : State) :
    (updateWith e pd s).cb = s.cb := by simp [updateWith]
@[simp] theorem updateWith_pl (e : Cipher) (pd : Bool) (s : State) :
    (updateWith e pd s).pl = s.pl := by simp [updateWith]
@[simp] theorem updateWith_ent (e : Cipher) (pd : Bool) (s : State) :
    (updateWith e pd s).ent = s.ent := by simp [updateWith]
@[simp] theorem updateWith_out (e : Cipher) (pd : Bool) (s : State) :
    (updateWith e pd s).out = s.out := by simp [updateWith]
@[simp] theorem updateWith_len (e : Cipher) (pd : Bool) (s : State) :
    (updateWith e pd s).len = s.len := by simp [updateWith]
@[simp] theorem updateWith_fcmd (e : Cipher) (pd : Bool) (s : State) :
    (updateWith e pd s).fcmd = s.fcmd := by simp [updateWith]
@[simp] theorem updateWith_bufaddr (e : Cipher) (pd : Bool) (s : State) :
    (updateWith e pd s).bufaddr = s.bufaddr := by simp [updateWith]
@[simp] theorem updateWith_draws (e : Cipher) (pd : Bool) (s : State) :
    (updateWith e pd s).draws = s.draws := by simp [updateWith]
@[simp] theorem updateWith_port (e : Cipher) (pd : Bool) (s : State) :
    (updateWith e pd s).port = s.port := by simp [updateWith]
@[simp] theorem updateWith_replies (e : Cipher) (pd : Bool) (s : State) :
    (updateWith e pd s).replies = s.replies := by simp [updateWith]
@[simp] theorem updateWith_status (e : Cipher) (pd : Bool) (s : State) :
    (updateWith e pd s).status = s.status := by simp [updateWith]

/-! ### RB.GEN (R175) -/

@[simp] theorem generateWith_build (e : Cipher) (n : Nat) (s : State) :
    (generateWith e n s).build = s.build := by simp [generateWith]
@[simp] theorem generateWith_g (e : Cipher) (n : Nat) (s : State) :
    (generateWith e n s).g = s.g := by simp [generateWith]
@[simp] theorem generateWith_p (e : Cipher) (n : Nat) (s : State) :
    (generateWith e n s).p = s.p := by simp [generateWith]
@[simp] theorem generateWith_syn (e : Cipher) (n : Nat) (s : State) :
    (generateWith e n s).syn = s.syn := by simp [generateWith]
@[simp] theorem generateWith_perm (e : Cipher) (n : Nat) (s : State) :
    (generateWith e n s).perm = s.perm := by simp [generateWith]
@[simp] theorem generateWith_sup (e : Cipher) (n : Nat) (s : State) :
    (generateWith e n s).sup = s.sup := by simp [generateWith]
@[simp] theorem generateWith_cb (e : Cipher) (n : Nat) (s : State) :
    (generateWith e n s).cb = s.cb := by simp [generateWith, State.fillB, State.setB]
@[simp] theorem generateWith_pl (e : Cipher) (n : Nat) (s : State) :
    (generateWith e n s).pl = s.pl := by simp [generateWith, State.fillB, State.setB]
@[simp] theorem generateWith_ent (e : Cipher) (n : Nat) (s : State) :
    (generateWith e n s).ent = s.ent := by simp [generateWith, State.fillB, State.setB]
@[simp] theorem generateWith_fcmd (e : Cipher) (n : Nat) (s : State) :
    (generateWith e n s).fcmd = s.fcmd := by simp [generateWith]
@[simp] theorem generateWith_bufaddr (e : Cipher) (n : Nat) (s : State) :
    (generateWith e n s).bufaddr = s.bufaddr := by simp [generateWith]
@[simp] theorem generateWith_draws (e : Cipher) (n : Nat) (s : State) :
    (generateWith e n s).draws = s.draws := by simp [generateWith]
@[simp] theorem generateWith_port (e : Cipher) (n : Nat) (s : State) :
    (generateWith e n s).port = s.port := by simp [generateWith]
@[simp] theorem generateWith_replies (e : Cipher) (n : Nat) (s : State) :
    (generateWith e n s).replies = s.replies := by simp [generateWith]
@[simp] theorem generateWith_status (e : Cipher) (n : Nat) (s : State) :
    (generateWith e n s).status = s.status := by simp [generateWith]

/-! ### The counter and the update -/

theorem incrBy_succ (k : Nat) (v : Bytes16) : incrBy (k + 1) v = incr (incrBy k v) := by
  induction k generalizing v with
  | zero => rfl
  | succ k ih => rw [incrBy, ih]; rfl

theorem incrBy_add (j k : Nat) (v : Bytes16) : incrBy (j + k) v = incrBy k (incrBy j v) := by
  induction j generalizing v with
  | zero => simp [incrBy]
  | succ j ih => rw [Nat.add_right_comm, incrBy, ih, incrBy]

/-- The three blocks of a keystream, byte by byte (R172). -/
theorem getElem_keystream (e : Cipher) (key : Bytes32) (v : Bytes16) (i : Fin 48) :
    (keystream e key v)[i] =
      (e key (incrBy (i.val / 16 + 1) v))[i.val % 16]'(Nat.mod_lt _ (by norm_num)) := by
  obtain ⟨i, hi⟩ := i
  have h : (keystream e key v)[i] =
      ((e key (incr v) ++ e key (incr (incr v)) : Vector Byte (16 + 16)) ++
        e key (incr (incr (incr v))) : Vector Byte (16 + 16 + 16))[i] := rfl
  simp only [Fin.getElem_fin, h]
  rw [Vector.getElem_append]
  split
  · rw [Vector.getElem_append]
    split
    · simp [show i / 16 = 0 by omega, show i % 16 = i by omega, incrBy]
    · simp [show i / 16 = 1 by omega, show i % 16 = i - 16 by omega, incrBy]
  · simp [show i / 16 = 2 by omega, show i % 16 = i - 32 by omega, incrBy]

/-- The new key of an update, byte by byte (R172). -/
theorem getElem_update_key (e : Cipher) (pd : Option Bytes48) (key : Bytes32) (v : Bytes16) (i : Fin 32) :
    (update e pd key v).1[i] =
      (e key (incrBy (i.val / 16 + 1) v))[i.val % 16]'(Nat.mod_lt _ (by norm_num)) ^^^
        (match pd with | none => 0 | some d => d[i.val]) := by
  have h := getElem_keystream e key v ⟨i.val, by omega⟩
  simp only [Fin.getElem_fin] at h
  cases pd with
  | none => simp [update, splitState, xorProvided, h]
  | some d => simp [update, splitState, xorProvided, h]

/-- The new counter of an update, byte by byte (R172). -/
theorem getElem_update_v (e : Cipher) (pd : Option Bytes48) (key : Bytes32) (v : Bytes16) (i : Fin 16) :
    (update e pd key v).2[i] =
      (e key (incrBy 3 v))[i] ^^^ (match pd with | none => 0 | some d => d[32 + i.val]) := by
  have h := getElem_keystream e key v ⟨32 + i.val, by omega⟩
  simp only [Fin.getElem_fin] at h
  have h1 : (32 + i.val) / 16 = 2 := by omega
  have h2 : (32 + i.val) % 16 = i.val := by omega
  simp only [h1, h2] at h
  cases pd with
  | none => simp [update, splitState, xorProvided, h]
  | some d => simp [update, splitState, xorProvided, h]

/-- The output blocks, byte by byte (R175). -/
theorem getD_blocks (e : Cipher) (key : Bytes32) (k : Nat) (v : Bytes16) (i : Nat) (h : i < 16 * k) :
    (blocks e key k v).getD i 0 = (e key (incrBy (i / 16 + 1) v)).toList.getD (i % 16) 0 := by
  induction k generalizing v i with
  | zero => omega
  | succ k ih =>
    have hl : (e key (incr v)).toList.length = 16 := by simp
    rw [blocks]
    by_cases hi : i < 16
    · rw [List.getD_append _ _ _ _ (by omega), Nat.div_eq_of_lt hi, Nat.mod_eq_of_lt hi]
      rfl
    · rw [List.getD_append_right _ _ _ _ (by omega), hl, ih (incr v) (i - 16) (by omega)]
      have h1 : (i - 16) / 16 + 1 = i / 16 := by omega
      have h2 : (i - 16) % 16 = i % 16 := by omega
      rw [h1, h2, Nat.add_comm (i / 16) 1, incrBy_add]
      rfl

end Sys2Proof.Machine
end

