-- ==== Sys2Proof/Laws/Encoding.lean ====
section
/-! SUPPORT. The fields of an encoded word (30_encoding.md R71, R72, R83), and the numbers of the buffers. -/

namespace Sys2Proof

theorem append4I (op : BitVec 8) (a b : BitVec 4) (imm : BitVec 16) (i : Nat) :
    (wordI op a b imm).getLsbD i =
      if i < 16 then imm.getLsbD i else if i < 20 then b.getLsbD (i - 16)
      else if i < 24 then a.getLsbD (i - 20) else op.getLsbD (i - 24) := by
  simp only [wordI, BitVec.getLsbD_append]
  split_ifs <;> first | rfl | omega

theorem wordR_eq_wordI (op : BitVec 8) (a b c : BitVec 4) : wordR op a b c = wordI op a b (c ++ 0#12) := by
  apply BitVec.eq_of_getLsbD_eq
  intro i hi
  simp only [wordR, wordI, BitVec.getLsbD_append]
  split_ifs <;> first | rfl | omega

@[simp] theorem fieldOp_wordI (op : BitVec 8) (a b : BitVec 4) (imm : BitVec 16) :
    fieldOp (wordI op a b imm) = op := by
  apply BitVec.eq_of_getLsbD_eq
  intro i hi
  rw [fieldOp, BitVec.getLsbD_extractLsb', append4I]
  simp only [hi, decide_true, Bool.true_and]
  rw [if_neg (by omega), if_neg (by omega), if_neg (by omega)]
  congr 1; omega

@[simp] theorem fieldA_wordI (op : BitVec 8) (a b : BitVec 4) (imm : BitVec 16) :
    fieldA (wordI op a b imm) = a := by
  apply BitVec.eq_of_getLsbD_eq
  intro i hi
  rw [fieldA, BitVec.getLsbD_extractLsb', append4I]
  simp only [hi, decide_true, Bool.true_and]
  rw [if_neg (by omega), if_neg (by omega), if_pos (by omega)]
  congr 1; omega

@[simp] theorem fieldB_wordI (op : BitVec 8) (a b : BitVec 4) (imm : BitVec 16) :
    fieldB (wordI op a b imm) = b := by
  apply BitVec.eq_of_getLsbD_eq
  intro i hi
  rw [fieldB, BitVec.getLsbD_extractLsb', append4I]
  simp only [hi, decide_true, Bool.true_and]
  rw [if_neg (by omega), if_pos (by omega)]
  congr 1; omega

@[simp] theorem fieldImm_wordI (op : BitVec 8) (a b : BitVec 4) (imm : BitVec 16) :
    fieldImm (wordI op a b imm) = imm := by
  apply BitVec.eq_of_getLsbD_eq
  intro i hi
  rw [fieldImm, BitVec.getLsbD_extractLsb', append4I]
  simp only [hi, decide_true, Bool.true_and]
  rw [if_pos (by omega)]
  congr 1; omega

@[simp] theorem fieldOp_wordR (op : BitVec 8) (a b c : BitVec 4) : fieldOp (wordR op a b c) = op := by
  rw [wordR_eq_wordI, fieldOp_wordI]

@[simp] theorem fieldA_wordR (op : BitVec 8) (a b c : BitVec 4) : fieldA (wordR op a b c) = a := by
  rw [wordR_eq_wordI, fieldA_wordI]

@[simp] theorem fieldB_wordR (op : BitVec 8) (a b c : BitVec 4) : fieldB (wordR op a b c) = b := by
  rw [wordR_eq_wordI, fieldB_wordI]

theorem fieldC_of_fieldImm (w : Word) : fieldC w = (fieldImm w).extractLsb' 12 4 := by
  apply BitVec.eq_of_getLsbD_eq
  intro i hi
  simp only [fieldC, fieldImm, BitVec.getLsbD_extractLsb']
  simp [hi]; intros; omega

theorem fieldZ_of_fieldImm (w : Word) : fieldZ w = (fieldImm w).extractLsb' 0 12 := by
  apply BitVec.eq_of_getLsbD_eq
  intro i hi
  simp only [fieldZ, fieldImm, BitVec.getLsbD_extractLsb']
  simp [hi]; intros; omega

@[simp] theorem fieldC_wordR (op : BitVec 8) (a b c : BitVec 4) : fieldC (wordR op a b c) = c := by
  rw [wordR_eq_wordI, fieldC_of_fieldImm, fieldImm_wordI]
  apply BitVec.eq_of_getLsbD_eq
  intro i hi
  rw [BitVec.getLsbD_extractLsb', BitVec.getLsbD_append, if_neg (by omega)]
  simp [hi]

@[simp] theorem fieldZ_wordR (op : BitVec 8) (a b c : BitVec 4) : fieldZ (wordR op a b c) = 0 := by
  rw [wordR_eq_wordI, fieldZ_of_fieldImm, fieldImm_wordI]
  apply BitVec.eq_of_getLsbD_eq
  intro i hi
  rw [BitVec.getLsbD_extractLsb', BitVec.getLsbD_append, if_pos (by omega)]
  simp

/-- A word is its fields in format I. -/
theorem wordI_fields (w : Word) : wordI (fieldOp w) (fieldA w) (fieldB w) (fieldImm w) = w := by
  apply BitVec.eq_of_getLsbD_eq
  intro i hi
  rw [append4I]
  simp only [fieldOp, fieldA, fieldB, fieldImm, BitVec.getLsbD_extractLsb']
  split_ifs
  · simp; omega
  · have : i - 16 < 4 := by omega
    simp [this]; congr 1; omega
  · have : i - 20 < 4 := by omega
    simp [this]; congr 1; omega
  · have : i - 24 < 8 := by omega
    simp [this]; congr 1; omega

/-- The immediate of a word is its fields `c` and `z` of format R. -/
theorem fieldImm_eq (w : Word) : fieldImm w = fieldC w ++ fieldZ w := by
  apply BitVec.eq_of_getLsbD_eq
  intro i hi
  simp only [fieldC, fieldZ, fieldImm, BitVec.getLsbD_extractLsb', BitVec.getLsbD_append]
  split_ifs
  · simp [hi]; omega
  · have : i - 12 < 4 := by omega
    simp [hi, this]; congr 1; omega

@[simp] theorem EBuf.ofNumber_number (b : EBuf) : EBuf.ofNumber b.number = some b := by
  rcases b with (k | _ | _ | _)
  · revert k; decide
  all_goals rfl

theorem EBuf.number_of_ofNumber {n : BitVec 4} {b : EBuf} (h : EBuf.ofNumber n = some b) : b.number = n := by
  revert b
  revert n
  have : ∀ n : BitVec 4, (match EBuf.ofNumber n with | some b => b.number == n | none => true) = true := by decide
  intro n b h
  have h1 := this n
  rw [h] at h1
  simpa using h1

@[simp] theorem Buf.ofNumber_number (b : Buf) : Buf.ofNumber b.number = some b := by
  rcases b with (⟨k⟩ | _ | _ | _) | (_ | _ | _ | _)
  · revert k; decide
  all_goals rfl

theorem Buf.number_of_ofNumber {n : BitVec 4} {b : Buf} (h : Buf.ofNumber n = some b) : b.number = n := by
  revert b
  revert n
  have : ∀ n : BitVec 4, (match Buf.ofNumber n with | some b => b.number == n | none => true) = true := by decide
  intro n b h
  have h1 := this n
  rw [h] at h1
  simpa using h1

/-- The flag of an immediate built from a flag (30_encoding.md R74). -/
@[simp] theorem flagImm_getLsbD (f : Bool) : (flagImm f).getLsbD 0 = f := by cases f <;> rfl

@[simp] theorem flagImm_high (f : Bool) : (flagImm f).extractLsb' 1 15 = 0 := by cases f <;> rfl

/-- `need` answers a command exactly where its constraint holds and the rest does. -/
theorem need_eq_ok {ok : Bool} {why : Illegal} {k : Except Illegal Instr} {i : Instr} :
    need ok why k = .ok i ↔ ok = true ∧ k = .ok i := by
  unfold need; split <;> simp_all

end Sys2Proof
end

