-- ==== Sys2Proof/Laws/Memory.lean ====
section
/-! SUPPORT. The laws of a buffer's storage: what a read sees after a write or a fill, the canonical form is kept,
and equal contents in canonical form are equal data. -/

namespace Sys2Proof.Machine

variable {w : Nat}

@[simp] theorem Memory.read_nil (i : Nat) : Memory.read ([] : Memory w) i = 0 := rfl

theorem Memory.read_cons (i j : Nat) (x : BitVec w) (mem : Memory w) :
    Memory.read ((j, x) :: mem) i = if i = j then x else mem.read i := rfl

@[simp] theorem Memory.wfFrom_nil (lo : Nat) : Memory.wfFrom lo ([] : Memory w) = true := rfl

theorem Memory.wfFrom_cons (lo j : Nat) (x : BitVec w) (mem : Memory w) :
    Memory.wfFrom lo ((j, x) :: mem) = true ↔ lo ≤ j ∧ x ≠ 0 ∧ Memory.wfFrom (j + 1) mem = true := by
  simp [Memory.wfFrom, and_assoc]

/-- Below its first index a canonical memory reads as 0. -/
theorem Memory.read_below {lo i : Nat} {mem : Memory w} (h : Memory.wfFrom lo mem = true) (hi : i < lo) :
    mem.read i = 0 := by
  induction mem generalizing lo with
  | nil => rfl
  | cons c rest ih =>
    obtain ⟨j, x⟩ := c
    rw [Memory.wfFrom_cons] at h
    rw [Memory.read_cons, if_neg (by omega)]
    exact ih h.2.2 (by omega)

theorem Memory.wfFrom_mono {lo lo' : Nat} {mem : Memory w} (h : Memory.wfFrom lo mem = true) (hl : lo' ≤ lo) :
    Memory.wfFrom lo' mem = true := by
  cases mem with
  | nil => rfl
  | cons c rest =>
    obtain ⟨j, x⟩ := c
    rw [Memory.wfFrom_cons] at h ⊢
    exact ⟨by omega, h.2⟩

/-- Read after write: the entry written reads as the value written, every other as before (20_memory.md R62). -/
theorem Memory.read_write {lo : Nat} {mem : Memory w} (h : Memory.wfFrom lo mem = true) (i j : Nat) (x : BitVec w) :
    (mem.write i x).read j = if j = i then x else mem.read j := by
  induction mem generalizing lo with
  | nil =>
    by_cases hx : x = 0#w <;> simp [Memory.write, hx, Memory.read_cons]
  | cons c rest ih =>
    obtain ⟨k, y⟩ := c
    have hc := (Memory.wfFrom_cons lo k y rest).mp h
    simp only [Memory.write]
    split
    · rename_i hik
      by_cases hx : x = 0
      · simp only [hx, beq_self_eq_true, if_true]
        by_cases hj : j = i
        · rw [if_pos hj, Memory.read_below (lo := k) ((Memory.wfFrom_cons k k y rest).mpr ⟨le_refl k, hc.2⟩) (by omega)]
        · rw [if_neg hj]
      · rw [if_neg (by simpa using hx), Memory.read_cons]
    · split
      · rename_i hk
        subst hk
        by_cases hx : x = 0
        · simp only [hx, beq_self_eq_true, if_true]
          by_cases hj : j = i
          · rw [if_pos hj, Memory.read_below hc.2.2 (by omega)]
          · rw [if_neg hj, Memory.read_cons, if_neg hj]
        · rw [if_neg (by simpa using hx), Memory.read_cons, Memory.read_cons]
          by_cases hj : j = i <;> simp [hj]
      · rename_i hk hik
        rw [Memory.read_cons, Memory.read_cons, ih hc.2.2]
        by_cases hj : j = k
        · subst hj; rw [if_pos rfl, if_pos rfl, if_neg (by omega)]
        · rw [if_neg hj, if_neg hj]

/-- A write keeps the canonical form. -/
theorem Memory.wfFrom_write {lo : Nat} {mem : Memory w} (h : Memory.wfFrom lo mem = true) {i : Nat} (hi : lo ≤ i)
    (x : BitVec w) : Memory.wfFrom lo (mem.write i x) = true := by
  induction mem generalizing lo with
  | nil =>
    by_cases hx : x = 0#w <;> simp [Memory.write, hx, Memory.wfFrom_cons, hi]
  | cons c rest ih =>
    obtain ⟨k, y⟩ := c
    have hc := (Memory.wfFrom_cons lo k y rest).mp h
    simp only [Memory.write]
    split
    · rename_i hik
      by_cases hx : x = 0
      · simpa [hx] using h
      · rw [if_neg (by simpa using hx), Memory.wfFrom_cons]
        exact ⟨hi, hx, (Memory.wfFrom_cons _ k y rest).mpr ⟨by omega, hc.2⟩⟩
    · split
      · rename_i hk
        subst hk
        by_cases hx : x = 0
        · simpa [hx] using Memory.wfFrom_mono hc.2.2 (by omega)
        · rw [if_neg (by simpa using hx), Memory.wfFrom_cons]
          exact ⟨hi, hx, hc.2.2⟩
      · rw [Memory.wfFrom_cons]
        exact ⟨hc.1, hc.2.1, ih hc.2.2 (by omega)⟩

theorem Memory.wf_write {mem : Memory w} (h : mem.wf = true) (i : Nat) (x : BitVec w) : (mem.write i x).wf = true :=
  Memory.wfFrom_write h (Nat.zero_le i) x

theorem Memory.read_append (a b : Memory w) (i : Nat) :
    Memory.read (a ++ b) i = if i ∈ a.map Prod.fst then a.read i else b.read i := by
  induction a with
  | nil => simp
  | cons c rest ih =>
    obtain ⟨j, x⟩ := c
    rw [List.cons_append, Memory.read_cons, Memory.read_cons, ih]
    by_cases h : i = j <;> simp [h]

theorem Memory.read_eq_zero_of_not_mem {a : Memory w} {i : Nat} (h : i ∉ a.map Prod.fst) : a.read i = 0 := by
  induction a with
  | nil => rfl
  | cons c rest ih =>
    obtain ⟨j, x⟩ := c
    simp only [List.map_cons, List.mem_cons, not_or] at h
    rw [Memory.read_cons, if_neg h.1]
    exact ih h.2

theorem Memory.wfFrom_filter {lo n : Nat} {mem : Memory w} (h : Memory.wfFrom lo mem = true) :
    Memory.wfFrom (max lo n) (mem.filter (fun c => decide (n ≤ c.1))) = true := by
  induction mem generalizing lo with
  | nil => rfl
  | cons c rest ih =>
    obtain ⟨j, x⟩ := c
    have hc := (Memory.wfFrom_cons lo j x rest).mp h
    by_cases hn : n ≤ j
    · rw [List.filter_cons_of_pos (by simpa using hn), Memory.wfFrom_cons]
      exact ⟨by omega, hc.2.1, Memory.wfFrom_mono (ih hc.2.2) (by omega)⟩
    · rw [List.filter_cons_of_neg (by simpa using hn)]
      exact Memory.wfFrom_mono (ih hc.2.2) (by omega)

theorem Memory.read_filter {lo n i : Nat} {mem : Memory w} (h : Memory.wfFrom lo mem = true) (hi : n ≤ i) :
    Memory.read (mem.filter (fun c => decide (n ≤ c.1))) i = mem.read i := by
  induction mem generalizing lo with
  | nil => rfl
  | cons c rest ih =>
    obtain ⟨j, x⟩ := c
    have hc := (Memory.wfFrom_cons lo j x rest).mp h
    by_cases hn : n ≤ j
    · rw [List.filter_cons_of_pos (by simpa using hn), Memory.read_cons, Memory.read_cons, ih hc.2.2]
    · rw [List.filter_cons_of_neg (by simpa using hn), Memory.read_cons, if_neg (by omega), ih hc.2.2]

theorem Memory.wfFrom_append {lo hi : Nat} {a b : Memory w} (ha : Memory.wfFrom lo a = true)
    (hb : Memory.wfFrom hi b = true) (hlo : lo ≤ hi) (hlt : ∀ i ∈ a.map Prod.fst, i < hi) :
    Memory.wfFrom lo (a ++ b) = true := by
  induction a generalizing lo with
  | nil => exact Memory.wfFrom_mono hb hlo
  | cons c rest ih =>
    obtain ⟨j, x⟩ := c
    have hc := (Memory.wfFrom_cons lo j x rest).mp ha
    simp only [List.map_cons, List.mem_cons, forall_eq_or_imp] at hlt
    rw [List.cons_append, Memory.wfFrom_cons]
    exact ⟨hc.1, hc.2.1, ih hc.2.2 (by have := hlt.1; omega) hlt.2⟩

/-- The new entries of a fill: canonical, below `n`, reading as `f`. -/
theorem Memory.cells_spec (f : Nat → BitVec w) (n : Nat) :
    Memory.wfFrom 0 ((List.range n).flatMap (fun i => Memory.cell i (f i))) = true ∧
      (∀ i ∈ ((List.range n).flatMap (fun i => Memory.cell i (f i))).map Prod.fst, i < n) ∧
      ∀ i < n, Memory.read ((List.range n).flatMap (fun i => Memory.cell i (f i))) i = f i := by
  induction n with
  | zero => simp
  | succ n ih =>
    obtain ⟨h1, h2, h3⟩ := ih
    have hcell : Memory.wfFrom n (Memory.cell n (f n)) = true := by
      unfold Memory.cell; split
      · rfl
      · rename_i hx; exact (Memory.wfFrom_cons _ _ _ _).mpr ⟨le_refl n, by simpa using hx, rfl⟩
    have hkeys : ∀ i ∈ (Memory.cell n (f n)).map Prod.fst, i = n := by
      unfold Memory.cell; split <;> simp
    rw [List.range_succ, List.flatMap_append, List.flatMap_singleton]
    refine ⟨Memory.wfFrom_append h1 hcell (Nat.zero_le n) h2, ?_, ?_⟩
    · intro i hi
      rw [List.map_append, List.mem_append] at hi
      rcases hi with hi | hi
      · have := h2 i hi; omega
      · have := hkeys i hi; omega
    · intro i hi
      rw [Memory.read_append]
      split
      · rename_i hm; exact h3 i (h2 i hm)
      · rename_i hm
        by_cases hin : i = n
        · subst hin
          unfold Memory.cell
          by_cases hx : f i = 0#w <;> simp [hx, Memory.read_cons]
        · have h0 := h3 i (by omega)
          rw [Memory.read_eq_zero_of_not_mem hm] at h0
          rw [← h0]
          exact Memory.read_eq_zero_of_not_mem (fun h => hin (hkeys i h))

/-- What a read sees after a fill. -/
theorem Memory.read_fill {lo : Nat} {mem : Memory w} (h : Memory.wfFrom lo mem = true) (n : Nat) (f : Nat → BitVec w)
    (i : Nat) : (mem.fill n f).read i = if i < n then f i else mem.read i := by
  obtain ⟨_, h2, h3⟩ := Memory.cells_spec f n
  unfold Memory.fill
  rw [Memory.read_append]
  by_cases hi : i < n
  · rw [if_pos hi]
    split
    · exact h3 i hi
    · rename_i hm
      have h0 := h3 i hi
      rw [Memory.read_eq_zero_of_not_mem hm] at h0
      rw [← h0]
      apply Memory.read_eq_zero_of_not_mem
      intro hm'
      obtain ⟨c, hc, rfl⟩ := List.mem_map.mp hm'
      have := (List.mem_filter.mp hc).2
      simp only [decide_eq_true_eq] at this
      omega
  · rw [if_neg hi, if_neg (fun hm => hi (h2 i hm)), Memory.read_filter h (by omega)]

/-- A fill keeps the canonical form. -/
theorem Memory.wf_fill {mem : Memory w} (h : mem.wf = true) (n : Nat) (f : Nat → BitVec w) :
    (mem.fill n f).wf = true := by
  obtain ⟨h1, h2, _⟩ := Memory.cells_spec f n
  unfold Memory.fill
  refine Memory.wfFrom_append (hi := n) h1 ?_ (Nat.zero_le n) h2
  simpa using Memory.wfFrom_filter (n := n) h

/-- Equal contents in canonical form are equal data. -/
theorem Memory.ext_read {lo lo' : Nat} {a b : Memory w} (ha : Memory.wfFrom lo a = true)
    (hb : Memory.wfFrom lo' b = true) (h : ∀ i, a.read i = b.read i) : a = b := by
  induction a generalizing b lo lo' with
  | nil =>
    cases b with
    | nil => rfl
    | cons c rest =>
      obtain ⟨j, x⟩ := c
      have hc := (Memory.wfFrom_cons lo' j x rest).mp hb
      have := h j
      rw [Memory.read_cons, if_pos rfl, Memory.read_nil] at this
      exact absurd this.symm hc.2.1
  | cons c rest ih =>
    obtain ⟨j, x⟩ := c
    have hc := (Memory.wfFrom_cons lo j x rest).mp ha
    cases b with
    | nil =>
      have := h j
      rw [Memory.read_cons, if_pos rfl, Memory.read_nil] at this
      exact absurd this hc.2.1
    | cons d rest' =>
      obtain ⟨k, y⟩ := d
      have hd := (Memory.wfFrom_cons lo' k y rest').mp hb
      have hjk : j = k := by
        rcases Nat.lt_trichotomy j k with hlt | heq | hgt
        · have := h j
          rw [Memory.read_cons, if_pos rfl, Memory.read_cons, if_neg (by omega),
            Memory.read_below hd.2.2 (by omega)] at this
          exact absurd this hc.2.1
        · exact heq
        · have := h k
          rw [Memory.read_cons, if_neg (by omega), Memory.read_cons, if_pos rfl,
            Memory.read_below hc.2.2 (by omega)] at this
          exact absurd this.symm hd.2.1
      subst hjk
      have hxy : x = y := by simpa [Memory.read_cons] using h j
      subst hxy
      congr 1
      refine ih hc.2.2 hd.2.2 (fun i => ?_)
      by_cases hi : i < j + 1
      · rw [Memory.read_below hc.2.2 hi, Memory.read_below hd.2.2 hi]
      · have := h i
        rwa [Memory.read_cons, Memory.read_cons, if_neg (by omega), if_neg (by omega)] at this

end Sys2Proof.Machine
end

