-- ==== Sys2Proof/Laws/Ops.lean ====
section
/-! SUPPORT. What each shared operation of Machine/Ops.lean, Operands.lean and HostPort.lean can do, said once. -/

namespace Sys2Proof.Machine

/-! ### Checks -/

@[simp] theorem check_true (c : Cause) (i : Instr) (s : State) (k : Result) : check true c i s k = k := rfl

@[simp] theorem check_false (c : Cause) (i : Instr) (s : State) (k : Result) : check false c i s k = raise c i s := rfl

/-- A check either goes on or raises its cause. -/
theorem check_cases (ok : Bool) (c : Cause) (i : Instr) (s : State) (k : Result) :
    (ok = true ∧ check ok c i s k = k) ∨ (ok = false ∧ check ok c i s k = .next (s.takeFault c (encode i))) := by
  cases ok
  · exact .inr ⟨rfl, rfl⟩
  · exact .inl ⟨rfl, rfl⟩

/-- The fill-count check is equality with the capacity (60_exceptions.md R205). -/
theorem filled_iff (s : State) (b : Buf) : s.filled b = true ↔ (s.getLen b).toNat = cap s.build b := by
  simp [State.filled]

theorem needFilled_pos {s : State} {b : Buf} (h : (s.getLen b).toNat = cap s.build b) (i : Instr) (k : Result) :
    needFilled b i s k = k := by
  rw [needFilled, (filled_iff s b).mpr h, check_true]

theorem needFilled_neg {s : State} {b : Buf} (h : (s.getLen b).toNat ≠ cap s.build b) (i : Instr) (k : Result) :
    needFilled b i s k = .next (s.takeFault .precond (encode i)) := by
  have : s.filled b = false := by
    rw [← Bool.not_eq_true, filled_iff]; exact h
  rw [needFilled, this, check_false, raise]

theorem needBelow_pos {idx : BitVec 16} {limit : Nat} (h : idx.toNat < limit) (i : Instr) (s : State) (k : Result) :
    needBelow idx limit i s k = k := by
  simp [needBelow, h]

theorem needBelow_neg {idx : BitVec 16} {limit : Nat} (h : limit ≤ idx.toNat) (i : Instr) (s : State) (k : Result) :
    needBelow idx limit i s k = .next (s.takeFault .range (encode i)) := by
  simp [needBelow, Nat.not_lt.mpr h, raise]

theorem needSeeded_pos {s : State} (h : s.status.seeded = true) (i : Instr) (k : Result) : needSeeded i s k = k := by
  simp [needSeeded, h]

theorem needSeeded_neg {s : State} (h : s.status.seeded = false) (i : Instr) (k : Result) :
    needSeeded i s k = .next (s.takeFault .noSeed (encode i)) := by
  simp [needSeeded, h, raise]

/-! ### Buffer entries -/

/-- Read after write of an element buffer (20_memory.md R62). -/
theorem readE_writeE {s : State} {b : EBuf} (h : (s.getE b).wf = true) (b' : EBuf) (i k : Nat) (x : Elem) :
    (s.writeE b i x).readE b' k = if b' = b ∧ k = i then x else s.readE b' k := by
  unfold State.readE State.writeE
  rw [getE_setE]
  by_cases hb : b' = b
  · subst hb
    rw [if_pos rfl, Memory.read_write h]
    simp
  · simp [hb]

/-- Read after write of a byte buffer (20_memory.md R62). -/
theorem readB_writeB {s : State} {b : BBuf} (h : (s.getB b).wf = true) (b' : BBuf) (i k : Nat) (x : Byte) :
    (s.writeB b i x).readB b' k = if b' = b ∧ k = i then x else s.readB b' k := by
  unfold State.readB State.writeB
  rw [getB_setB]
  by_cases hb : b' = b
  · subst hb
    rw [if_pos rfl, Memory.read_write h]
    simp
  · simp [hb]

/-- What a read sees after entries `0 .. n-1` of an element buffer were replaced. -/
theorem readE_fillE {s : State} {b : EBuf} (h : (s.getE b).wf = true) (b' : EBuf) (n k : Nat) (f : Nat → Elem) :
    (s.fillE b n f).readE b' k = if b' = b ∧ k < n then f k else s.readE b' k := by
  unfold State.readE State.fillE
  rw [getE_setE]
  by_cases hb : b' = b
  · subst hb
    rw [if_pos rfl, Memory.read_fill h]
    simp
  · simp [hb]

/-- What a read sees after entries `0 .. n-1` of a byte buffer were replaced. -/
theorem readB_fillB {s : State} {b : BBuf} (h : (s.getB b).wf = true) (b' : BBuf) (n k : Nat) (f : Nat → Byte) :
    (s.fillB b n f).readB b' k = if b' = b ∧ k < n then f k else s.readB b' k := by
  unfold State.readB State.fillB
  rw [getB_setB]
  by_cases hb : b' = b
  · subst hb
    rw [if_pos rfl, Memory.read_fill h]
    simp
  · simp [hb]

/-- Reads depend on the storage alone. -/
theorem readE_congr {s t : State} {b : EBuf} (h : t.getE b = s.getE b) (k : Nat) : t.readE b k = s.readE b k := by
  rw [State.readE, State.readE, h]

theorem readB_congr {s t : State} {b : BBuf} (h : t.getB b = s.getB b) (k : Nat) : t.readB b k = s.readB b k := by
  rw [State.readB, State.readB, h]

@[simp] theorem readE_setLen (s : State) (b : Buf) (x : Word) (b' : EBuf) (k : Nat) :
    (s.setLen b x).readE b' k = s.readE b' k := by simp [State.readE]

@[simp] theorem readB_setLen (s : State) (b : Buf) (x : Word) (b' : BBuf) (k : Nat) :
    (s.setLen b x).readB b' k = s.readB b' k := by simp [State.readB]

@[simp] theorem readE_declareFull (s : State) (b : Buf) (b' : EBuf) (k : Nat) :
    (s.declareFull b).readE b' k = s.readE b' k := by simp [State.declareFull]

@[simp] theorem readB_declareFull (s : State) (b : Buf) (b' : BBuf) (k : Nat) :
    (s.declareFull b).readB b' k = s.readB b' k := by simp [State.declareFull]

@[simp] theorem readE_setG (s : State) (r : GReg) (x : Elem) (b' : EBuf) (k : Nat) :
    (s.setG r x).readE b' k = s.readE b' k := by simp [State.readE]

@[simp] theorem readB_setG (s : State) (r : GReg) (x : Elem) (b' : BBuf) (k : Nat) :
    (s.setG r x).readB b' k = s.readB b' k := by simp [State.readB]

@[simp] theorem readE_setDrbg (s : State) (kv : Bytes32 × Bytes16) (b' : EBuf) (k : Nat) :
    (s.setDrbg kv).readE b' k = s.readE b' k := by simp [State.readE]

@[simp] theorem readB_setDrbg (s : State) (kv : Bytes32 × Bytes16) (b' : BBuf) (k : Nat) :
    (s.setDrbg kv).readB b' k = s.readB b' k := by simp [State.readB]

@[simp] theorem readE_takeFault (s : State) (c : Cause) (w : Word) (b' : EBuf) (k : Nat) :
    (s.takeFault c w).readE b' k = s.readE b' k := by simp [State.readE]

@[simp] theorem readB_takeFault (s : State) (c : Cause) (w : Word) (b' : BBuf) (k : Nat) :
    (s.takeFault c w).readB b' k = s.readB b' k := by simp [State.readB]

@[simp] theorem readB_fillE (s : State) (b : EBuf) (n : Nat) (f : Nat → Elem) (b' : BBuf) (k : Nat) :
    (s.fillE b n f).readB b' k = s.readB b' k := by simp [State.readB, State.fillE]

@[simp] theorem readE_fillB (s : State) (b : BBuf) (n : Nat) (f : Nat → Byte) (b' : EBuf) (k : Nat) :
    (s.fillB b n f).readE b' k = s.readE b' k := by simp [State.readE, State.fillB]

/-! ### Fill counts -/

/-- What a valid build's ranges say, as a conjunction (00_scope.md R5 to R9). -/
theorem valid_iff (c : Build) : c.valid = true ↔
    (2 ≤ c.m ∧ c.m ≤ 16) ∧ (c.poly.toNat < 2 ^ (c.m + 1) ∧ c.poly.getLsbD c.m = true ∧ c.poly.getLsbD 0 = true) ∧
      (1 ≤ c.t ∧ c.t ≤ 32767) ∧ (1 ≤ c.n ∧ c.n ≤ 2 ^ c.m) ∧ 1 ≤ c.outMax ∧ c.outMax ≤ 65535 := by
  simp only [Build.valid, Bool.and_eq_true, decide_eq_true_eq]
  tauto

/-- Every capacity of an existing build fits a 32-bit fill count (10_state.md R34). -/
theorem cap_lt {c : Build} (h : c.valid = true) (b : Buf) : cap c b < 2 ^ 32 := by
  obtain ⟨⟨_, h16⟩, -, ⟨-, ht⟩, ⟨-, hn⟩, -, ho⟩ := (valid_iff c).mp h
  have hq : 2 ^ c.m ≤ 65536 := by
    have := Nat.pow_le_pow_right (n := 2) (by norm_num) h16; simpa using this
  have hh : 2 ^ (c.m - 1) ≤ 32768 := by
    have := Nat.pow_le_pow_right (n := 2) (by norm_num) (show c.m - 1 ≤ 15 by omega); simpa using this
  have hcb : (2 * c.m - 1) * 2 ^ (c.m - 1) ≤ 31 * 32768 := Nat.mul_le_mul (by omega) hh
  have hpl : c.m * ((2 ^ c.m + 7) / 8) ≤ 16 * 8193 := Nat.mul_le_mul h16 (by omega)
  rcases b with (k | _ | _ | _) | (_ | _ | _ | _)
  · show c.t + 1 < 4294967296; omega
  · show 2 * c.t < 4294967296; omega
  · show 2 ^ c.m < 4294967296; omega
  · show c.n < 4294967296; omega
  · show ((2 * c.m - 1) * 2 ^ (c.m - 1) + 7) / 8 < 4294967296; omega
  · show c.m * ((2 ^ c.m + 7) / 8) < 4294967296; omega
  · show 48 < 4294967296; omega
  · show c.outMax < 4294967296; omega

@[simp] theorem getLen_declareFull_self {s : State} (h : s.build.valid = true) (b : Buf) :
    ((s.declareFull b).getLen b).toNat = cap s.build b := by
  rw [State.declareFull, getLen_setLen_self, BitVec.toNat_ofNat, Nat.mod_eq_of_lt (cap_lt h b)]

theorem getLen_declareFull_of_ne (s : State) {b b' : Buf} (h : b' ≠ b) : (s.declareFull b).getLen b' = s.getLen b' := by
  rw [State.declareFull, getLen_setLen, if_neg h]

/-! ### The host port -/

/-- Only offset 0x08 is CMD (10_state.md R41). -/
theorem hostReg_cmd {off : Nat} (h : hostReg off = some .cmd) : off = 0x08 := by
  unfold hostReg at h
  by_cases h8 : off = 0x08
  · exact h8
  · rw [if_neg h8] at h
    split_ifs at h <;> first | cases h | skip
    cases hb : Buf.ofNumber (BitVec.ofNat 4 ((off - 0x40) / 4)) <;> rw [hb] at h <;> cases h

/-- A write to a register other than CMD issues no command. -/
theorem hostWrite_snd {s : State} {off : Nat} (v : Word) (h : hostReg off ≠ some .cmd) :
    (s.hostWrite off v).2 = none := by
  unfold State.hostWrite
  split
  · contradiction
  all_goals rfl

/-- What an issued word hands on (60_exceptions.md R206). -/
theorem issue_snd {s : State} {w : Word} {i : Instr} (h : (s.issue w).2 = some i) :
    s.status.abort = false ∧ decode s.build.m w = .ok i ∧ s.issue w = (s, some i) := by
  unfold State.issue at h ⊢
  by_cases ha : s.status.abort = true
  · rw [if_pos ha] at h; cases h
  · rw [if_neg ha] at h ⊢
    cases hd : decode s.build.m w with
    | error e => rw [hd] at h; cases h
    | ok j =>
      rw [hd] at h
      cases h
      exact ⟨by simpa using ha, rfl, rfl⟩

/-- The transaction that issues a command is the only one after which a command is to be executed
(10_state.md R43). -/
theorem accept_some {s s' : State} {x : HostTxn} {i : Instr} (h : s.accept x = (s', some i)) :
    ∃ w, x = commandTxn w ∧ s' = s ∧ s.status.abort = false ∧ decode s.build.m w = .ok i := by
  have h2 : (s.accept x).2 = some i := by rw [h]
  cases x with
  | reset => cases h2
  | read width off => cases h2
  | write width off v =>
    unfold State.accept at h h2
    by_cases hw : width = 32
    · simp only [hw, if_true] at h h2
      by_cases hr : hostReg off = some .cmd
      · have hoff := hostReg_cmd hr
        have hi : s.hostWrite off v = s.issue v := by unfold State.hostWrite; rw [hr]
        rw [hi] at h h2
        obtain ⟨ha, hd, he⟩ := issue_snd h2
        rw [he] at h
        exact ⟨v, by rw [hw, hoff]; rfl, (congrArg Prod.fst h).symm, ha, hd⟩
      · rw [hostWrite_snd v hr] at h2; cases h2
    · simp only [hw, if_false] at h2; cases h2

/-- The host's write of a command word is issued. -/
theorem accept_command (s : State) (w : Word) : s.accept (commandTxn w) = s.issue w := by
  simp [State.accept, commandTxn, State.hostWrite, hostReg]

end Sys2Proof.Machine
end

