-- ==== Sys2Proof/Laws/Exec.lean ====
section
/-! SUPPORT. What the execution of a command can do, said once: the fault of the first failing check, or the command's own
effect (60_exceptions.md R206, steps 3 to 6). -/

namespace Sys2Proof.Machine

/-- The effect of a command whose checks hold. -/
def effect (i : Instr) (s : State) : State :=
  match i with
  | .nop => s
  | .ldi gd imm => s.setG gd (lowBits s.build.m imm)
  | .lde gd b idx => s.setG gd (s.readE b idx.toNat)
  | .ste gs b idx => s.writeE b idx.toNat (s.getG gs)
  | .setfull b => s.declareFull b
  | .gfAdd gd gs1 gs2 => s.setG gd (add (s.getG gs1) (s.getG gs2))
  | .gfMul gd gs1 gs2 => s.setG gd (mul s.build (s.getG gs1) (s.getG gs2))
  | .gfInv gd gs => s.setG gd (inv s.build (s.getG gs))
  | .gfFrac gd gden gnum => s.setG gd (frac s.build (s.getG gden) (s.getG gnum))
  | .gfIszero gd gs => s.setG gd (iszero s.build.m (s.getG gs))
  | .gfBitrev gd gs => s.setG gd (bitrev s.build.m (s.getG gs))
  | .plEval gd ps ga => s.setG gd (eval s.build (s.readE (.p ps)) (s.getG ga))
  | .bmRun pd =>
    (s.fillE (.p pd) (s.build.t + 1) (locator s.build (s.readE .syn))).declareFull (.elem (.p pd))
  | .bnEnc =>
    { (s.fillB .cb s.build.cbytes (packCtrl s.build s.encBits)).declareFull (.byte .cb) with draws := s.drawsAfterEnc }
  | .bnApply rev => s.fillB .pl s.build.plTotal (packPlane s.build (s.routedPlanes rev) (s.readB .pl))
  | .bnSup =>
    (((s.fillB .pl s.build.plTotal (packPlane s.build s.supportPlanes (fun _ => 0))).declareFull
      (.byte .pl)).fillE .sup s.build.n s.supportEntry).declareFull (.elem .sup)
  | .rbInit => initWith Config.cipher s
  | .rbUpd pd => updateWith Config.cipher pd s
  | .rbGen n => generateWith Config.cipher n.toNat s

/-- A decoded command raises the fault of its first failing check, or has its effect. -/
theorem exec_eq {i : Instr} {s : State} (h : WellFormed s.build.m i = true) :
    exec i s = match faultOf s i with
      | some c => raise c i s
      | none => .next (effect i s) := by
  cases i with
  | ldi gd imm =>
    have h' : imm.toNat < 2 ^ s.build.m := by simpa [WellFormed] using h
    simp [exec, execLdi, check, h', faultOf, rangeFails, seedFails, fillFails, fillRequired, effect]
  | lde gd b idx =>
    by_cases hb : idx.toNat < capE s.build b
    · simp [exec, execLde, needBelow, check, hb, faultOf, rangeFails, seedFails, fillFails, fillRequired, effect,
        Nat.not_le.mpr hb]
    · simp [exec, execLde, needBelow, check, hb, faultOf, rangeFails, Nat.not_lt.mp hb]
  | ste gs b idx =>
    by_cases hb : idx.toNat < capE s.build b
    · simp [exec, execSte, needBelow, check, hb, faultOf, rangeFails, seedFails, fillFails, fillRequired, effect,
        Nat.not_le.mpr hb]
    · simp [exec, execSte, needBelow, check, hb, faultOf, rangeFails, Nat.not_lt.mp hb]
  | plEval gd ps ga =>
    by_cases hb : (s.getLen (.elem (.p ps))).toNat = s.build.t + 1
    · simp [exec, execPlEval, needFilled, check, State.filled, cap, capE, hb, faultOf, rangeFails, seedFails, fillFails,
        fillRequired, effect]
    · simp [exec, execPlEval, needFilled, check, State.filled, cap, capE, hb, faultOf, rangeFails, seedFails, fillFails,
        fillRequired]
  | bmRun pd =>
    by_cases hb : (s.getLen (.elem .syn)).toNat = 2 * s.build.t
    · simp [exec, execBmRun, needFilled, check, State.filled, cap, capE, hb, faultOf, rangeFails, seedFails, fillFails,
        fillRequired, effect]
    · simp [exec, execBmRun, needFilled, check, State.filled, cap, capE, hb, faultOf, rangeFails, seedFails, fillFails,
        fillRequired]
  | bnEnc =>
    by_cases hb : (s.getLen (.elem .perm)).toNat = 2 ^ s.build.m
    · simp [exec, execBnEnc, needFilled, check, State.filled, cap, capE, Build.q, hb, faultOf, rangeFails, seedFails,
        fillFails, fillRequired, effect]
    · simp [exec, execBnEnc, needFilled, check, State.filled, cap, capE, Build.q, hb, faultOf, rangeFails, seedFails,
        fillFails, fillRequired]
  | bnApply rev =>
    by_cases hb : (s.getLen (.byte .cb)).toNat = s.build.cbytes
    · by_cases hp : (s.getLen (.byte .pl)).toNat = s.build.plTotal
      · simp [exec, execBnApply, needFilled, check, State.filled, cap, capB, hb, hp, faultOf, rangeFails, seedFails,
          fillFails, fillRequired, effect]
      · simp [exec, execBnApply, needFilled, check, State.filled, cap, capB, hb, hp, faultOf, rangeFails, seedFails,
          fillFails, fillRequired]
    · simp [exec, execBnApply, needFilled, check, State.filled, cap, capB, hb, faultOf, rangeFails, seedFails,
        fillFails, fillRequired]
  | bnSup =>
    by_cases hb : (s.getLen (.byte .cb)).toNat = s.build.cbytes
    · simp [exec, execBnSup, needFilled, check, State.filled, cap, capB, hb, faultOf, rangeFails, seedFails, fillFails,
        fillRequired, effect]
    · simp [exec, execBnSup, needFilled, check, State.filled, cap, capB, hb, faultOf, rangeFails, seedFails, fillFails,
        fillRequired]
  | rbInit =>
    by_cases hb : (s.getLen (.byte .ent)).toNat = 48
    · simp [exec, execRbInit, needFilled, check, State.filled, cap, capB, hb, faultOf, rangeFails, seedFails, fillFails,
        fillRequired, effect]
    · simp [exec, execRbInit, needFilled, check, State.filled, cap, capB, hb, faultOf, rangeFails, seedFails, fillFails,
        fillRequired]
  | rbUpd pd =>
    cases hs : s.status.seeded
    · simp [exec, execRbUpd, needSeeded, check, hs, faultOf, rangeFails, seedFails]
    · cases pd
      · simp [exec, execRbUpd, needSeeded, check, hs, faultOf, rangeFails, seedFails, fillFails, fillRequired, effect]
      · by_cases hb : (s.getLen (.byte .ent)).toNat = 48
        · simp [exec, execRbUpd, needSeeded, check, State.filled, cap, capB, hb, hs, faultOf, rangeFails, seedFails,
            fillFails, fillRequired, effect]
        · simp [exec, execRbUpd, needSeeded, check, State.filled, cap, capB, hb, hs, faultOf, rangeFails, seedFails,
            fillFails, fillRequired]
  | rbGen n =>
    by_cases hb : n.toNat ≤ s.build.outMax
    · cases hs : s.status.seeded
      · simp [exec, execRbGen, needSeeded, check, hb, hs, faultOf, rangeFails, seedFails, Nat.not_lt.mpr hb]
      · simp [exec, execRbGen, needSeeded, check, hb, hs, faultOf, rangeFails, seedFails, fillFails, fillRequired, effect,
          Nat.not_lt.mpr hb]
    · simp [exec, execRbGen, check, hb, faultOf, rangeFails, Nat.not_le.mp hb]
  | _ => simp [exec, faultOf, rangeFails, seedFails, fillFails, fillRequired, effect, execNop, execSetfull, execGfAdd,
      execGfMul, execGfInv, execGfFrac, execGfIszero, execGfBitrev]

/-- The ill-formed terms are the LDI terms whose immediate is too large; their meaning is the ILLEGAL fault. -/
theorem exec_of_not_wellFormed {i : Instr} {s : State} (h : WellFormed s.build.m i = false) :
    exec i s = raise .illegal i s := by
  cases i with
  | ldi gd imm =>
    have h' : ¬ imm.toNat < 2 ^ s.build.m := by simpa [WellFormed] using h
    simp [exec, execLdi, check, h']
  | _ => simp [WellFormed] at h

/-- Every command answers a next state: a fault of the hardware or the command's effect. -/
theorem exec_cases (i : Instr) (s : State) :
    (∃ c, exec i s = .next (s.takeFault c (encode i))) ∨
      (WellFormed s.build.m i = true ∧ faultOf s i = none ∧ exec i s = .next (effect i s)) := by
  cases h : WellFormed s.build.m i
  · exact .inl ⟨.illegal, exec_of_not_wellFormed h⟩
  · cases hf : faultOf s i with
    | some c => exact .inl ⟨c, by rw [exec_eq h, hf]; rfl⟩
    | none => exact .inr ⟨rfl, rfl, by rw [exec_eq h, hf]⟩

end Sys2Proof.Machine
end

