-- ==== Sys2Proof/Laws/HostPort.lean ====
section
/-! SUPPORT. The register map and BUFADDR read backwards: which register an offset is, which buffer a number names
(10_state.md R26, R41, R42). -/

namespace Sys2Proof.Machine

/-- The slot of a fill count (10_state.md R41). -/
theorem hostReg_len (b : Buf) : hostReg (0x40 + 4 * b.number.toNat) = some (.len b) := by
  rcases b with ((k | _ | _ | _) | (_ | _ | _ | _))
  · revert k; decide
  all_goals decide

/-- Past the named registers the map holds the fill counts and nothing else (10_state.md R41). -/
theorem hostReg_of_not_named {off : Nat}
    (h : off ∉ [0x00, 0x04, 0x08, 0x0C, 0x10, 0x20, 0x24, 0x28, 0x2C, 0x30]) :
    hostReg off = if 0x40 ≤ off ∧ off < 0x80 ∧ off % 4 = 0 then
      (Buf.ofNumber (BitVec.ofNat 4 ((off - 0x40) / 4))).map .len else none := by
  simp only [List.mem_cons, List.not_mem_nil, or_false, not_or] at h
  obtain ⟨h0, h1, h2, h3, h4, h5, h6, h7, h8, h9⟩ := h
  unfold hostReg
  rw [if_neg h0, if_neg h1, if_neg h2, if_neg h3, if_neg h4, if_neg h5, if_neg h6, if_neg h7, if_neg h8, if_neg h9]

/-- An offset that is neither a named register nor the slot of a fill count is reserved (10_state.md R41). -/
theorem hostReg_reserved {off : Nat} (h : off ∉ [0x00, 0x04, 0x08, 0x0C, 0x10, 0x20, 0x24, 0x28, 0x2C, 0x30])
    (hl : ∀ b : Buf, off ≠ 0x40 + 4 * b.number.toNat) : hostReg off = none := by
  rw [hostReg_of_not_named h]
  split
  · next hr =>
    rw [Option.map_eq_none_iff]
    by_contra hc
    obtain ⟨b, hb⟩ := Option.ne_none_iff_exists'.mp hc
    apply hl b
    rw [Buf.number_of_ofNumber hb, BitVec.toNat_ofNat]
    omega
  · rfl

/-- No element buffer shares its number with a byte buffer (10_state.md R26). -/
theorem number_elem_ne_byte (b : EBuf) (b' : BBuf) : b.number ≠ b'.number := by
  rcases b with (k | _ | _ | _) <;> cases b' <;> first | decide | (revert k; decide)

/-- No buffer that has a fill count has the number of the `G` window (10_state.md R26). -/
theorem number_ne_window (b : Buf) : b.number ≠ 7 := by
  rcases b with ((k | _ | _ | _) | (_ | _ | _ | _)) <;> first | decide | (revert k; decide)

/-- The buffer BUFADDR addresses, from its number (10_state.md R42). -/
theorem hostBuf_of_number {a : Word} {b : Buf} (h : a.extractLsb' 28 4 = b.number) : hostBuf a = some (.buf b) := by
  unfold hostBuf
  rw [if_neg (by rw [h]; exact number_ne_window b), h, Buf.ofNumber_number]
  rfl

/-- The number in BUFADDR, from the buffer it addresses (10_state.md R42). -/
theorem number_of_hostBuf {a : Word} {b : Buf} (h : hostBuf a = some (.buf b)) : a.extractLsb' 28 4 = b.number := by
  unfold hostBuf at h
  split_ifs at h
  · cases h
  obtain ⟨b', hb, he⟩ := Option.map_eq_some_iff.mp h
  cases he
  exact (Buf.number_of_ofNumber hb).symm

/-- Number 7 is the `G` window and nothing else is (10_state.md R26). -/
theorem hostBuf_window (a : Word) : hostBuf a = some .window ↔ a.extractLsb' 28 4 = 7 := by
  unfold hostBuf
  split_ifs with h
  · exact iff_of_true rfl h
  · refine iff_of_false ?_ h
    intro hm
    obtain ⟨b', _, he⟩ := Option.map_eq_some_iff.mp hm
    cases he

end Sys2Proof.Machine
end

