-- ==== Sys2Proof/Laws/Invariant.lean ====
section
/-! SUPPORT. What is listed decides what is read: the invariant of a concrete state follows from a finite check of its
lists. -/

namespace Sys2Proof.Machine

/-- A property of 0 and of every listed entry holds of every entry that can be read. -/
theorem Memory.read_of_listed {w : Nat} {P : BitVec w → Prop} {mem : Memory w} (h0 : P 0)
    (h : ∀ c ∈ mem, P c.2) (i : Nat) : P (mem.read i) := by
  induction mem with
  | nil => exact h0
  | cons c rest ih =>
    rw [Memory.read_cons]
    split
    · exact h c (by simp)
    · exact ih (fun c hc => h c (by simp [hc]))

/-- Where every listed index is below `n`, nothing is read at `n` or above. -/
theorem Memory.read_above {w n i : Nat} {mem : Memory w} (h : ∀ c ∈ mem, c.1 < n) (hi : n ≤ i) :
    mem.read i = 0 := by
  apply Memory.read_eq_zero_of_not_mem
  intro hm
  obtain ⟨c, hc, rfl⟩ := List.mem_map.mp hm
  exact absurd (h c hc) (by omega)

/-- The finite check of an element buffer. -/
def elemsCheck (m capacity : Nat) (mem : Memory 16) : Bool :=
  mem.wf && mem.all (fun c => decide (c.1 < capacity) && decide (c.2.toNat < 2 ^ m))

theorem elemsOk_of_check {m capacity : Nat} {mem : Memory 16} (h : elemsCheck m capacity mem = true) :
    elemsOk m capacity mem := by
  simp only [elemsCheck, Bool.and_eq_true, List.all_eq_true, decide_eq_true_eq] at h
  exact ⟨h.1, fun i hi => Memory.read_above (fun c hc => (h.2 c hc).1) hi,
    fun i => Memory.read_of_listed (P := fun x => x.toNat < 2 ^ m) (by simp) (fun c hc => (h.2 c hc).2) i⟩

/-- The finite check of a byte buffer. -/
def bytesCheck (capacity : Nat) (mem : Memory 8) : Bool := mem.wf && mem.all (fun c => decide (c.1 < capacity))

theorem bytesOk_of_check {capacity : Nat} {mem : Memory 8} (h : bytesCheck capacity mem = true) :
    bytesOk capacity mem := by
  simp only [bytesCheck, Bool.and_eq_true, List.all_eq_true, decide_eq_true_eq] at h
  exact ⟨h.1, fun i hi => Memory.read_above h.2 hi⟩

/-- The finite check of a state whose ABORT is 0. -/
def invCheck (s : State) : Bool :=
  s.build.valid && s.g.toList.all (fun x => decide (x.toNat < 2 ^ s.build.m))
    && s.p.toList.all (elemsCheck s.build.m (s.build.t + 1)) && elemsCheck s.build.m (2 * s.build.t) s.syn
    && elemsCheck s.build.m s.build.q s.perm && elemsCheck s.build.m s.build.n s.sup
    && bytesCheck s.build.cbytes s.cb && bytesCheck s.build.plTotal s.pl && bytesCheck 48 s.ent
    && bytesCheck s.build.outMax s.out
    && !s.status.busy && !s.status.abort && s.status.cause == 0 && s.fcmd == 0
    && (s.status.seeded || (s.key == Vector.replicate 32 0 && s.v == Vector.replicate 16 0))

theorem inv_of_check {s : State} (h : invCheck s = true) : Inv s := by
  simp only [invCheck, Bool.and_eq_true, Bool.or_eq_true, Bool.not_eq_true', List.all_eq_true, decide_eq_true_eq,
    beq_iff_eq] at h
  obtain ⟨⟨⟨⟨⟨⟨⟨⟨⟨⟨⟨⟨⟨⟨hb, hg⟩, hp⟩, hs⟩, hpm⟩, hsu⟩, hcb⟩, hpl⟩, he⟩, ho⟩, hbu⟩, ha⟩, hc⟩, hf⟩, hk⟩ := h
  refine ⟨hb, fun r => hg _ ?_, fun b => ?_, fun b => ?_, ⟨hbu, fun _ => ⟨hc, hf⟩, fun h1 => ?_⟩, fun hse => ?_⟩
  · simp [State.getG]
  · rcases b with (k | _ | _ | _)
    · exact elemsOk_of_check (hp _ (by simp [State.getE]))
    · exact elemsOk_of_check hs
    · exact elemsOk_of_check hpm
    · exact elemsOk_of_check hsu
  · cases b
    · exact bytesOk_of_check hcb
    · exact bytesOk_of_check hpl
    · exact bytesOk_of_check he
    · exact bytesOk_of_check ho
  · rw [ha] at h1; cases h1
  · rcases hk with hk | hk
    · rw [hse] at hk; cases hk
    · exact hk

end Sys2Proof.Machine
end

