-- ==== Sys2Proof/Laws/PerInstr.lean ====
section
/-! SUPPORT. The family of per-instruction laws: the word of a command carries the opcode of its row in bits 31:24
(30_encoding.md R71, R72, R75). -/

namespace Sys2Proof.Laws

/-- The opcode number of a command's row (30_encoding.md R75). -/
def opcodeNumber : Instr → BitVec 8
  | .nop => 0x00
  | .ldi _ _ => 0x01
  | .lde _ _ _ => 0x02
  | .ste _ _ _ => 0x03
  | .setfull _ => 0x04
  | .gfAdd _ _ _ => 0x10
  | .gfMul _ _ _ => 0x11
  | .gfInv _ _ => 0x12
  | .gfFrac _ _ _ => 0x13
  | .gfIszero _ _ => 0x14
  | .gfBitrev _ _ => 0x15
  | .plEval _ _ _ => 0x20
  | .bmRun _ => 0x21
  | .bnEnc => 0x30
  | .bnApply _ => 0x31
  | .bnSup => 0x32
  | .rbInit => 0x40
  | .rbUpd _ => 0x41
  | .rbGen _ => 0x42

/-- The word of command `i` has the opcode of its row in its `op` field. -/
def OpcodeField.Statement (i : Instr) : Prop := fieldOp (encode i) = opcodeNumber i

theorem OpcodeField.nop : OpcodeField.Statement .nop :=
  fieldOp_wordI _ _ _ _

theorem OpcodeField.ldi (gd : GReg) (imm : BitVec 16) : OpcodeField.Statement (.ldi gd imm) :=
  fieldOp_wordI _ _ _ _

theorem OpcodeField.lde (gd : GReg) (b : EBuf) (idx : BitVec 16) : OpcodeField.Statement (.lde gd b idx) :=
  fieldOp_wordI _ _ _ _

theorem OpcodeField.ste (gs : GReg) (b : EBuf) (idx : BitVec 16) : OpcodeField.Statement (.ste gs b idx) :=
  fieldOp_wordI _ _ _ _

theorem OpcodeField.setfull (b : Buf) : OpcodeField.Statement (.setfull b) :=
  fieldOp_wordI _ _ _ _

theorem OpcodeField.gfAdd (gd : GReg) (gs1 : GReg) (gs2 : GReg) : OpcodeField.Statement (.gfAdd gd gs1 gs2) :=
  fieldOp_wordR _ _ _ _

theorem OpcodeField.gfMul (gd : GReg) (gs1 : GReg) (gs2 : GReg) : OpcodeField.Statement (.gfMul gd gs1 gs2) :=
  fieldOp_wordR _ _ _ _

theorem OpcodeField.gfInv (gd : GReg) (gs : GReg) : OpcodeField.Statement (.gfInv gd gs) :=
  fieldOp_wordR _ _ _ _

theorem OpcodeField.gfFrac (gd : GReg) (gden : GReg) (gnum : GReg) : OpcodeField.Statement (.gfFrac gd gden gnum) :=
  fieldOp_wordR _ _ _ _

theorem OpcodeField.gfIszero (gd : GReg) (gs : GReg) : OpcodeField.Statement (.gfIszero gd gs) :=
  fieldOp_wordR _ _ _ _

theorem OpcodeField.gfBitrev (gd : GReg) (gs : GReg) : OpcodeField.Statement (.gfBitrev gd gs) :=
  fieldOp_wordR _ _ _ _

theorem OpcodeField.plEval (gd : GReg) (ps : PReg) (ga : GReg) : OpcodeField.Statement (.plEval gd ps ga) :=
  fieldOp_wordR _ _ _ _

theorem OpcodeField.bmRun (pd : PReg) : OpcodeField.Statement (.bmRun pd) :=
  fieldOp_wordI _ _ _ _

theorem OpcodeField.bnEnc : OpcodeField.Statement .bnEnc :=
  fieldOp_wordI _ _ _ _

theorem OpcodeField.bnApply (rev : Bool) : OpcodeField.Statement (.bnApply rev) :=
  fieldOp_wordI _ _ _ _

theorem OpcodeField.bnSup : OpcodeField.Statement .bnSup :=
  fieldOp_wordI _ _ _ _

theorem OpcodeField.rbInit : OpcodeField.Statement .rbInit :=
  fieldOp_wordI _ _ _ _

theorem OpcodeField.rbUpd (pd : Bool) : OpcodeField.Statement (.rbUpd pd) :=
  fieldOp_wordI _ _ _ _

theorem OpcodeField.rbGen (n : BitVec 16) : OpcodeField.Statement (.rbGen n) :=
  fieldOp_wordI _ _ _ _

end Sys2Proof.Laws
end

