-- ==== Sys2Proof/Laws/PolyOf.lean ====
section
/-! SUPPORT. The polynomial over GF(2) a bit vector stands for (00_scope.md R15): its coefficients, sums, shifts and
degree. -/

namespace Sys2Proof.Machine

open Polynomial

/-- Coefficient `n` is bit `n`. -/
theorem coeff_polyOf {w : Nat} (x : BitVec w) (n : Nat) : (polyOf x).coeff n = if x.getLsbD n then 1 else 0 := by
  have h : ∀ i ∈ Finset.range w, (if x.getLsbD i then (X ^ i : Polynomial (ZMod 2)) else 0).coeff n =
      if i = n then (if x.getLsbD n then 1 else 0) else 0 := by
    intro i _
    by_cases hi : i = n
    · subst hi
      by_cases hx : x.getLsbD i = true <;> simp [hx]
    · by_cases hx : x.getLsbD i = true
      · simp [hx, coeff_X_pow, Ne.symm hi, hi]
      · simp [hx, hi]
  rw [polyOf, finsetSum_coeff, Finset.sum_congr rfl h, Finset.sum_ite_eq']
  by_cases hn : n < w
  · simp [hn]
  · simp [hn, BitVec.getLsbD_of_ge x n (by omega)]

/-- Equal polynomials are equal vectors. -/
theorem polyOf_inj {w : Nat} {x y : BitVec w} (h : polyOf x = polyOf y) : x = y := by
  apply BitVec.eq_of_getLsbD_eq
  intro i _
  have := congrArg (fun p => p.coeff i) h
  simp only [coeff_polyOf] at this
  by_cases hx : x.getLsbD i = true <;> by_cases hy : y.getLsbD i = true <;> simp_all

@[simp] theorem polyOf_zero (w : Nat) : polyOf (0#w) = 0 := by
  ext n; simp [coeff_polyOf]

theorem polyOf_one {w : Nat} (h : 0 < w) : polyOf (1#w) = 1 := by
  ext n
  rw [coeff_polyOf, coeff_one]
  by_cases hn : n = 0
  · simp [hn, h]
  · simp [hn]

/-- Addition of polynomials is XOR (40_field_arithmetic.md R90). -/
theorem polyOf_xor {w : Nat} (x y : BitVec w) : polyOf (x ^^^ y) = polyOf x + polyOf y := by
  ext n
  rw [coeff_add, coeff_polyOf, coeff_polyOf, coeff_polyOf, BitVec.getLsbD_xor]
  cases x.getLsbD n <;> cases y.getLsbD n <;> simp
  decide

/-- Zero-extension and the removal of zero bits keep the polynomial. -/
theorem polyOf_setWidth {w v : Nat} {x : BitVec w} (h : x.toNat < 2 ^ v) : polyOf (x.setWidth v) = polyOf x := by
  ext n
  rw [coeff_polyOf, coeff_polyOf, BitVec.getLsbD_setWidth]
  by_cases hn : n < v
  · simp [hn]
  · simp [hn, (lt_two_pow_iff_bits x v).1 h n (by omega)]

/-- A left shift that drops no bit multiplies by a power of `x`. -/
theorem polyOf_shiftLeft {w k : Nat} {x : BitVec w} (h : x.toNat * 2 ^ k < 2 ^ w) :
    polyOf (x <<< k) = polyOf x * X ^ k := by
  ext n
  rw [coeff_polyOf, coeff_mul_X_pow', BitVec.getLsbD_shiftLeft]
  by_cases hk : k ≤ n
  · rw [if_pos hk, coeff_polyOf]
    by_cases hn : n < w
    · simp [hn, Nat.not_lt.mpr hk]
    · have hx : x.toNat < 2 ^ (n - k) := by
        have h2 : 2 ^ w ≤ 2 ^ (n - k) * 2 ^ k := by
          rw [← pow_add]; exact Nat.pow_le_pow_right (by omega) (by omega)
        exact Nat.lt_of_mul_lt_mul_right (lt_of_lt_of_le h h2)
      simp [hn, (lt_two_pow_iff_bits x (n - k)).1 hx (n - k) (le_refl _)]
  · rw [if_neg hk]; simp [Nat.lt_of_not_le hk]

/-- A vector below `2^m` is a polynomial of degree below `m`. -/
theorem degree_polyOf_lt {w m : Nat} {x : BitVec w} : (polyOf x).degree < m ↔ x.toNat < 2 ^ m := by
  rw [degree_lt_iff_coeff_zero, lt_two_pow_iff_bits]
  refine forall_congr' fun i => imp_congr_right fun _ => ?_
  rw [coeff_polyOf]
  cases x.getLsbD i <;> simp

/-- `POLY` of an existing build is monic of degree `M` (00_scope.md R6). -/
theorem polyOf_poly {c : Build} (h : c.valid = true) :
    (polyOf c.poly).Monic ∧ (polyOf c.poly).natDegree = c.m ∧ (polyOf c.poly).degree = c.m := by
  have hv := (valid_iff c).1 h
  have hm : c.poly.getLsbD c.m = true := by tauto
  have hlt : (polyOf c.poly).degree < (c.m + 1 : Nat) := degree_polyOf_lt.2 (by tauto)
  have hc : (polyOf c.poly).coeff c.m = 1 := by rw [coeff_polyOf, hm]; rfl
  have hd : (polyOf c.poly).natDegree = c.m := by
    apply le_antisymm
    · exact Nat.lt_succ_iff.mp ((natDegree_lt_iff_degree_lt (by rintro h0; simp [h0] at hc)).2 hlt)
    · exact le_natDegree_of_ne_zero (by rw [hc]; exact one_ne_zero)
  refine ⟨?_, hd, ?_⟩
  · rw [Monic, leadingCoeff, hd, hc]
  · rw [degree_eq_natDegree (by rintro h0; simp [h0] at hc), hd]

end Sys2Proof.Machine
end

