-- ==== Sys2Proof/Laws/Step.lean ====
section
/-! SUPPORT. What one step can do, said once (20_memory.md R61): idle, a transaction that issues no command, or the
execution of the command it issued. -/

namespace Sys2Proof.Machine

/-- With a transaction waiting, the step performs it. -/
theorem step_cons {s : State} {x : HostTxn} {rest : List HostTxn} (hv : s.build.valid = true)
    (hp : s.port = x :: rest) :
    step s = match State.accept { s with port := rest } x with
      | (s2, none) => .next s2
      | (s2, some i) => exec i s2 := by
  unfold step State.nextTxn
  simp only [hv, if_true, hp]
  all_goals rfl

/-- A transaction that issues no command. -/
theorem step_accept {s t : State} {x : HostTxn} {rest : List HostTxn} (hv : s.build.valid = true)
    (hp : s.port = x :: rest) (h : State.accept { s with port := rest } x = (t, none)) : step s = .next t := by
  rw [step_cons hv hp, h]

/-- A transaction that issues a command. -/
theorem step_exec {s t : State} {x : HostTxn} {rest : List HostTxn} {i : Instr} (hv : s.build.valid = true)
    (hp : s.port = x :: rest) (h : State.accept { s with port := rest } x = (t, some i)) : step s = exec i t := by
  rw [step_cons hv hp, h]

/-- With nothing waiting the unit is idle. -/
theorem step_idle {s : State} (hv : s.build.valid = true) (hp : s.port = []) : step s = .next s := by
  unfold step State.nextTxn
  simp only [hv, if_true, hp]

/-- Everything a step that answers a next state can have done. -/
theorem step_cases {s t : State} (h : step s = .next t) : s.build.valid = true ∧
    ((s.port = [] ∧ t = s) ∨
      (∃ x rest, s.port = x :: rest ∧ State.accept { s with port := rest } x = (t, none)) ∨
      (∃ w rest i, s.port = commandTxn w :: rest ∧ s.status.abort = false ∧ decode s.build.m w = .ok i ∧
        exec i { s with port := rest } = .next t)) := by
  by_cases hv : s.build.valid = true
  · refine ⟨hv, ?_⟩
    cases hp : s.port with
    | nil =>
      rw [step_idle hv hp] at h
      cases h
      exact .inl ⟨rfl, rfl⟩
    | cons x rest =>
      rcases ha : State.accept { s with port := rest } x with ⟨s2, _ | i⟩
      · rw [step_accept hv hp ha] at h
        cases h
        exact .inr (.inl ⟨x, rest, rfl, ha⟩)
      · rw [step_exec hv hp ha] at h
        obtain ⟨w, rfl, rfl, hab, hd⟩ := accept_some ha
        exact .inr (.inr ⟨w, rest, i, rfl, hab, hd, h⟩)
  · unfold step at h
    rw [if_neg hv] at h
    cases h

end Sys2Proof.Machine
end

