-- ==== Sys2Proof/Machine/Assembler.lean ====
section
/-! DEFINITION. The assembler's side of the command set: the spelling of a command (30_encoding.md R81) and the
pseudo-instructions with their expansions (R82). No step of the machine uses it. -/

namespace Sys2Proof

/-- The name of a buffer (10_state.md R26, 30_encoding.md R81). -/
def Buf.text : Buf → String
  | .elem (.p k) => "P" ++ toString k.toNat
  | .elem .syn => "S"
  | .elem .perm => "PERM"
  | .elem .sup => "SUP"
  | .byte .cb => "CB"
  | .byte .pl => "PL"
  | .byte .ent => "ENT"
  | .byte .out => "OUT"

/-- `g0` to `g15` (30_encoding.md R81). -/
def GReg.text (r : GReg) : String := "g" ++ toString r.toNat

/-- `p0` to `p3` (30_encoding.md R81). -/
def PReg.text (r : PReg) : String := "p" ++ toString r.toNat

/-- A mnemonic and its operands, separated by commas (30_encoding.md R81). -/
def asmLine (mnemonic : String) (operands : List String) : String :=
  if operands.isEmpty then mnemonic else mnemonic ++ " " ++ String.intercalate ", " operands

/-- The spelling of a command (30_encoding.md R81); immediates in decimal. -/
def Instr.text : Instr → String
  | .nop => asmLine "NOP" []
  | .ldi gd imm => asmLine "LDI" [GReg.text gd, toString imm.toNat]
  | .lde gd b idx => asmLine "LDE" [GReg.text gd, Buf.text (.elem b), toString idx.toNat]
  | .ste gs b idx => asmLine "STE" [GReg.text gs, Buf.text (.elem b), toString idx.toNat]
  | .setfull b => asmLine "SETFULL" [Buf.text b]
  | .gfAdd gd gs1 gs2 => asmLine "GF.ADD" [GReg.text gd, GReg.text gs1, GReg.text gs2]
  | .gfMul gd gs1 gs2 => asmLine "GF.MUL" [GReg.text gd, GReg.text gs1, GReg.text gs2]
  | .gfInv gd gs => asmLine "GF.INV" [GReg.text gd, GReg.text gs]
  | .gfFrac gd gden gnum => asmLine "GF.FRAC" [GReg.text gd, GReg.text gden, GReg.text gnum]
  | .gfIszero gd gs => asmLine "GF.ISZERO" [GReg.text gd, GReg.text gs]
  | .gfBitrev gd gs => asmLine "GF.BITREV" [GReg.text gd, GReg.text gs]
  | .plEval gd ps ga => asmLine "PL.EVAL" [GReg.text gd, PReg.text ps, GReg.text ga]
  | .bmRun pd => asmLine "BM.RUN" [PReg.text pd]
  | .bnEnc => asmLine "BN.ENC" []
  | .bnApply rev => asmLine "BN.APPLY" [if rev then "rev" else "fwd"]
  | .bnSup => asmLine "BN.SUP" []
  | .rbInit => asmLine "RB.INIT" []
  | .rbUpd pd => asmLine "RB.UPD" [if pd then "pd" else "nopd"]
  | .rbGen n => asmLine "RB.GEN" [toString n.toNat]

/-- The pseudo-instructions (30_encoding.md R82). -/
inductive Pseudo where
  /-- `GF.SQ gd, gs`. -/
  | sq (gd gs : GReg)
  /-- `GF.SUB gd, gs1, gs2`. -/
  | sub (gd gs1 gs2 : GReg)
  /-- `GF.CLR gd`. -/
  | clr (gd : GReg)
  /-- `GF.ONE gd`. -/
  | one (gd : GReg)
  /-- `GF.DIV gd, gnum, gden`: the quotient order. -/
  | div (gd gnum gden : GReg)
deriving DecidableEq, Repr

/-- The command a pseudo-instruction stands for (30_encoding.md R82). -/
def Pseudo.expand : Pseudo → Instr
  | .sq gd gs => .gfMul gd gs gs
  | .sub gd gs1 gs2 => .gfAdd gd gs1 gs2
  | .clr gd => .ldi gd 0
  | .one gd => .ldi gd 1
  | .div gd gnum gden => .gfFrac gd gden gnum

end Sys2Proof
end

