-- ==== Sys2Proof/Tests/Slice0.lean ====
section
/-! SUPPORT. Tests: the words of 30_encoding.md written out field by field, the vectors of 95_test_vectors.md (the section is
named at each group), and for every statement with hypotheses a witness that meets them. -/

open Sys2Proof Sys2Proof.Machine

namespace Sys2Proof.Tests

set_option Elab.async false

/-! ### Helpers -/

/-- Small builds: M = 2, 3, 4 with the polynomials of 00_scope.md R6. -/
def b2 : Build := { m := 2, poly := 0x7, t := 1, n := 4, outMax := 64, encoder := .pinned }
def b3 : Build := { m := 3, poly := 0xB, t := 1, n := 6, outMax := 64, encoder := .pinned }
def b4 : Build := { m := 4, poly := 0x13, t := 2, n := 16, outMax := 64, encoder := .pinned }

/-- The state a result leaves. -/
def after : Result → Option State
  | .next s => some s
  | _ => none

/-- The state after reset with some registers set. -/
def withG (c : Build) (l : List (GReg × Elem)) : State := l.foldl (fun s x => s.setG x.1 x.2) (State.resetOf c)

/-- What one command leaves in a register. -/
def regAfter (i : Instr) (s : State) (r : GReg) : Option Elem := (after (exec i s)).map (fun t => t.getG r)

/-- The storage of a buffer that holds `l` from entry 0 up. -/
def store {w : Nat} (l : List (BitVec w)) : Memory w := Memory.fill [] l.length (fun i => l.getD i 0)

/-- The state one transaction leaves. -/
def perform (s : State) (x : HostTxn) : Option State := after (step { s with port := [x] })

/-- STATUS and FCMD after a transaction, as the host reads them. -/
def faultAfter (s : State) (x : HostTxn) : Option (Word × Word) :=
  (perform s x).map (fun t => (t.status.word, t.fcmd))

/-- The toy cipher of 95_test_vectors.md 2.7: byte `i` is `((blk[i] XOR key[i]) + key[16 + i] + i) mod 256`. -/
def toy : Cipher := fun key blk =>
  Vector.ofFn (fun (i : Fin 16) => (blk[i] ^^^ key[i.val]) + key[16 + i.val] + BitVec.ofNat 8 i.val)

/-- A unit with every fill count right, a seeded generator and data in every unit. -/
def full : State :=
  { State.resetOf b2 with
    g := (((Vector.replicate 16 0).set 1 1).set 2 2).set 3 3
    p := Vector.replicate 4 (store [1, 2])
    syn := store [1, 3]
    perm := store [2, 0, 3, 1]
    cb := store [0x25]
    pl := store [0x06, 0x0A]
    ent := store [1, 2, 3]
    len := Vector.ofFn (fun i => ([2, 2, 2, 2, 2, 4, 4, 1, 2, 48, 64] : List Word).getD i.val 0)
    key := Vector.replicate 32 5
    v := Vector.replicate 16 0xFF
    status := { busy := false, abort := false, seeded := true, cause := 0 } }

/-- `full` with wrong fill counts: each one entry above the capacity. -/
def miscounted : State := { full with len := full.len.map (· + 1) }

/-- `full` as a fault leaves it. -/
def aborted : State := full.takeFault .range 0x42000041

/-- `full` with a transaction waiting. -/
def waiting (x : HostTxn) : State := { full with port := [x] }

/-- One command of every row of the opcode map. -/
def oneOfEach : List Instr :=
  [.nop, .ldi 15 3, .lde 0 (.p 3) 1, .ste 15 .sup 3, .setfull (.byte .out), .gfAdd 1 2 3, .gfMul 1 2 3, .gfInv 1 0,
    .gfFrac 1 0 2, .gfIszero 1 0, .gfBitrev 1 2, .plEval 1 3 1, .bmRun 3, .bnEnc, .bnApply false, .bnApply true, .bnSup,
    .rbInit, .rbUpd false, .rbUpd true, .rbGen 64]

/-! ### WellFormed: the one check, at its boundary (30_encoding.md R74; 95_test_vectors.md 2.1) -/

theorem test_wf_refuses_ldi_of_two_to_the_m : WellFormed 13 (.ldi 1 0x2000) = false := by decide
theorem test_wf_accepts_the_largest_ldi : WellFormed 13 (.ldi 1 0x1FFF) = true := by decide
theorem test_wf_refuses_ldi_16_at_m4 : WellFormed 4 (.ldi 1 16) = false ∧ WellFormed 16 (.ldi 1 0xFFFF) = true := by
  decide

/-! ### Decoding: words written out field by field (30_encoding.md R71, R72, R75) -/

theorem test_decode_nop : decode 13 (0x00#8 ++ 0#4 ++ 0#4 ++ 0#16) = .ok .nop := by decide
theorem test_decode_ldi : decode 13 (0x01#8 ++ 1#4 ++ 0#4 ++ 0x1234#16) = .ok (.ldi 1 0x1234) := by decide
theorem test_decode_lde : decode 13 (0x02#8 ++ 2#4 ++ 6#4 ++ 0x0007#16) = .ok (.lde 2 .sup 7) := by decide
theorem test_decode_ste : decode 13 (0x03#8 ++ 1#4 ++ 4#4 ++ 0x0001#16) = .ok (.ste 1 .syn 1) := by decide
theorem test_decode_setfull : decode 13 (0x04#8 ++ 0#4 ++ 10#4 ++ 0#16) = .ok (.setfull (.byte .ent)) := by decide
theorem test_decode_gfAdd : decode 13 (0x10#8 ++ 3#4 ++ 1#4 ++ 2#4 ++ 0#12) = .ok (.gfAdd 3 1 2) := by decide
theorem test_decode_gfMul : decode 13 (0x11#8 ++ 3#4 ++ 1#4 ++ 2#4 ++ 0#12) = .ok (.gfMul 3 1 2) := by decide
theorem test_decode_gfInv : decode 13 (0x12#8 ++ 2#4 ++ 1#4 ++ 0#4 ++ 0#12) = .ok (.gfInv 2 1) := by decide
theorem test_decode_gfFrac : decode 13 (0x13#8 ++ 4#4 ++ 2#4 ++ 1#4 ++ 0#12) = .ok (.gfFrac 4 2 1) := by decide
theorem test_decode_gfIszero : decode 13 (0x14#8 ++ 4#4 ++ 3#4 ++ 0#4 ++ 0#12) = .ok (.gfIszero 4 3) := by decide
theorem test_decode_gfBitrev : decode 13 (0x15#8 ++ 5#4 ++ 1#4 ++ 0#4 ++ 0#12) = .ok (.gfBitrev 5 1) := by decide
theorem test_decode_plEval : decode 13 (0x20#8 ++ 5#4 ++ 1#4 ++ 4#4 ++ 0#12) = .ok (.plEval 5 1 4) := by decide
theorem test_decode_bmRun : decode 13 (0x21#8 ++ 3#4 ++ 0#4 ++ 0#16) = .ok (.bmRun 3) := by decide
theorem test_decode_bnEnc : decode 13 (0x30#8 ++ 0#4 ++ 0#4 ++ 0#16) = .ok .bnEnc := by decide
theorem test_decode_bnApply : decode 13 (0x31#8 ++ 0#4 ++ 0#4 ++ 1#16) = .ok (.bnApply true) := by decide
theorem test_decode_bnSup : decode 13 (0x32#8 ++ 0#4 ++ 0#4 ++ 0#16) = .ok .bnSup := by decide
theorem test_decode_rbInit : decode 13 (0x40#8 ++ 0#4 ++ 0#4 ++ 0#16) = .ok .rbInit := by decide
theorem test_decode_rbUpd : decode 13 (0x41#8 ++ 0#4 ++ 0#4 ++ 1#16) = .ok (.rbUpd true) := by decide
theorem test_decode_rbGen : decode 13 (0x42#8 ++ 0#4 ++ 0#4 ++ 0x0020#16) = .ok (.rbGen 32) := by decide

/-- The Illegal words of 95_test_vectors.md 2.1. -/
theorem test_decode_refuses_the_illegal_words :
    ([0x00000001, 0x00100000, 0x01102000, 0x01110005, 0x02170000, 0x02180000, 0x021C0000, 0x04070000, 0x040C0000,
      0x04140000, 0x04040001, 0x05000000, 0x10312001, 0x12211000, 0x16000000, 0x20541000, 0x20514001, 0x21400000,
      0x21100001, 0x21110000, 0x30100000, 0x31000002, 0x32000001, 0x40000001, 0x41000002, 0x42100020, 0x43000000,
      0xFFFFFFFF] : List Word).all (fun w => (decode 13 w).toOption.isNone) = true := by decide +kernel

/-- What a few of them are refused for (30_encoding.md R77). -/
theorem test_decode_names_the_reason :
    decode 13 0x05000000 = .error .unassignedOp ∧ decode 13 0x12211000 = .error .strayBits ∧
      decode 13 0x20541000 = .error .pRegister ∧ decode 13 0x040C0000 = .error .bufferNumber ∧
      decode 4 0x01100010 = .error .ldiImmediate := by decide

/-- The spelling of 30_encoding.md R81 and an expansion of R82. -/
theorem test_assembler : Instr.text (.gfFrac 4 2 1) = "GF.FRAC g4, g2, g1" ∧
    Instr.text (.lde 6 (.p 1) 0) = "LDE g6, P1, 0" ∧ Pseudo.expand (.div 4 1 2) = .gfFrac 4 2 1 := by decide +kernel

/-! ### Data movement (95_test_vectors.md 2.8, M = 13, T = 64, N = 8192) -/

theorem test_nop : after (exec .nop full) = some full := by decide +kernel
theorem test_ldi : regAfter (.ldi 1 0x1FFF) State.reset 1 = some 0x1FFF := by decide +kernel
theorem test_ste_last_entry : (after (exec (.ste 1 .syn 127) (withG Config.exampleBuild [(1, 5)]))).map
    (fun t => (t.readE .syn 127, t.getLen (.elem .syn))) = some (5, 0) := by decide +kernel
theorem test_ste_past_the_end :
    faultAfter State.reset (commandTxn 0x03140080) = some (0x32, 0x03140080) := by decide +kernel
theorem test_lde_entry : regAfter (.lde 6 (.p 1) 0) full 6 = some 1 := by decide +kernel
theorem test_lde_past_the_end :
    faultAfter State.reset (commandTxn 0x02610041) = some (0x32, 0x02610041) := by decide +kernel
theorem test_setfull_values : ([.elem (.p 1), .elem .syn, .elem .perm, .elem .sup, .byte .cb, .byte .pl, .byte .ent,
    .byte .out] : List Buf).map (fun b => (after (exec (.setfull b) State.reset)).map (fun t => (t.getLen b).toNat)) =
      [some 65, some 128, some 8192, some 8192, some 12800, some 13312, some 48, some 1024] := by decide +kernel

/-! ### Field arithmetic (95_test_vectors.md 2.2, M = 13, POLY = 0x201B) -/

/-- G[1] = 0x1234, G[2] = 0x0ABC. -/
def g13 : State := withG Config.exampleBuild [(1, 0x1234), (2, 0x0ABC), (3, 0x1FFF), (4, 0x1000), (5, 2)]

theorem test_gfAdd : regAfter (.gfAdd 3 1 2) g13 3 = some 0x1888 := by decide +kernel
theorem test_gfAdd_self : regAfter (.gfAdd 1 1 1) g13 1 = some 0 := by decide +kernel
theorem test_gfMul : regAfter (.gfMul 3 1 2) g13 3 = some 0x10F8 := by decide +kernel
theorem test_gfMul_in_place : regAfter (.gfMul 4 4 4) g13 4 = some 0x185A := by decide +kernel
theorem test_gfInv : regAfter (.gfInv 2 1) g13 2 = some 0x0704 := by decide +kernel
theorem test_gfInv_zero : regAfter (.gfInv 2 0) g13 2 = some 0 := by decide +kernel
theorem test_gfFrac_order : regAfter (.gfFrac 4 5 1) g13 4 = some 0x091A ∧ regAfter (.gfFrac 4 1 5) g13 4 = some 0x0E08 := by
  decide +kernel
theorem test_gfFrac_zero_denominator : regAfter (.gfFrac 4 0 5) g13 4 = some 0 := by decide +kernel
theorem test_gfIszero_of_zero : regAfter (.gfIszero 4 0) g13 4 = some 0x1FFF := by decide +kernel
theorem test_gfIszero_of_top_bit : regAfter (.gfIszero 4 4) g13 4 = some 0 := by decide +kernel
theorem test_gfBitrev : regAfter (.gfBitrev 5 1) g13 5 = some 0x0589 := by decide +kernel

/-- `clmul` and `reduce` alone: all bits set, and the product equal to POLY + 1. -/
theorem test_clmul_and_reduce : clmul 13 0x1FFF 0x1FFF = 0x1555555 ∧ clmul 13 0x0002 0x100D = 0x201A ∧
    reduce 13 0x201B 0x1FFFFFF = 0x0F9A ∧ reduce 13 0x201B 0x201B = 0 := by decide +kernel

/-- Section 2.3: the inverses of M = 4. -/
theorem test_inverses_of_m4 : (List.range 16).map (fun x => (inv b4 (BitVec.ofNat 16 x)).toNat) =
    [0, 1, 9, 14, 13, 11, 7, 6, 15, 2, 12, 5, 10, 4, 3, 8] := by decide +kernel

/-! ### Polynomials and the decoder (95_test_vectors.md 2.4, 2.5, M = 4, T = 2) -/

/-- P[1] = [1, 2, 3], G[4] = 5, LEN[P1] = 3; S as given, LEN[S] = 4. -/
def poly4 (syn : List Elem) : State :=
  { (State.setLen { withG b4 [(4, 5)] with syn := store syn } (.elem .syn) 4).setE (.p 1) (store [1, 2, 3]) with
    bufaddr := 9 }

theorem test_plEval_in_place :
    regAfter (.plEval 4 1 4) ((poly4 []).setLen (.elem (.p 1)) 3) 4 = some 13 := by decide +kernel
theorem test_plEval_fill_count : faultAfter State.reset (commandTxn 0x20511000) = some (0x12, 0x20511000) := by
  decide +kernel
theorem test_bmRun_two_errors : (after (exec (.bmRun 1) (poly4 [0, 5, 2, 9]))).map
    (fun t => (t.getE (.p 1), t.getLen (.elem (.p 1)))) = some (store [0xE, 5, 1], 3) := by decide +kernel
theorem test_bmRun_over_capacity : (after (exec (.bmRun 1) (poly4 [1, 0xC, 0xF, 6]))).map
    (fun t => t.getE (.p 1)) = some (store [0, 0xC, 1]) := by decide +kernel

/-! ### The network (95_test_vectors.md 2.6) -/

theorem test_bnEnc : (after (exec .bnEnc { full with cb := [] })).map (fun t => (t.cb, t.getLen (.byte .cb))) =
    some (store [0x25], 1) := by decide +kernel
theorem test_bnEnc_m3 : (after (exec .bnEnc
    (State.setLen { State.resetOf b3 with perm := store [3, 0, 4, 7, 1, 6, 2, 5] } (.elem .perm) 8))).map
      (fun t => t.cb) = some (store [0x9F, 0x4C, 0x0A]) := by decide +kernel
theorem test_bnApply_keeps_pad_bits : (after (exec (.bnApply false) { full with pl := store [0xF6, 0x5A] })).map
    (fun t => t.pl) = some (store [0xF9, 0x5C]) := by decide +kernel
theorem test_bnApply_rev : (after (exec (.bnApply true) full)).map (fun t => t.pl) = some (store [0x09, 0x03]) := by
  decide +kernel
theorem test_bnSup_ignores_pad_bits : (after (exec .bnSup { full with cb := store [0xE5] })).map
    (fun t => (t.pl, t.sup)) = some (store [0x05, 0x0C], store [1, 0, 3, 2]) := by decide +kernel
theorem test_bnSup_m3_n6 : (after (exec .bnSup
    (State.setLen { State.resetOf b3 with cb := store [0x9F, 0x4C, 0x0A] } (.byte .cb) 3))).map
      (fun t => (t.pl, t.sup, t.getLen (.elem .sup))) =
        some (store [0xAC, 0x69, 0x99], store [6, 0, 1, 7, 4, 3], 6) := by decide +kernel

/-! ### The generator (95_test_vectors.md 2.7, the toy cipher's T1 and T2; 2.9 for the fault priorities) -/

theorem test_incr_wraps : incr (Vector.replicate 16 0xFF) = Vector.replicate 16 0 ∧
    (incr ((Vector.replicate 16 0).set 15 0xFF)).toList = List.replicate 14 0 ++ [1, 0] := by decide +kernel
theorem test_rbInit_toy : (initWith toy (State.resetOf b2)).key.toList =
      (List.range 15).map (BitVec.ofNat 8) ++ [0x10] ++ (List.range 15).map (BitVec.ofNat 8) ++ [0x11] ∧
    (initWith toy (State.resetOf b2)).v.toList = (List.range 15).map (BitVec.ofNat 8) ++ [0x12] ∧
    (initWith toy (State.resetOf b2)).status.seeded = true := by decide +kernel
theorem test_rbInit_fill_count : faultAfter State.reset (commandTxn 0x40000000) = some (0x12, 0x40000000) := by
  decide +kernel
theorem test_rbGen_toy : (generateWith toy 20 (initWith toy (State.resetOf b2))).out =
      store [0x00, 0x02, 0x04, 0x06, 0x08, 0x0A, 0x0C, 0x0E, 0x10, 0x12, 0x14, 0x16, 0x18, 0x1A, 0x1C, 0x23,
        0x00, 0x02, 0x04, 0x06] ∧
    (generateWith toy 20 (initWith toy (State.resetOf b2))).v.toList =
      (List.range 15).map (fun i => BitVec.ofNat 8 (2 * i)) ++ [0x27] := by decide +kernel
theorem test_rbGen_range_before_noseed :
    faultAfter State.reset (commandTxn 0x42000401) = some (0x32, 0x42000401) ∧
      faultAfter State.reset (commandTxn 0x42000400) = some (0x42, 0x42000400) := by decide +kernel
theorem test_rbUpd_noseed_before_precond :
    faultAfter State.reset (commandTxn 0x41000001) = some (0x42, 0x41000001) := by decide +kernel
theorem test_rbUpd_toy : (updateWith toy false { State.resetOf b2 with key := Vector.replicate 32 1 }).v.toList =
    [0, 1, 2, 3, 4, 5, 6, 7, 8, 9, 10, 11, 12, 13, 14, 15].map (fun i => (if i = 15 then 2 else 1 : BitVec 8) + 1 + i) := by
  decide +kernel

/-! ### The host port (95_test_vectors.md 2.8, 2.9; program P5) -/

theorem test_bufdata_write_keeps_the_low_bits :
    (perform { State.reset with bufaddr := 0x4000007F } (.write 32 0x10 0x00012345)).map
      (fun t => (t.readE .syn 127, t.readBufdata)) = some (0x0345, 0x345) := by decide +kernel
theorem test_bufdata_out_of_range : (perform { State.reset with bufaddr := 0x40000080 } (.write 32 0x10 1)).map
    (fun t => (t.syn, t.status.word)) = some ([], 0) := by decide +kernel
theorem test_bufdata_window_and_bytes :
    (perform { State.reset with bufaddr := 0x70000003 } (.write 32 0x10 7)).map (fun t => t.getG 3) = some 7 ∧
      (perform { State.reset with bufaddr := 0xA0000000 } (.write 32 0x10 0x1FF)).map (fun t => t.ent) =
        some [(0, 0xFF)] := by decide +kernel
theorem test_host_reads_the_parameters : [0x20, 0x24, 0x28, 0x2C, 0x30, 0x08, 0x5C].map State.reset.hostRead =
    [13, 64, 8192, 0x201B, 1024, 0, 0] := by decide +kernel
theorem test_program_p5 : (after (Host.Core.run Sys2Proof.core 5
    ({ State.reset with port := [commandTxn 0x01101234, commandTxn 0x21100000, commandTxn 0x01100001,
      .read 32 0x00, .read 32 0x04] } : State))).map (fun t => (t.getG 1, t.replies)) =
        some (0x1234, [0x21100000, 0x12]) := by decide +kernel
theorem test_withFetchWord_runs_the_command :
    (after (step (State.reset.withFetchWord 32 0x01101234))).map (fun t => (t.getG 1, t.port)) = some (0x1234, []) := by
  decide +kernel

/-! ### Witnesses: for every statement with hypotheses, a state and operands that meet them -/

theorem full_inv : Inv full := inv_of_check (by decide +kernel)
theorem miscounted_inv : Inv miscounted := inv_of_check (by decide +kernel)

/-- The polynomial of 0x7 is `X^2 + X + 1`, irreducible over GF(2). -/
theorem poly7_irreducible : Irreducible (polyOf b2.poly) := by
  have h : polyOf b2.poly = (Polynomial.X ^ 2 + Polynomial.X + 1 : Polynomial (ZMod 2)) := by
    simp [polyOf, b2, Finset.sum_range_succ, BitVec.getLsbD, Nat.testBit]
    ring
  rw [h]
  have hd : (Polynomial.X ^ 2 + Polynomial.X + 1 : Polynomial (ZMod 2)).natDegree = 2 := by compute_degree!
  rw [Polynomial.irreducible_iff_roots_eq_zero_of_degree_le_three (by omega) (by omega),
    Multiset.eq_zero_iff_forall_notMem]
  intro a ha
  have h0 := (Polynomial.mem_roots'.mp ha).2
  clear ha
  revert h0
  simp only [Polynomial.IsRoot, Polynomial.eval_add, Polynomial.eval_pow, Polynomial.eval_X, Polynomial.eval_one]
  revert a; decide +kernel

theorem witness_DecodeOfEncodeIsTheCommand : (oneOfEach.all (WellFormed 2)) = true := by decide +kernel
theorem witness_DecodedWordIsTheEncoding : decode 13 0x20514000 = .ok (.plEval 5 1 4) := by decide +kernel
theorem witness_DecodeAcceptsExactlyTheTableRows :
    ∃ r ∈ opcodeRows, ∃ r' ∈ opcodeRows, r.matchesWord 13 0x01101FFF = true ∧ r'.matchesWord 13 0x01101FFF = true :=
  ⟨_, .tail _ (.head _), _, .tail _ (.head _), by decide +kernel, by decide +kernel⟩
theorem witness_StepRunsTheIssuedCommand :
    Presents (waiting (commandTxn 0x20110000)) 0x20110000 [] ∧
      decode (waiting (commandTxn 0x20110000)).build.m 0x20110000 = .ok (.plEval 1 1 0) := by
  refine ⟨⟨?_, ?_, ?_⟩, ?_⟩ <;> decide +kernel

/-- The clauses: discarded in ABORT; each of the four faults, at its boundary; no fault. -/
theorem witness_IssuedWordsAreCheckedInOrder :
    aborted.status.abort = true ∧ full.status.abort = false ∧ full.build.valid = true ∧
      faultOfWord full 0x01100004 = some .illegal ∧ faultOfWord full 0x02140002 = some .range ∧
      faultOfWord { full with status := State.reset.status } 0x41000001 = some .noSeed ∧
      faultOfWord miscounted 0x30000000 = some .precond ∧ faultOfWord full 0x02140001 = none ∧
      faultOfWord full 0x01100003 = none := by decide +kernel

/-- One command of every row, none of its checks failing. -/
theorem witness_CommandsCompleteWhereNoCheckFails :
    oneOfEach.all (fun i => WellFormed full.build.m i && (faultOf full i).isNone) = true := by decide +kernel

/-- Each of the four causes; the Illegal word is an LDI whose immediate is `2^M`. -/
theorem witness_FailingChecksTakeTheFault :
    WellFormed full.build.m (.rbGen 65) = true ∧ faultOf full (.rbGen 65) = some .range ∧
      faultOf State.reset (.rbGen 64) = some .noSeed ∧ faultOf miscounted (.rbUpd true) = some .precond ∧
      full.status.abort = false ∧ decode full.build.m 0x01100004 = .error .ldiImmediate := by
  decide +kernel

/-- The codes of 60_exceptions.md R201. -/
theorem test_cause_codes : [Cause.precond, .illegal, .range, .noSeed].map Cause.code = [1, 2, 3, 4] := by decide
theorem witness_AbortIsLeftOnlyByReset :
    aborted.build.valid = true ∧ aborted.status.abort = true ∧ (.write 32 0x0C 7 : HostTxn) ≠ .reset ∧
      (.write 32 0x10 7 : HostTxn) ≠ .reset ∧ ∀ v, (.write 32 0x10 7 : HostTxn) ≠ .write 32 0x0C v := by
  refine ⟨by decide +kernel, by decide +kernel, by decide +kernel, by decide +kernel, by simp⟩
theorem witness_HostResetClearsEverything : (waiting .reset).build.valid = true ∧ (waiting .reset).port = [.reset] := by
  decide

/-- The clauses of the register map meet only where they agree: the slots of the fill counts are none of the named offsets,
and the slot of buffer 7 and CMD are neither. -/
theorem witness_HostReadsFollowTheRegisterMap :
    (waiting (.read 32 0x5C)).build.valid = true ∧ (waiting (.read 32 0x5C)).port = [.read 32 0x5C] ∧
      (0x5C : Nat) ∉ [0x00, 0x04, 0x0C, 0x10, 0x20, 0x24, 0x28, 0x2C, 0x30] ∧
      (∀ b : Buf, (0x5C : Nat) ≠ 0x40 + 4 * b.number.toNat) ∧
      (0x40 : Nat) = 0x40 + 4 * (Buf.elem (.p 0)).number.toNat ∧
      (0x6C : Nat) = 0x40 + 4 * (Buf.byte .out).number.toNat := by
  refine ⟨by decide +kernel, by decide +kernel, by decide +kernel, ?_, by decide +kernel, by decide +kernel⟩
  rintro ((k | _ | _ | _) | (_ | _ | _ | _))
  · revert k; decide
  all_goals decide

/-- Each clause at the boundary of its range: the last entry and the first index past it, and a reserved number. -/
theorem witness_BufdataReachesTheAddressedEntry :
    (∀ b, (full.getE b).wf = true) ∧ (∀ b, (full.getB b).wf = true) ∧
      hostIndex 0x40000001 + 1 = capE full.build .syn ∧ (0x40000001 : Word).extractLsb' 28 4 = EBuf.syn.number ∧
      hostIndex 0xA000002F + 1 = capB full.build .ent ∧ (0xA000002F : Word).extractLsb' 28 4 = BBuf.ent.number ∧
      (0x7000000F : Word).extractLsb' 28 4 = 7 ∧ hostIndex 0x7000000F = 15 ∧
      capE full.build .syn ≤ hostIndex 0x40000002 ∧ capB full.build .ent ≤ hostIndex 0xA0000030 ∧
      (∀ b : EBuf, (0xC0000000 : Word).extractLsb' 28 4 ≠ b.number) ∧
      (∀ b : BBuf, (0xC0000000 : Word).extractLsb' 28 4 ≠ b.number) := by
  refine ⟨fun b => (full_inv.2.2.1 b).1, fun b => (full_inv.2.2.2.1 b).1, by decide +kernel, by decide +kernel,
    by decide +kernel, by decide +kernel, by decide +kernel, by decide +kernel,
    by decide +kernel, by decide +kernel, ?_, ?_⟩
  · rintro (k | _ | _ | _)
    · revert k; decide
    all_goals decide
  · rintro (_ | _ | _ | _) <;> decide +kernel
theorem witness_HostWritesFollowTheRegisterMap :
    (waiting (.write 32 0x50 129)).build.valid = true ∧ (waiting (.write 32 0x50 129)).status.abort = false ∧
      (0x50 : Nat) = 0x40 + 4 * (Buf.elem .syn).number.toNat ∧ (0x00 : Nat) ∉ [0x08, 0x0C, 0x10] ∧
      ∀ b : Buf, (0x00 : Nat) ≠ 0x40 + 4 * b.number.toNat := by
  refine ⟨by decide +kernel, by decide +kernel, by decide +kernel, by decide +kernel, fun b => by omega⟩
theorem witness_HostCannotReachTheGeneratorState :
    (∀ w, (.write 32 0x10 5 : HostTxn) ≠ commandTxn w) ∧ ∀ w, (.read 32 0x10 : HostTxn) ≠ commandTxn w := by
  simp [commandTxn]
theorem witness_NopLeavesTheStateEqual : fieldOp 0x00000001 = 0 ∧ (0x00000001 : Word) ≠ 0 := by decide +kernel
theorem witness_LdiLoadsTheImmediate :
    (fieldOp 0x01101FFF = 1 ∧ fieldB 0x01101FFF = 0 ∧ (fieldImm 0x01101FFF).toNat < 2 ^ 13) ∧
      (fieldOp 0x01102000 = 1 ∧ 2 ^ 13 ≤ (fieldImm 0x01102000).toNat) ∧
      (fieldOp 0x01110005 = 1 ∧ fieldB 0x01110005 ≠ 0) ∧ (3#16).toNat < 2 ^ full.build.m := by decide +kernel
theorem witness_LdeLoadsTheEntry :
    (1#16).toNat < capE full.build .syn ∧ capE full.build .syn ≤ (2#16).toNat := by decide +kernel
theorem witness_SteStoresTheRegister : (∀ b, (full.getE b).wf = true) ∧
    (3#16).toNat < capE full.build .perm ∧ capE full.build .perm ≤ (4#16).toNat :=
  ⟨fun b => (full_inv.2.2.1 b).1, by decide +kernel, by decide +kernel⟩
theorem witness_SetfullDeclaresTheCapacity : full.build.valid = true := by decide +kernel

theorem witness_GfMulWritesTheProductModuloPoly : full.build.valid = true ∧
    (full.getG 2).toNat < 2 ^ full.build.m ∧ (full.getG 3).toNat < 2 ^ full.build.m := by decide +kernel

/-- A zero and a non-zero source, POLY irreducible. -/
theorem witness_GfInvWritesTheInverse : full.build.valid = true ∧ Irreducible (polyOf full.build.poly) ∧
    (full.getG 3).toNat < 2 ^ full.build.m ∧ full.getG 3 ≠ 0 ∧ full.getG 0 = 0 :=
  ⟨by decide +kernel, poly7_irreducible, by decide +kernel, by decide +kernel, by decide +kernel⟩

/-- A zero and a non-zero denominator, POLY irreducible. -/
theorem witness_GfFracDividesByTheFirstSource : full.build.valid = true ∧ Irreducible (polyOf full.build.poly) ∧
    (full.getG 3).toNat < 2 ^ full.build.m ∧ (full.getG 2).toNat < 2 ^ full.build.m ∧ full.getG 3 ≠ 0 ∧
    full.getG 0 = 0 :=
  ⟨by decide +kernel, poly7_irreducible, by decide +kernel, by decide +kernel, by decide +kernel, by decide +kernel⟩
theorem witness_GfIszeroWritesTheMask : full.build.valid = true ∧ (full.getG 3).toNat < 2 ^ full.build.m ∧
    full.getG 3 ≠ 0 ∧ full.getG 0 = 0 := by decide +kernel
theorem witness_GfBitrevReversesTheBits : full.build.valid = true ∧ (full.getG 3).toNat < 2 ^ full.build.m := by
  decide +kernel
theorem witness_ClmulIsThePolynomialProduct : 16 ≤ 16 ∧ (0xFFFF : Elem).toNat < 2 ^ 16 := by decide +kernel
theorem witness_ReduceIsTheRemainder :
    Config.exampleBuild.valid = true ∧ (0x1FFFFFF : BitVec 32).toNat < 2 ^ (2 * Config.exampleBuild.m - 1) := by decide +kernel
theorem witness_FieldLawsHold : b2.valid = true ∧ (3 : Elem).toNat < 2 ^ b2.m ∧ Irreducible (polyOf b2.poly) ∧
    mul b2 3 0 = 0 := ⟨by decide +kernel, by decide +kernel, poly7_irreducible, by decide +kernel⟩
theorem witness_PlEvalWritesTheValueAtThePoint : Inv full ∧ Inv miscounted ∧
    (full.getLen (.elem (.p 3))).toNat = full.build.t + 1 ∧
    (miscounted.getLen (.elem (.p 3))).toNat ≠ miscounted.build.t + 1 :=
  ⟨full_inv, miscounted_inv, by decide +kernel, by decide +kernel⟩
theorem witness_EvalIsLinear : b2.valid = true ∧ (∀ i : Nat, ((fun _ => 3 : Nat → Elem) i).toNat < 2 ^ b2.m) ∧
    ((fun i => if i = 0 then 3 else 0 : Nat → Elem) 0).toNat < 2 ^ b2.m ∧
    ∀ i, 1 ≤ i → i ≤ b2.t → (fun i => if i = 0 then 3 else 0 : Nat → Elem) i = 0 :=
  ⟨by decide +kernel, fun _ => by simp [b2], by decide +kernel, fun i h _ => if_neg (by omega)⟩
theorem witness_BmRunWritesTheReversedLocator : Inv full ∧ Inv miscounted ∧
    (full.getLen (.elem .syn)).toNat = 2 * full.build.t ∧
    (miscounted.getLen (.elem .syn)).toNat ≠ 2 * miscounted.build.t :=
  ⟨full_inv, miscounted_inv, by decide +kernel, by decide +kernel⟩
theorem witness_DecoderWorkingSetStaysInRange :
    b2.valid = true ∧ ∀ i, ((full.readE .syn) i).toNat < 2 ^ b2.m :=
  ⟨by decide +kernel, (full_inv.2.2.1 .syn).2.2⟩
theorem witness_LocatorIsMonic : b2.valid = true ∧ (∀ i : Nat, ((fun _ => 0 : Nat → Elem) i).toNat < 2 ^ b2.m) ∧
    ∀ i, i < 2 * b2.t → (fun _ => 0 : Nat → Elem) i = 0 := ⟨by decide +kernel, fun _ => by simp [b2], fun _ _ => rfl⟩

/-- As many locators as the capacity. -/
theorem witness_DecoderRecoversTheLocators :
    ({ b2 with t := 2 } : Build).valid = true ∧ Irreducible (polyOf ({ b2 with t := 2 } : Build).poly) ∧
      (∀ a ∈ ([2, 3] : List Elem), a ≠ 0 ∧ a.toNat < 2 ^ 2) ∧ ([2, 3] : List Elem).Nodup ∧
      ([2, 3] : List Elem).length ≤ ({ b2 with t := 2 } : Build).t :=
  ⟨by decide +kernel, poly7_irreducible, by simp, by simp, Nat.le_refl 2⟩
theorem witness_SwitchesPartitionThePositions : 12 < 13 ∧ 4095 < 2 ^ (13 - 1) ∧ 8191 < 2 ^ 13 := by decide +kernel
theorem witness_SwitchExchangesItsPositions : 1 ≤ 2 ∧ 2 < 2 * 2 - 1 ∧ 1 < 2 ^ (2 - 1) := by decide +kernel
theorem witness_RoutingIsThePermutationOfItsBits : 1 ≤ 2 ∧ 3 < 2 ^ 2 := by decide +kernel
theorem witness_BnApplyRoutesThePlanes : Inv full ∧ Inv miscounted ∧
    (full.getLen (.byte .cb)).toNat = full.build.cbytes ∧ (full.getLen (.byte .pl)).toNat = full.build.plTotal ∧
    (miscounted.getLen (.byte .cb)).toNat ≠ miscounted.build.cbytes ∧
    (miscounted.getLen (.byte .pl)).toNat ≠ miscounted.build.plTotal :=
  ⟨full_inv, miscounted_inv, by decide +kernel, by decide +kernel, by decide +kernel, by decide +kernel⟩
theorem witness_BnApplyRoundTripRestoresTheState : Inv full ∧
    (full.getLen (.byte .cb)).toNat = full.build.cbytes ∧ (full.getLen (.byte .pl)).toNat = full.build.plTotal :=
  ⟨full_inv, by decide +kernel, by decide +kernel⟩
theorem witness_BnSupWritesTheSupport : Inv full ∧ Inv miscounted ∧
    (full.getLen (.byte .cb)).toNat = full.build.cbytes ∧
    (miscounted.getLen (.byte .cb)).toNat ≠ miscounted.build.cbytes :=
  ⟨full_inv, miscounted_inv, by decide +kernel, by decide +kernel⟩
theorem witness_BnEncWritesTheControlBits : Inv full ∧ Inv miscounted ∧
    (full.getLen (.elem .perm)).toNat = full.build.q ∧ (miscounted.getLen (.elem .perm)).toNat ≠ miscounted.build.q ∧
    ∀ i, i < full.build.q → ∀ j, j < full.build.q → full.readE .perm i = full.readE .perm j → i = j :=
  ⟨full_inv, miscounted_inv, by decide +kernel, by decide +kernel, by decide +kernel⟩
theorem witness_PinnedEncoderEncodesEveryBijection :
    b2.valid = true ∧ ([2, 0, 3, 1] : List Elem).length = b2.q ∧ isBijection b2 [2, 0, 3, 1] = true := by decide +kernel
theorem witness_EncodeThenSupportReproducesThePermutation :
    encodes full.build (enc full.build full.permList) full.permList := by
  unfold encodes; decide +kernel
theorem witness_RbInitSeedsTheGenerator :
    (full.getLen (.byte .ent)).toNat = 48 ∧ (miscounted.getLen (.byte .ent)).toNat ≠ 48 := by decide +kernel
theorem witness_RbUpdAdvancesTheGenerator : full.status.seeded = true ∧ State.reset.status.seeded = false ∧
    miscounted.status.seeded = true ∧ (miscounted.getLen (.byte .ent)).toNat ≠ 48 := by decide +kernel
theorem witness_ZeroProvidedDataIsNoProvidedData : (State.getLen { full with ent := [] } (.byte .ent)).toNat = 48 ∧
    ({ full with ent := [] } : State).status.seeded = true ∧
    ∀ i, i < 48 → State.readB { full with ent := [] } .ent i = 0 := ⟨by decide +kernel, by decide +kernel, fun _ _ => rfl⟩
theorem witness_RbGenWritesTheBlocks : Inv full ∧ (64#16).toNat ≤ full.build.outMax ∧
    full.build.outMax < (65#16).toNat ∧ full.status.seeded = true ∧ State.reset.status.seeded = false ∧
    (1024#16).toNat ≤ State.reset.build.outMax :=
  ⟨full_inv, by decide +kernel, by decide +kernel, by decide +kernel, by decide +kernel, by decide +kernel⟩

/-- Two states that differ outside the generator. -/
theorem witness_GeneratorOutputIsDetermined : usesGenerator (.rbGen 17) = true ∧
    sameGenerator full { full with g := Vector.replicate 16 0, syn := [] } ∧
    (after (exec (.rbGen 17) full)).isSome = true ∧
    (after (exec (.rbGen 17) { full with g := Vector.replicate 16 0, syn := [] })).isSome = true :=
  ⟨rfl, ⟨rfl, rfl, rfl, rfl, rfl, rfl, rfl, rfl⟩, rfl, rfl⟩
theorem witness_CommandsChangeOnlyTheirDestinations : (∀ b, (full.getE b).wf = true) ∧ (∀ b, (full.getB b).wf = true) ∧
    oneOfEach.all (fun i => (after (exec i full)).isSome) = true :=
  ⟨fun b => (full_inv.2.2.1 b).1, fun b => (full_inv.2.2.2.1 b).1, by decide +kernel⟩
theorem witness_FaultChecksAreNotSecretDependent :
    samePublic full { full with g := Vector.replicate 16 0, perm := [], key := Vector.replicate 32 0 } ∧
      (after (exec .bnEnc full)).isSome = true := ⟨⟨rfl, rfl, rfl⟩, by decide +kernel⟩
theorem witness_ResetStateMeetsTheInvariant : b2.valid = true ∧ Config.exampleBuild.valid = true := by decide +kernel
theorem witness_StepKeepsTheInvariant : Inv (waiting (commandTxn 0x32000000)) ∧
    (after (step (waiting (commandTxn 0x32000000)))).isSome = true :=
  ⟨inv_of_check (by decide +kernel), by decide +kernel⟩
theorem witness_NoStepStops : Inv (waiting (commandTxn 0xFFFFFFFF)) := inv_of_check (by decide +kernel)
theorem witness_SeededChangesOnlyByInitAndReset :
    (perform { full with status := State.reset.status } (commandTxn 0x40000000)).map (fun t => t.status.seeded) =
        some true ∧
      (perform full .reset).map (fun t => t.status.seeded) = some false := by decide +kernel

end Sys2Proof.Tests
end

section
/-! PROOFS. Widths: every function of the datapath answers an `M`-bit word (00_scope.md R14,
40_field_arithmetic.md R90 to R104, 41_polynomial_bm.md R120 to R130). -/

namespace Sys2Proof.Machine

/-! ### Masks and the constant 1 -/

theorem toNat_add_lt {m : Nat} {x y : Elem} (hx : x.toNat < 2 ^ m) (hy : y.toNat < 2 ^ m) :
    (add x y).toNat < 2 ^ m := by
  rw [add, BitVec.toNat_xor]
  exact Nat.xor_lt_two_pow hx hy

theorem and_lt_two_pow_of_left {m : Nat} {x : Elem} (hx : x.toNat < 2 ^ m) (y : Elem) : (x &&& y).toNat < 2 ^ m := by
  rw [BitVec.toNat_and]
  exact lt_of_le_of_lt Nat.and_le_left hx

theorem toNat_blend_lt {m : Nat} {a b : Elem} (k : Elem) (ha : a.toNat < 2 ^ m) (hb : b.toNat < 2 ^ m) :
    (blend k a b).toNat < 2 ^ m := by
  rw [blend, BitVec.toNat_or]
  exact Nat.or_lt_two_pow (and_lt_two_pow_of_left ha _) (and_lt_two_pow_of_left hb _)

theorem toNat_iszero_lt (m : Nat) (x : Elem) : (iszero m x).toNat < 2 ^ m := by
  have hones : (ones m).toNat ≤ 2 ^ m - 1 := by
    rw [ones, BitVec.toNat_ofNat]
    exact Nat.mod_le _ _
  have hpos : 0 < 2 ^ m := Nat.two_pow_pos m
  unfold iszero mask
  split
  · omega
  · exact hpos

/-- A valid build's elements have room for 1 (00_scope.md R5: `M >= 2`). -/
theorem one_lt_of_valid {c : Build} (hv : c.valid = true) : (1 : Elem).toNat < 2 ^ c.m := by
  obtain ⟨⟨h2, -⟩, -⟩ := (valid_iff c).1 hv
  exact Nat.one_lt_two_pow (by omega)

/-! ### The multiplier (R91, R93, R94) -/

/-- The carry-less product of an `M`-bit `x` has no bit above `2M-2` (R91). -/
theorem toNat_clmul_lt {m : Nat} {x : Elem} (hx : x.toNat < 2 ^ m) (y : Elem) :
    (clmul m x y).toNat < 2 ^ (m + (m - 1)) := by
  rw [lt_two_pow_iff_bits] at hx
  have partialSum : ∀ n i, m + n ≤ i + 1 →
      ((List.range n).foldl (fun p i => if y.getLsbD i then p ^^^ (x.setWidth 32 <<< i) else p)
        (0 : BitVec 32)).getLsbD i = false := by
    intro n
    induction n with
    | zero => simp
    | succ n ih =>
      intro i hi
      rw [List.range_succ, List.foldl_append, List.foldl_cons, List.foldl_nil]
      split
      · rw [BitVec.getLsbD_xor, ih i (by omega), BitVec.getLsbD_shiftLeft, BitVec.getLsbD_setWidth,
          hx (i - n) (by omega)]
        simp
      · exact ih i (by omega)
  rw [lt_two_pow_iff_bits]
  intro i hi
  exact partialSum m i (by omega)

/-- Each step of the reducer clears the top bit (R93), so that `k` steps from `M+k` bits leave `M` bits. -/
theorem toNat_reduceFrom_lt {m : Nat} {poly : BitVec 17} (htop : poly.getLsbD m = true)
    (hpoly : poly.toNat < 2 ^ (m + 1)) {k : Nat} {p : BitVec 32} (hk : m + k ≤ 32) (hp : p.toNat < 2 ^ (m + k)) :
    (reduceFrom m poly k p).toNat < 2 ^ m := by
  rw [lt_two_pow_iff_bits] at hpoly
  induction k generalizing p with
  | zero => exact hp
  | succ k ih =>
    apply ih (by omega)
    rw [lt_two_pow_iff_bits] at hp ⊢
    intro i hi
    by_cases hbit : p.getLsbD (m + k) = true
    · rw [if_pos hbit, BitVec.getLsbD_xor, BitVec.getLsbD_shiftLeft, BitVec.getLsbD_setWidth]
      by_cases htopBit : i = m + k
      · subst htopBit
        simp [hbit, htop, show m + k < 32 by omega, show m < 32 by omega]
      · rw [hp i (by omega), hpoly (i - k) (by omega)]
        simp
    · rw [if_neg hbit]
      by_cases htopBit : i = m + k
      · simpa [htopBit] using hbit
      · exact hp i (by omega)

theorem toNat_mul_lt {c : Build} (hv : c.valid = true) {x : Elem} (hx : x.toNat < 2 ^ c.m) (y : Elem) :
    (mul c x y).toNat < 2 ^ c.m := by
  obtain ⟨⟨h2, h16⟩, ⟨hpoly, htop, -⟩, -⟩ := (valid_iff c).1 hv
  rw [mul, reduce, BitVec.toNat_setWidth]
  exact lt_of_le_of_lt (Nat.mod_le _ _) (toNat_reduceFrom_lt htop hpoly (by omega) (toNat_clmul_lt hx y))

/-! ### Inversion and division (R98 to R103) -/

theorem toNat_ladder_lt {c : Build} (hv : c.valid = true) (k : Nat) {s out : Elem} (hout : out.toNat < 2 ^ c.m) :
    (ladder c k s out).toNat < 2 ^ c.m := by
  induction k generalizing s out with
  | zero => exact hout
  | succ k ih => exact ih (toNat_mul_lt hv hout _)

theorem toNat_inv_lt {c : Build} (hv : c.valid = true) (x : Elem) : (inv c x).toNat < 2 ^ c.m :=
  toNat_ladder_lt hv _ (one_lt_of_valid hv)

theorem toNat_frac_lt {c : Build} (hv : c.valid = true) (den : Elem) {num : Elem} (hn : num.toNat < 2 ^ c.m) :
    (frac c den num).toNat < 2 ^ c.m :=
  toNat_mul_lt hv hn _

/-! ### Evaluation (41_polynomial_bm.md R120) -/

theorem toNat_horner_lt {c : Build} (hv : c.valid = true) {f : Nat → Elem} (hf : ∀ i, (f i).toNat < 2 ^ c.m)
    (a : Elem) (k : Nat) {r : Elem} (hr : r.toNat < 2 ^ c.m) : (horner c f a k r).toNat < 2 ^ c.m := by
  induction k generalizing r with
  | zero => exact hr
  | succ k ih => exact ih (toNat_add_lt (toNat_mul_lt hv hr a) (hf k))

theorem toNat_eval_lt {c : Build} (hv : c.valid = true) {f : Nat → Elem} (hf : ∀ i, (f i).toNat < 2 ^ c.m)
    (a : Elem) : (eval c f a).toNat < 2 ^ c.m :=
  toNat_horner_lt hv hf a _ (hf _)

/-! ### The decoder's working set (41_polynomial_bm.md R123 to R130) -/

/-- The coefficients of `C` and `B` and the scale are `M`-bit words. -/
def BmWork.mBit (m : Nat) (w : BmWork) : Prop :=
  (∀ x ∈ w.cs, x.toNat < 2 ^ m) ∧ (∀ x ∈ w.bs, x.toNat < 2 ^ m) ∧ w.scale.toNat < 2 ^ m

/-- A coefficient of a list of `M`-bit words, 0 past its end. -/
theorem getD_zero_lt {m : Nat} {l : List Elem} (h : ∀ x ∈ l, x.toNat < 2 ^ m) (i : Nat) :
    (l.getD i 0).toNat < 2 ^ m := by
  by_cases hi : i < l.length
  · rw [List.getD_eq_getElem _ _ hi]
    exact h _ (List.getElem_mem hi)
  · rw [List.getD_eq_default _ _ (by omega)]
    exact Nat.two_pow_pos m

/-- A coefficientwise operation on two lists of `M`-bit words that answers `M`-bit words. -/
theorem zipWith_lt {m : Nat} {f : Elem → Elem → Elem} {as bs : List Elem} (ha : ∀ x ∈ as, x.toNat < 2 ^ m)
    (hb : ∀ x ∈ bs, x.toNat < 2 ^ m)
    (hf : ∀ a b : Elem, a.toNat < 2 ^ m → b.toNat < 2 ^ m → (f a b).toNat < 2 ^ m) :
    ∀ x ∈ List.zipWith f as bs, x.toNat < 2 ^ m := by
  intro x hx
  obtain ⟨i, hi, rfl⟩ := List.mem_iff_getElem.1 hx
  rw [List.getElem_zipWith]
  exact hf _ _ (ha _ (List.getElem_mem _)) (hb _ (List.getElem_mem _))

theorem bmInit_mBit {c : Build} (hv : c.valid = true) : (bmInit c).mBit c.m := by
  have h1 := one_lt_of_valid hv
  have h0 : (0 : Elem).toNat < 2 ^ c.m := Nat.two_pow_pos c.m
  have hrep : ∀ n, ∀ x ∈ List.replicate n (0 : Elem), x.toNat < 2 ^ c.m := by
    intro n x hx
    rwa [List.eq_of_mem_replicate hx]
  have hC : ∀ x ∈ (1 : Elem) :: List.replicate c.t 0, x.toNat < 2 ^ c.m := List.forall_mem_cons.2 ⟨h1, hrep _⟩
  have hB : ∀ x ∈ (0 : Elem) :: 1 :: List.replicate (c.t - 1) 0, x.toNat < 2 ^ c.m :=
    List.forall_mem_cons.2 ⟨h0, List.forall_mem_cons.2 ⟨h1, hrep _⟩⟩
  exact ⟨hC, hB, h1⟩

theorem toNat_discrepancy_lt {c : Build} (hv : c.valid = true) (syn : Nat → Elem) {cs : List Elem}
    (hcs : ∀ x ∈ cs, x.toNat < 2 ^ c.m) (n : Nat) : (discrepancy c syn cs n).toNat < 2 ^ c.m :=
  List.foldlRecOn _ _ (motive := fun d : Elem => d.toNat < 2 ^ c.m) (Nat.two_pow_pos c.m)
    (fun _ hd i _ => toNat_add_lt hd (toNat_mul_lt hv (getD_zero_lt hcs i) _))

theorem shiftUp_lt {m : Nat} {bs : List Elem} (h : ∀ x ∈ bs, x.toNat < 2 ^ m) :
    ∀ x ∈ shiftUp bs, x.toNat < 2 ^ m :=
  List.forall_mem_cons.2 ⟨Nat.two_pow_pos m, fun x hx => h x (List.mem_of_mem_dropLast hx)⟩

theorem bmStep_mBit {c : Build} (hv : c.valid = true) (syn : Nat → Elem) (n : Nat) {w : BmWork} (hw : w.mBit c.m) :
    (bmStep c syn n w).mBit c.m := by
  obtain ⟨hcs, hbs, hscale⟩ := hw
  have hd := toNat_discrepancy_lt hv syn hcs n
  have hf : (frac c w.scale (discrepancy c syn w.cs n)).toNat < 2 ^ c.m := toNat_frac_lt hv _ hd
  refine ⟨zipWith_lt hcs hbs fun a b ha _ => ?_, shiftUp_lt (zipWith_lt hcs hbs fun a b ha hb => ?_),
    toNat_blend_lt _ hd hscale⟩
  · exact toNat_add_lt ha (and_lt_two_pow_of_left (toNat_mul_lt hv hf b) _)
  · exact toNat_blend_lt _ ha hb

theorem toNat_locator_lt {c : Build} (hv : c.valid = true) (syn : Nat → Elem) (i : Nat) :
    (locator c syn i).toNat < 2 ^ c.m := by
  have hwork : (bmSteps c syn (2 * c.t)).mBit c.m :=
    List.foldlRecOn _ _ (motive := fun w : BmWork => w.mBit c.m) (bmInit_mBit hv)
      fun _ hw n _ => bmStep_mBit hv syn n hw
  exact getD_zero_lt hwork.1 _

end Sys2Proof.Machine
end

section
/-! PROOFS. The invariant under each operation on the state and under the execution of every command
(10_state.md R21 to R38). -/

namespace Sys2Proof.Machine

/-! ### One buffer -/

theorem elemsOk_write {m n i : Nat} {mem : Memory 16} (h : elemsOk m n mem) (hi : i < n) {x : Elem}
    (hx : x.toNat < 2 ^ m) : elemsOk m n (mem.write i x) := by
  obtain ⟨hwf, habove, hwidth⟩ := h
  refine ⟨Memory.wf_write hwf i x, fun j hj => ?_, fun j => ?_⟩ <;> rw [Memory.read_write hwf]
  · rw [if_neg (by omega)]
    exact habove j hj
  · split
    · exact hx
    · exact hwidth j

theorem elemsOk_fill {m n k : Nat} {mem : Memory 16} (h : elemsOk m n mem) (hk : k ≤ n) {f : Nat → Elem}
    (hf : ∀ i, (f i).toNat < 2 ^ m) : elemsOk m n (mem.fill k f) := by
  obtain ⟨hwf, habove, hwidth⟩ := h
  refine ⟨Memory.wf_fill hwf k f, fun j hj => ?_, fun j => ?_⟩ <;> rw [Memory.read_fill hwf]
  · rw [if_neg (by omega)]
    exact habove j hj
  · split
    · exact hf j
    · exact hwidth j

theorem bytesOk_write {n i : Nat} {mem : Memory 8} (h : bytesOk n mem) (hi : i < n) (x : Byte) :
    bytesOk n (mem.write i x) := by
  obtain ⟨hwf, habove⟩ := h
  refine ⟨Memory.wf_write hwf i x, fun j hj => ?_⟩
  rw [Memory.read_write hwf, if_neg (by omega)]
  exact habove j hj

theorem bytesOk_fill {n k : Nat} {mem : Memory 8} (h : bytesOk n mem) (hk : k ≤ n) (f : Nat → Byte) :
    bytesOk n (mem.fill k f) := by
  obtain ⟨hwf, habove⟩ := h
  refine ⟨Memory.wf_fill hwf k f, fun j hj => ?_⟩
  rw [Memory.read_fill hwf, if_neg (by omega)]
  exact habove j hj

/-! ### What the invariant says of a state -/

theorem Inv.valid {s : State} (h : Inv s) : s.build.valid = true := h.1

theorem Inv.getG_lt {s : State} (h : Inv s) (r : GReg) : (s.getG r).toNat < 2 ^ s.build.m := h.2.1 r

theorem Inv.elems {s : State} (h : Inv s) (b : EBuf) : elemsOk s.build.m (capE s.build b) (s.getE b) := h.2.2.1 b

theorem Inv.bytes {s : State} (h : Inv s) (b : BBuf) : bytesOk (capB s.build b) (s.getB b) := h.2.2.2.1 b

theorem Inv.status {s : State} (h : Inv s) : statusOk s.status s.fcmd := h.2.2.2.2.1

theorem Inv.unseeded {s : State} (h : Inv s) (hs : s.status.seeded = false) :
    s.key = Vector.replicate 32 0 ∧ s.v = Vector.replicate 16 0 := h.2.2.2.2.2 hs

theorem Inv.readE_lt {s : State} (h : Inv s) (b : EBuf) (i : Nat) : (s.readE b i).toNat < 2 ^ s.build.m := by
  obtain ⟨-, -, hwidth⟩ := h.elems b
  exact hwidth i

/-! ### One operation on the state -/

theorem Inv.setG {s : State} (h : Inv s) (r : GReg) {x : Elem} (hx : x.toNat < 2 ^ s.build.m) : Inv (s.setG r x) := by
  refine ⟨h.valid, fun r' => ?_, fun b => ?_, fun b => ?_, h.status, h.unseeded⟩
  · rw [getG_setG]
    split
    · exact hx
    · exact h.getG_lt r'
  · simpa using h.elems b
  · simpa using h.bytes b

theorem Inv.setE {s : State} (h : Inv s) {b : EBuf} {mem : Memory 16} (hm : elemsOk s.build.m (capE s.build b) mem) :
    Inv (s.setE b mem) := by
  refine ⟨?_, fun r => ?_, fun b' => ?_, fun b' => ?_, ?_, ?_⟩
  · simpa using h.valid
  · simpa using h.getG_lt r
  · rw [getE_setE, setE_build]
    split
    · next hb => rwa [hb]
    · exact h.elems b'
  · simpa using h.bytes b'
  · simpa using h.status
  · simpa using h.unseeded

theorem Inv.setB {s : State} (h : Inv s) {b : BBuf} {mem : Memory 8} (hm : bytesOk (capB s.build b) mem) :
    Inv (s.setB b mem) := by
  refine ⟨?_, fun r => ?_, fun b' => ?_, fun b' => ?_, ?_, ?_⟩
  · simpa using h.valid
  · simpa using h.getG_lt r
  · simpa using h.elems b'
  · rw [getB_setB, setB_build]
    split
    · next hb => rwa [hb]
    · exact h.bytes b'
  · simpa using h.status
  · simpa using h.unseeded

theorem Inv.writeE {s : State} (h : Inv s) {b : EBuf} {i : Nat} (hi : i < capE s.build b) {x : Elem}
    (hx : x.toNat < 2 ^ s.build.m) : Inv (s.writeE b i x) :=
  h.setE (elemsOk_write (h.elems b) hi hx)

theorem Inv.writeB {s : State} (h : Inv s) {b : BBuf} {i : Nat} (hi : i < capB s.build b) (x : Byte) :
    Inv (s.writeB b i x) :=
  h.setB (bytesOk_write (h.bytes b) hi x)

theorem Inv.fillE {s : State} (h : Inv s) {b : EBuf} {n : Nat} (hn : n ≤ capE s.build b) {f : Nat → Elem}
    (hf : ∀ i, (f i).toNat < 2 ^ s.build.m) : Inv (s.fillE b n f) :=
  h.setE (elemsOk_fill (h.elems b) hn hf)

theorem Inv.fillB {s : State} (h : Inv s) {b : BBuf} {n : Nat} (hn : n ≤ capB s.build b) (f : Nat → Byte) :
    Inv (s.fillB b n f) :=
  h.setB (bytesOk_fill (h.bytes b) hn f)

theorem Inv.setLen {s : State} (h : Inv s) (b : Buf) (x : Word) : Inv (s.setLen b x) := h

theorem Inv.declareFull {s : State} (h : Inv s) (b : Buf) : Inv (s.declareFull b) := h

theorem Inv.setDrbg {s : State} (h : Inv s) (hs : s.status.seeded = true) (kv : Bytes32 × Bytes16) :
    Inv (s.setDrbg kv) :=
  ⟨h.valid, h.getG_lt, h.elems, h.bytes, h.status, fun hf => absurd (hs.symm.trans hf) (by decide)⟩

theorem cause_code_range (c : Cause) : 1 ≤ c.code.toNat ∧ c.code.toNat ≤ 4 := by cases c <;> decide

theorem Inv.takeFault {s : State} (h : Inv s) (c : Cause) (w : Word) : Inv (s.takeFault c w) := by
  obtain ⟨hbusy, -, -⟩ := h.status
  have hst : statusOk (s.takeFault c w).status w := ⟨hbusy, fun hf => by simp at hf, fun _ => cause_code_range c⟩
  exact ⟨h.valid, h.getG_lt, h.elems, h.bytes, hst, h.unseeded⟩

/-- The components of the host's side are none of the invariant's. -/
theorem Inv.host {s : State} (h : Inv s) (addr : Word) (draws : Nat) (port : List HostTxn) (replies : List Word) :
    Inv { s with bufaddr := addr, draws := draws, port := port, replies := replies } := h

/-- The all-zero state of an existing build (10_state.md R45). -/
theorem inv_resetOf {c : Build} (hv : c.valid = true) : Inv (State.resetOf c) := by
  have hpos : 0 < 2 ^ c.m := Nat.two_pow_pos c.m
  have helems : ∀ n, elemsOk c.m n [] := fun n => ⟨rfl, fun _ _ => rfl, fun _ => hpos⟩
  have hbytes : ∀ n, bytesOk n [] := fun n => ⟨rfl, fun _ _ => rfl⟩
  refine ⟨hv, fun r => ?_, fun b => ?_, fun b => ?_, ⟨rfl, fun _ => ⟨rfl, rfl⟩, fun ha => ?_⟩, fun _ => ⟨rfl, rfl⟩⟩
  · simp [State.getG, State.resetOf]
  · rcases b with (k | _ | _ | _)
    · simpa [State.getE, State.resetOf] using helems _
    all_goals exact helems _
  · cases b <;> exact hbytes _
  · cases ha

theorem Inv.hostReset {s : State} (h : Inv s) : Inv s.hostReset := inv_resetOf h.valid

/-! ### The effect of a command -/

/-- A command none of whose checks fails has an index below its capacity, the seed it needs and the fill counts it
requires (60_exceptions.md R206). -/
theorem faultOf_eq_none {s : State} {i : Instr} : faultOf s i = none ↔
    rangeFails s.build i = false ∧ seedFails s.status.seeded i = false ∧ fillFails s i = false := by
  unfold faultOf
  cases rangeFails s.build i <;> cases seedFails s.status.seeded i <;> cases fillFails s i <;> simp

theorem Inv.seed {s : State} (h : Inv s) : Inv { s with status := { s.status with seeded := true } } :=
  ⟨h.valid, h.getG_lt, h.elems, h.bytes, h.status, fun hf => by cases hf⟩

theorem Inv.initWith {s : State} (h : Inv s) (e : Cipher) : Inv (initWith e s) :=
  h.seed.setDrbg rfl (update e (some s.entropy) (Vector.replicate 32 0) (Vector.replicate 16 0))

theorem Inv.generateWith {s : State} (h : Inv s) (e : Cipher) {n : Nat} (hn : n ≤ s.build.outMax)
    (hs : s.status.seeded = true) : Inv (generateWith e n s) :=
  Inv.setDrbg (Inv.setLen (h.fillB (b := .out) hn _) _ _) (by simpa using hs) _

/-- The effect of a command keeps the invariant, where the command's own checks hold. -/
theorem Inv.effect {s : State} (h : Inv s) {i : Instr} (hf : faultOf s i = none) : Inv (effect i s) := by
  have hv := h.valid
  obtain ⟨hrange, hseed, -⟩ := faultOf_eq_none.1 hf
  cases i with
  | nop => exact h
  | ldi gd imm => exact h.setG gd (lowBits_lt _ _)
  | lde gd b idx => exact h.setG gd (h.readE_lt _ _)
  | ste gs b idx => exact h.writeE (by simpa [rangeFails] using hrange) (h.getG_lt gs)
  | setfull b => exact h.declareFull b
  | gfAdd gd gs1 gs2 => exact h.setG gd (toNat_add_lt (h.getG_lt _) (h.getG_lt _))
  | gfMul gd gs1 gs2 => exact h.setG gd (toNat_mul_lt hv (h.getG_lt _) _)
  | gfInv gd gs => exact h.setG gd (toNat_inv_lt hv _)
  | gfFrac gd gden gnum => exact h.setG gd (toNat_frac_lt hv _ (h.getG_lt _))
  | gfIszero gd gs => exact h.setG gd (toNat_iszero_lt _ _)
  | gfBitrev gd gs => exact h.setG gd (vecOfBits_lt _ _ _)
  | plEval gd ps ga => exact h.setG gd (toNat_eval_lt hv (h.readE_lt _) _)
  | bmRun pd => exact Inv.declareFull (h.fillE (b := .p pd) le_rfl (toNat_locator_lt hv _)) _
  | bnEnc =>
    have hbits := Inv.declareFull (h.fillB (b := .cb) le_rfl (packCtrl s.build s.encBits)) (.byte .cb)
    exact hbits.host s.bufaddr s.drawsAfterEnc s.port s.replies
  | bnApply rev => exact h.fillB (b := .pl) le_rfl _
  | bnSup =>
    have hplanes := Inv.declareFull
      (h.fillB (b := .pl) le_rfl (packPlane s.build s.supportPlanes (fun _ => 0))) (.byte .pl)
    exact Inv.declareFull (Inv.fillE (b := .sup) hplanes le_rfl fun _ => vecOfBits_lt _ _ _) _
  | rbInit => exact h.initWith _
  | rbUpd pd => exact h.setDrbg (by simpa [seedFails] using hseed) _
  | rbGen n => exact h.generateWith _ (by simpa [rangeFails] using hrange) (by simpa [seedFails] using hseed)

theorem Inv.exec {s t : State} (h : Inv s) {i : Instr} (ht : exec i s = .next t) : Inv t := by
  rcases exec_cases i s with ⟨c, he⟩ | ⟨-, hf, he⟩ <;> rw [he] at ht <;> cases ht
  · exact h.takeFault _ _
  · exact h.effect hf

end Sys2Proof.Machine
end

section
/-! PROOFS. What the host port does with a transaction, said once: BUFDATA, the register map and HostReset
(10_state.md R40 to R46). -/

namespace Sys2Proof.Machine

/-! ### BUFDATA (R42) -/

section
variable {s : State}

theorem readBufdata_elem {b : EBuf} (h : hostBuf s.bufaddr = some (.buf (.elem b)))
    (hk : hostIndex s.bufaddr < capE s.build b) :
    s.readBufdata = (s.readE b (hostIndex s.bufaddr)).setWidth 32 := by
  simp [State.readBufdata, h, hk]

theorem writeBufdata_elem {b : EBuf} (h : hostBuf s.bufaddr = some (.buf (.elem b)))
    (hk : hostIndex s.bufaddr < capE s.build b) (v : Word) :
    s.writeBufdata v = s.writeE b (hostIndex s.bufaddr) (lowBits s.build.m (v.setWidth 16)) := by
  simp [State.writeBufdata, h, hk]

theorem readBufdata_byte {b : BBuf} (h : hostBuf s.bufaddr = some (.buf (.byte b)))
    (hk : hostIndex s.bufaddr < capB s.build b) :
    s.readBufdata = (s.readB b (hostIndex s.bufaddr)).setWidth 32 := by
  simp [State.readBufdata, h, hk]

theorem writeBufdata_byte {b : BBuf} (h : hostBuf s.bufaddr = some (.buf (.byte b)))
    (hk : hostIndex s.bufaddr < capB s.build b) (v : Word) :
    s.writeBufdata v = s.writeB b (hostIndex s.bufaddr) (v.setWidth 8) := by
  simp [State.writeBufdata, h, hk]

theorem readBufdata_window (h : hostBuf s.bufaddr = some .window) (hk : hostIndex s.bufaddr < 16) :
    s.readBufdata = (s.getG (BitVec.ofNat 4 (hostIndex s.bufaddr))).setWidth 32 := by
  simp [State.readBufdata, h, hk]

theorem writeBufdata_window (h : hostBuf s.bufaddr = some .window) (hk : hostIndex s.bufaddr < 16) (v : Word) :
    s.writeBufdata v =
      s.setG (BitVec.ofNat 4 (hostIndex s.bufaddr)) (lowBits s.build.m (v.setWidth 16)) := by
  simp [State.writeBufdata, h, hk]

/-- Where BUFADDR names no entry, BUFDATA reads 0 and a write is ignored. -/
theorem bufdata_out_of_range
    (he : ∀ b, hostBuf s.bufaddr = some (.buf (.elem b)) → capE s.build b ≤ hostIndex s.bufaddr)
    (hb : ∀ b, hostBuf s.bufaddr = some (.buf (.byte b)) → capB s.build b ≤ hostIndex s.bufaddr)
    (hw : hostBuf s.bufaddr = some .window → 16 ≤ hostIndex s.bufaddr) (v : Word) :
    s.readBufdata = 0 ∧ s.writeBufdata v = s := by
  rcases h : hostBuf s.bufaddr with _ | _ | (b | b)
  · simp [State.readBufdata, State.writeBufdata, h]
  · simp [State.readBufdata, State.writeBufdata, h, Nat.not_lt.mpr (hw h)]
  · simp [State.readBufdata, State.writeBufdata, h, Nat.not_lt.mpr (he b h)]
  · simp [State.readBufdata, State.writeBufdata, h, Nat.not_lt.mpr (hb b h)]

end

/-- Everything a write of BUFDATA can be: nothing, or the write of one register or of one entry below its capacity. -/
theorem writeBufdata_cases (s : State) (v : Word) :
    s.writeBufdata v = s ∨
      (∃ r, s.writeBufdata v = s.setG r (lowBits s.build.m (v.setWidth 16))) ∨
      (∃ b i, i < capE s.build b ∧ s.writeBufdata v = s.writeE b i (lowBits s.build.m (v.setWidth 16))) ∨
      ∃ b i, i < capB s.build b ∧ s.writeBufdata v = s.writeB b i (v.setWidth 8) := by
  rcases h : hostBuf s.bufaddr with _ | _ | (b | b)
  · exact .inl (by simp [State.writeBufdata, h])
  · by_cases hk : hostIndex s.bufaddr < 16
    · exact .inr (.inl ⟨_, writeBufdata_window h hk v⟩)
    · exact .inl (by simp [State.writeBufdata, h, hk])
  · by_cases hk : hostIndex s.bufaddr < capE s.build b
    · exact .inr (.inr (.inl ⟨b, _, hk, writeBufdata_elem h hk v⟩))
    · exact .inl (by simp [State.writeBufdata, h, hk])
  · by_cases hk : hostIndex s.bufaddr < capB s.build b
    · exact .inr (.inr (.inr ⟨b, _, hk, writeBufdata_byte h hk v⟩))
    · exact .inl (by simp [State.writeBufdata, h, hk])

/-- What a write of BUFDATA never changes, whatever BUFADDR names (R42). -/
theorem writeBufdata_frame (s : State) (v : Word) :
    (s.writeBufdata v).bufaddr = s.bufaddr ∧ (s.writeBufdata v).len = s.len ∧
      (s.writeBufdata v).status = s.status ∧ (s.writeBufdata v).fcmd = s.fcmd ∧ (s.writeBufdata v).key = s.key ∧
      (s.writeBufdata v).v = s.v ∧ (s.writeBufdata v).build = s.build ∧ (s.writeBufdata v).draws = s.draws ∧
      (s.writeBufdata v).port = s.port ∧ (s.writeBufdata v).replies = s.replies := by
  rcases writeBufdata_cases s v with h | ⟨r, h⟩ | ⟨b, i, -, h⟩ | ⟨b, i, -, h⟩ <;> rw [h] <;> simp

/-- A read of BUFDATA does not look at KEY and V (10_state.md R46). -/
theorem readBufdata_drbg (s : State) (kv : Bytes32 × Bytes16) : (s.setDrbg kv).readBufdata = s.readBufdata := by
  rcases h : hostBuf s.bufaddr with _ | _ | (b | b)
  · simp [State.readBufdata, h]
  · by_cases hk : hostIndex s.bufaddr < 16 <;> simp [State.readBufdata, h, hk]
  · simp [State.readBufdata, h]
  · simp [State.readBufdata, h]

/-- A write of BUFDATA does not look at KEY and V (10_state.md R46). -/
theorem writeBufdata_drbg (s : State) (kv : Bytes32 × Bytes16) (w : Word) :
    (s.setDrbg kv).writeBufdata w = (s.writeBufdata w).setDrbg kv := by
  have hbuf : (s.setDrbg kv).bufaddr = s.bufaddr := rfl
  rcases h : hostBuf s.bufaddr with _ | _ | (b | b)
  · simp [State.writeBufdata, h]
  · by_cases hk : hostIndex s.bufaddr < 16 <;> simp [State.writeBufdata, h, hk]
    rfl
  · by_cases hk : hostIndex s.bufaddr < capE s.build b <;> simp [State.writeBufdata, h, hk]
    cases b <;> rfl
  · by_cases hk : hostIndex s.bufaddr < capB s.build b <;> simp [State.writeBufdata, h, hk]
    cases b <;> rfl

theorem Inv.writeBufdata {s : State} (h : Inv s) (v : Word) : Inv (s.writeBufdata v) := by
  rcases writeBufdata_cases s v with he | ⟨r, he⟩ | ⟨b, i, hi, he⟩ | ⟨b, i, hi, he⟩ <;> rw [he]
  · exact h
  · exact h.setG r (lowBits_lt _ _)
  · exact h.writeE hi (lowBits_lt _ _)
  · exact h.writeB hi _

/-! ### Reads (R41) -/

/-- No host register shows KEY and V (R46). -/
theorem hostRead_drbg (s : State) (kv : Bytes32 × Bytes16) (off : Nat) :
    (s.setDrbg kv).hostRead off = s.hostRead off := by
  unfold State.hostRead
  split
  case h_5 => exact readBufdata_drbg s kv
  all_goals rfl

/-! ### Writes (R41) -/

/-- Everything a write of 32 bits can be: the issue of a word at CMD; BUFADDR, BUFDATA or a fill count taking the value;
or nothing. -/
theorem hostWrite_cases (s : State) (off : Nat) (v : Word) :
    (off = 0x08 ∧ s.hostWrite off v = s.issue v) ∨
      s.hostWrite off v = ({ s with bufaddr := v }, none) ∨
      s.hostWrite off v = (s.writeBufdata v, none) ∨
      (∃ b, s.hostWrite off v = (s.setLen b v, none)) ∨
      s.hostWrite off v = (s, none) := by
  unfold State.hostWrite
  split
  · next h => exact .inl ⟨hostReg_cmd h, rfl⟩
  · exact .inr (.inl rfl)
  · split
    · exact .inr (.inr (.inr (.inr rfl)))
    · exact .inr (.inr (.inl rfl))
  · next b _ =>
    split
    · exact .inr (.inr (.inr (.inr rfl)))
    · exact .inr (.inr (.inr (.inl ⟨b, rfl⟩)))
  · exact .inr (.inr (.inr (.inr rfl)))

/-- Everything the issue of a word can be (60_exceptions.md R206, steps 1 and 2). -/
theorem issue_cases (s : State) (w : Word) :
    (s.status.abort = true ∧ s.issue w = (s, none)) ∨
      (s.status.abort = false ∧ ∃ i, decode s.build.m w = .ok i ∧ s.issue w = (s, some i)) ∨
      (s.status.abort = false ∧ s.issue w = (s.takeFault .illegal w, none)) := by
  unfold State.issue
  cases ha : s.status.abort
  · rcases hd : decode s.build.m w with e | i
    · exact .inr (.inr ⟨rfl, rfl⟩)
    · exact .inr (.inl ⟨rfl, i, rfl, rfl⟩)
  · exact .inl ⟨rfl, rfl⟩

theorem issue_of_decode {s : State} {w : Word} {i : Instr} (ha : s.status.abort = false)
    (hd : decode s.build.m w = .ok i) : s.issue w = (s, some i) := by
  simp [State.issue, ha, hd]

/-- A write that does not reach CMD does not look at KEY and V (R46). -/
theorem hostWrite_drbg (s : State) (kv : Bytes32 × Bytes16) {off : Nat} (h : off ≠ 0x08) (w : Word) :
    (s.setDrbg kv).hostWrite off w = ((s.hostWrite off w).1.setDrbg kv, none) := by
  unfold State.hostWrite
  split
  · next hc => exact absurd (hostReg_cmd hc) h
  · rfl
  · cases ha : s.status.abort <;> simp [ha, writeBufdata_drbg]
  · cases ha : s.status.abort <;> simp [ha]
    rfl
  · rfl

/-! ### A transaction (R40) -/

/-- Everything the port does with a transaction that issues no command. -/
theorem accept_cases {s t : State} {x : HostTxn} (ha : s.accept x = (t, none)) :
    (x = .reset ∧ t = s.hostReset) ∨ (∃ rs, t = { s with replies := rs }) ∨ (∃ a, t = { s with bufaddr := a }) ∨
      (∃ v, t = s.writeBufdata v) ∨ (∃ b v, t = s.setLen b v) ∨ (∃ w, t = s.takeFault .illegal w) ∨ t = s := by
  have ht : t = (s.accept x).1 := by rw [ha]
  cases x with
  | reset => exact .inl ⟨rfl, ht⟩
  | read width off => exact .inr (.inl ⟨_, ht⟩)
  | write width off v =>
    refine .inr (.inr ?_)
    by_cases hw : width = 32
    · rw [State.accept, if_pos hw] at ht
      rcases hostWrite_cases s off v with ⟨-, he⟩ | he | he | ⟨b, he⟩ | he <;> rw [he] at ht
      · refine .inr (.inr (.inr ?_))
        rcases issue_cases s v with ⟨-, hi⟩ | ⟨-, i, -, hi⟩ | ⟨-, hi⟩ <;> rw [hi] at ht
        · exact .inr ht
        · exact .inr ht
        · exact .inl ⟨v, ht⟩
      · exact .inl ⟨v, ht⟩
      · exact .inr (.inl ⟨v, ht⟩)
      · exact .inr (.inr (.inl ⟨b, v, ht⟩))
      · exact .inr (.inr (.inr (.inr ht)))
    · rw [State.accept, if_neg hw] at ht
      exact .inr (.inr (.inr (.inr ht)))

theorem Inv.accept {s t : State} {x : HostTxn} (h : Inv s) (ha : s.accept x = (t, none)) : Inv t := by
  rcases accept_cases ha with ⟨-, rfl⟩ | ⟨rs, rfl⟩ | ⟨a, rfl⟩ | ⟨v, rfl⟩ | ⟨b, v, rfl⟩ | ⟨w, rfl⟩ | rfl
  · exact h.hostReset
  · exact h.host _ _ _ rs
  · exact h.host a _ _ _
  · exact h.writeBufdata v
  · exact h.setLen b v
  · exact h.takeFault _ w
  · exact h

/-- HostReset is the only transaction that, by itself, changes SEEDED (R37). -/
theorem accept_seeded {s t : State} {x : HostTxn} (ha : s.accept x = (t, none)) (hx : x ≠ .reset) :
    t.status.seeded = s.status.seeded := by
  rcases accept_cases ha with ⟨hr, -⟩ | ⟨rs, rfl⟩ | ⟨a, rfl⟩ | ⟨v, rfl⟩ | ⟨b, v, rfl⟩ | ⟨w, rfl⟩ | rfl
  · exact absurd hr hx
  case inr.inr.inr.inl =>
    obtain ⟨-, -, hst, -⟩ := writeBufdata_frame s v
    rw [hst]
  all_goals rfl

end Sys2Proof.Machine
end

section
/-! PROOFS. The frame of the nineteen commands (10_state.md R26, R34, R35; 20_memory.md R59, R61): component by
component, what the effect of a command leaves as it was. -/

namespace Sys2Proof.Machine

/-! ### What the accessors see after a generator command -/

@[simp] theorem getG_initWith (e : Cipher) (s : State) (r : GReg) : (initWith e s).getG r = s.getG r := by
  simp [State.getG]
@[simp] theorem readE_initWith (e : Cipher) (s : State) (b : EBuf) (k : Nat) :
    (initWith e s).readE b k = s.readE b k := by cases b <;> simp [State.readE, State.getE]
@[simp] theorem readB_initWith (e : Cipher) (s : State) (b : BBuf) (k : Nat) :
    (initWith e s).readB b k = s.readB b k := by cases b <;> simp [State.readB, State.getB]
@[simp] theorem getLen_initWith (e : Cipher) (s : State) (b : Buf) : (initWith e s).getLen b = s.getLen b := by
  simp [State.getLen]

@[simp] theorem getG_updateWith (e : Cipher) (pd : Bool) (s : State) (r : GReg) :
    (updateWith e pd s).getG r = s.getG r := by
  simp [State.getG]
@[simp] theorem readE_updateWith (e : Cipher) (pd : Bool) (s : State) (b : EBuf) (k : Nat) :
    (updateWith e pd s).readE b k = s.readE b k := readE_setDrbg s _ b k
@[simp] theorem readB_updateWith (e : Cipher) (pd : Bool) (s : State) (b : BBuf) (k : Nat) :
    (updateWith e pd s).readB b k = s.readB b k := readB_setDrbg s _ b k
@[simp] theorem getLen_updateWith (e : Cipher) (pd : Bool) (s : State) (b : Buf) :
    (updateWith e pd s).getLen b = s.getLen b := by
  simp [State.getLen]

@[simp] theorem getG_generateWith (e : Cipher) (n : Nat) (s : State) (r : GReg) :
    (generateWith e n s).getG r = s.getG r := by
  simp [State.getG]
@[simp] theorem readE_generateWith (e : Cipher) (n : Nat) (s : State) (b : EBuf) (k : Nat) :
    (generateWith e n s).readE b k = s.readE b k := by simp [generateWith]

/-- RB.GEN stores to the first `n` entries of `OUT` alone (43_drbg.md R175). -/
theorem readB_generateWith_of_not_stored {e : Cipher} {n : Nat} {s : State} (hwf : (s.getB .out).wf = true) {b : BBuf}
    {k : Nat} (h : ¬ (b = .out ∧ k < n)) : (generateWith e n s).readB b k = s.readB b k := by
  simp only [generateWith, readB_setDrbg, readB_setLen]
  rw [readB_fillB hwf, if_neg h]

/-- RB.GEN writes the fill count of `OUT` alone (43_drbg.md R175). -/
theorem getLen_generateWith_of_ne {e : Cipher} {n : Nat} {s : State} {b : Buf} (h : b ≠ .byte .out) :
    (generateWith e n s).getLen b = s.getLen b := by
  rw [generateWith, getLen_setDrbg, getLen_setLen, if_neg h, getLen_fillB]

/-! ### What the accessors see of another store and of the draw counter -/

@[simp] theorem readB_writeE (s : State) (b : EBuf) (i : Nat) (x : Elem) (b' : BBuf) (k : Nat) :
    (s.writeE b i x).readB b' k = s.readB b' k := readB_congr (getB_writeE s b i x b') k

theorem getG_draws (s : State) (n : Nat) (r : GReg) : State.getG { s with draws := n } r = s.getG r := rfl
theorem readE_draws (s : State) (n : Nat) (b : EBuf) (k : Nat) :
    State.readE { s with draws := n } b k = s.readE b k := by cases b <;> rfl
theorem readB_draws (s : State) (n : Nat) (b : BBuf) (k : Nat) :
    State.readB { s with draws := n } b k = s.readB b k := by cases b <;> rfl
theorem getLen_draws (s : State) (n : Nat) (b : Buf) : State.getLen { s with draws := n } b = s.getLen b := rfl

/-! ### The frame, component by component -/

section
variable {s : State} {i : Instr}

theorem effect_getG {r : GReg} (h : destG i ≠ some r) : (effect i s).getG r = s.getG r := by
  cases i with
  | ldi gd _ | lde gd _ _ | gfAdd gd _ _ | gfMul gd _ _ | gfInv gd _ | gfFrac gd _ _ | gfIszero gd _ | gfBitrev gd _
  | plEval gd _ _ =>
    have hr : r ≠ gd := fun he => h (by rw [he, destG])
    simp only [effect, getG_setG, if_neg hr]
  | bnEnc => rw [effect, getG_draws, getG_declareFull, getG_fillB]
  | nop | ste _ _ _ | setfull _ | bmRun _ | bnApply _ | bnSup | rbInit | rbUpd _ | rbGen _ => simp [effect]

theorem effect_readE (hwf : ∀ b, (s.getE b).wf = true) {b : EBuf} {k : Nat} (h : storesE s.build i b k = false) :
    (effect i s).readE b k = s.readE b k := by
  cases i with
  | ste gs b' idx =>
    rw [effect, readE_writeE (hwf b'), if_neg (by simpa [storesE] using h)]
  | bmRun pd =>
    rw [effect, readE_declareFull, readE_fillE (hwf _), if_neg (by simpa [storesE] using h)]
  | bnSup =>
    rw [effect, readE_declareFull, readE_fillE (by simpa using hwf .sup), if_neg (by simpa [storesE] using h)]
    simp
  | bnEnc => rw [effect, readE_draws, readE_declareFull, readE_fillB]
  | _ => simp [effect]

theorem effect_readB (hwf : ∀ b, (s.getB b).wf = true) {b : BBuf} {k : Nat} (h : storesB s.build i b k = false) :
    (effect i s).readB b k = s.readB b k := by
  cases i with
  | bnEnc =>
    rw [effect, readB_draws, readB_declareFull, readB_fillB (hwf _), if_neg (by simpa [storesB] using h)]
  | bnApply rev => rw [effect, readB_fillB (hwf _), if_neg (by simpa [storesB] using h)]
  | bnSup =>
    rw [effect, readB_declareFull, readB_fillE, readB_declareFull, readB_fillB (hwf _),
      if_neg (by simpa [storesB] using h)]
  | rbGen n => exact readB_generateWith_of_not_stored (hwf _) (by simpa [storesB] using h)
  | _ => simp [effect]

theorem effect_getLen {b : Buf} (h : setsLen i b = false) : (effect i s).getLen b = s.getLen b := by
  cases i with
  | setfull b' => exact getLen_declareFull_of_ne s (by simpa [setsLen] using h)
  | bmRun pd => rw [effect, getLen_declareFull_of_ne _ (by simpa [setsLen] using h), getLen_fillE]
  | bnEnc => 
    rw [effect, getLen_draws, getLen_declareFull_of_ne _ (by simpa [setsLen] using h), getLen_fillB]
  | bnSup =>
    obtain ⟨hpl, hsup⟩ : b ≠ .byte .pl ∧ b ≠ .elem .sup := by simpa [setsLen] using h
    rw [effect, getLen_declareFull_of_ne _ hsup, getLen_fillE, getLen_declareFull_of_ne _ hpl, getLen_fillB]
  | rbGen n => exact getLen_generateWith_of_ne (by simpa [setsLen] using h)
  | _ => simp [effect]

theorem effect_drbg (h : usesGenerator i = false) : (effect i s).key = s.key ∧ (effect i s).v = s.v := by
  cases i with
  | rbInit | rbUpd _ | rbGen _ => cases h
  | _ => simp [effect]

/-- RB.INIT alone writes STATUS (10_state.md R37). -/
theorem effect_status (h : i ≠ .rbInit) : (effect i s).status = s.status := by
  cases i with
  | rbInit => exact absurd rfl h
  | _ => simp [effect]

theorem effect_host : (effect i s).bufaddr = s.bufaddr ∧ (effect i s).build = s.build ∧
    (effect i s).port = s.port ∧ (effect i s).replies = s.replies := by
  cases i <;> simp [effect]

end

/-- A command that takes a fault, or that is not RB.INIT, leaves SEEDED; RB.INIT sets it (10_state.md R37). -/
theorem exec_seeded {s t : State} {i : Instr} (h : exec i s = .next t) :
    t.status.seeded = s.status.seeded ∨
      (i = .rbInit ∧ (s.getLen (.byte .ent)).toNat = 48 ∧ t.status.seeded = true) := by
  rcases exec_cases i s with ⟨c, he⟩ | ⟨-, hf, he⟩ <;> rw [he] at h <;> cases h
  · exact .inl rfl
  · by_cases hi : i = .rbInit
    · subst hi
      obtain ⟨-, -, hfill⟩ := faultOf_eq_none.1 hf
      exact .inr ⟨rfl, by simpa [fillFails, fillRequired] using hfill, by simp [effect]⟩
    · exact .inl (by rw [effect_status hi])

/-! ### The opcode of a decoded word -/

theorem decodeEntry_eq_ok {w : Word} {f : GReg → EBuf → BitVec 16 → Instr} {i : Instr} (h : decodeEntry w f = .ok i) :
    ∃ b, f (fieldA w) b (fieldImm w) = i := by
  unfold decodeEntry at h
  split at h
  · next b _ => exact ⟨b, Except.ok.inj h⟩
  · cases h

/-- A word that decodes carries the opcode of its command's row (30_encoding.md R75). -/
theorem fieldOp_of_decode {m : Nat} {w : Word} {i : Instr} (h : decode m w = .ok i) :
    fieldOp w = Laws.opcodeNumber i := by
  unfold decode at h
  split at h
  case h_3 hw | h_4 hw =>
    obtain ⟨b, rfl⟩ := decodeEntry_eq_ok h
    exact BitVec.eq_of_toNat_eq hw
  case h_5 hw =>
    obtain ⟨-, hm⟩ := need_eq_ok.1 h
    split at hm
    · cases hm
      exact BitVec.eq_of_toNat_eq hw
    · cases hm
  case h_2 hw | h_12 hw | h_13 hw =>
    obtain ⟨-, h'⟩ := need_eq_ok.1 h
    obtain ⟨-, hi⟩ := need_eq_ok.1 h'
    cases hi
    exact BitVec.eq_of_toNat_eq hw
  case h_20 => cases h
  all_goals
    next hw =>
      obtain ⟨-, hi⟩ := need_eq_ok.1 h
      cases hi
      exact BitVec.eq_of_toNat_eq hw

/-- Only the word of RB.INIT decodes to it (30_encoding.md R75, R77). -/
theorem eq_encode_of_decode_rbInit {m : Nat} {w : Word} (h : decode m w = .ok .rbInit) : w = encode .rbInit := by
  have hop : fieldOp w = 0x40 := fieldOp_of_decode h
  have hfields : fieldA w = 0 ∧ fieldB w = 0 ∧ fieldImm w = 0 := by
    simpa [decode, hop, decodeI0, need_eq_ok, and_assoc] using h
  obtain ⟨ha, hb, himm⟩ := hfields
  rw [← wordI_fields w, hop, ha, hb, himm, encode]

end Sys2Proof.Machine
end

section
/-! PROOFS. The statements about the state, the host port and the step (10_state.md). -/

namespace Sys2Proof.Machine

/-! ### The invariant -/

/-- Settles O54: the transaction without its command keeps the invariant, and so does every command; the state without
its oldest transaction meets it like the state with it. -/
theorem stepKeepsTheInvariant : Obligations.StepKeepsTheInvariant := by
  intro s t h hstep
  obtain ⟨-, ⟨-, rfl⟩ | ⟨x, rest, -, ha⟩ | ⟨w, rest, i, -, -, -, he⟩⟩ := step_cases hstep
  · exact h
  · exact (h.host s.bufaddr s.draws rest s.replies).accept ha
  · exact (h.host s.bufaddr s.draws rest s.replies).exec he

/-- Settles O53, by the invariant of the all-zero state; the spec's example build is one that exists. -/
theorem resetStateMeetsTheInvariant : Obligations.ResetStateMeetsTheInvariant :=
  ⟨fun _ hv => inv_resetOf hv, inv_resetOf (by decide)⟩

/-! ### The step -/

/-- Settles O6: outside ABORT the port hands a word that decodes on as its command. -/
theorem stepRunsTheIssuedCommand : Obligations.StepRunsTheIssuedCommand := by
  rintro s w rest i ⟨hv, hab, hport⟩ hd
  exact step_exec hv hport ((accept_command _ w).trans (issue_of_decode hab hd))

/-! ### HostReset (R45) -/

/-- Settles O11: the step is HostReset, and each accessor of the all-zero state answers zero. -/
theorem hostResetClearsEverything : Obligations.HostResetClearsEverything := by
  intro s rest hv hport
  refine ⟨_, step_accept hv hport rfl, fun r => ?_, fun b k => ?_, fun b k => ?_, fun b => ?_, fun k => ?_, fun k => ?_,
    rfl, rfl, rfl, rfl, rfl, rfl⟩
  · simp [State.getG, State.hostReset, State.resetOf]
  · cases b <;> simp [State.readE, State.getE, State.hostReset, State.resetOf]
  · cases b <;> rfl
  · simp [State.getLen, State.hostReset, State.resetOf]
  · simp [State.hostReset, State.resetOf]
  · simp [State.hostReset, State.resetOf]

/-! ### Reads (R41) -/

/-- The bits of STATUS as the host reads it (10_state.md R37). -/
theorem status_word_bits (st : Status) :
    st.word.getLsbD 0 = st.busy ∧ st.word.getLsbD 1 = st.abort ∧ st.word.getLsbD 2 = st.seeded ∧
      st.word.getLsbD 3 = false ∧ st.word.extractLsb' 4 4 = st.cause ∧ st.word.extractLsb' 8 24 = 0 := by
  obtain ⟨busy, abort, seeded, cause⟩ := st
  revert busy abort seeded cause
  decide

/-- Settles O12, register by register through `hostReg`; a parameter of an existing build fits its 32-bit register. -/
theorem hostReadsFollowTheRegisterMap : Obligations.HostReadsFollowTheRegisterMap := by
  intro s width off rest hv hport
  refine ⟨_, step_accept hv hport rfl, fun hw => if_neg hw, ?_⟩
  rintro rfl
  obtain ⟨⟨-, hm⟩, ⟨hpoly, -⟩, ⟨-, ht⟩, ⟨-, hn⟩, -, ho⟩ := (valid_iff s.build).1 hv
  have hq : 2 ^ s.build.m ≤ 2 ^ 16 := Nat.pow_le_pow_right (by norm_num) hm
  have hreg : ∀ n < 2 ^ 32, (BitVec.ofNat 32 n).toNat = n := fun n h => Nat.mod_eq_of_lt h
  rw [State.replyTo, if_pos rfl]
  refine ⟨?_, ?_, ?_, ?_, ?_, ?_, ?_, ?_, ?_, ?_, ?_, ?_⟩
  · rintro rfl
    exact status_word_bits s.status
  · rintro rfl; rfl
  · rintro rfl; rfl
  · rintro rfl; rfl
  · rintro rfl; rfl
  · rintro rfl
    exact hreg s.build.m (by omega)
  · rintro rfl
    exact hreg s.build.t (by omega)
  · rintro rfl
    exact hreg s.build.n (by omega)
  · rintro rfl
    exact BitVec.toNat_setWidth_of_le (by norm_num)
  · rintro rfl
    exact hreg s.build.outMax (by omega)
  · rintro b rfl
    rw [State.hostRead, hostReg_len]
    rfl
  · intro hnamed hlen
    by_cases hcmd : off = 0x08
    · subst hcmd; rfl
    · rw [State.hostRead, hostReg_reserved ?_ hlen]
      simp only [List.mem_cons, List.not_mem_nil, or_false, not_or] at hnamed ⊢
      omega

/-! ### BUFDATA (R42) -/

/-- Settles O13: BUFADDR's number decides which of the four cases of BUFDATA applies. -/
theorem bufdataReachesTheAddressedEntry : Obligations.BufdataReachesTheAddressedEntry := by
  intro s v hE hB n k t
  obtain ⟨h1, h2, h3, h4, h5, h6, h7, h8, h9, h10⟩ := writeBufdata_frame s v
  refine ⟨h1, h2, h3, h4, h5, h6, h7, h8, h9, h10, fun b hn hk => ?_, fun b hn hk => ?_, fun hn hk => ?_,
    fun he hb hw => ?_⟩
  · have hbuf : hostBuf s.bufaddr = some (.buf (.elem b)) := hostBuf_of_number hn
    have ht : t = s.writeE b k (lowBits s.build.m (v.setWidth 16)) := writeBufdata_elem hbuf hk v
    refine ⟨readBufdata_elem hbuf hk, ?_, fun b' k' hne => ?_, ?_, fun b' => ?_⟩ <;> rw [ht]
    · rw [readE_writeE (hE b), if_pos ⟨rfl, rfl⟩]
    · rw [readE_writeE (hE b), if_neg (by simpa using hne)]
    · simp
    · simp
  · have hbuf : hostBuf s.bufaddr = some (.buf (.byte b)) := hostBuf_of_number hn
    have ht : t = s.writeB b k (v.setWidth 8) := writeBufdata_byte hbuf hk v
    refine ⟨readBufdata_byte hbuf hk, ?_, fun b' k' hne => ?_, ?_, fun b' => ?_⟩ <;> rw [ht]
    · rw [readB_writeB (hB b), if_pos ⟨rfl, rfl⟩]
    · rw [readB_writeB (hB b), if_neg (by simpa using hne)]
    · simp
    · simp
  · have hbuf : hostBuf s.bufaddr = some .window := (hostBuf_window _).2 hn
    have ht : t = s.setG (BitVec.ofNat 4 k) (lowBits s.build.m (v.setWidth 16)) := writeBufdata_window hbuf hk v
    refine ⟨readBufdata_window hbuf hk, ?_, fun r hr => ?_, fun b' => ?_, fun b' => ?_⟩ <;> rw [ht]
    · rw [getG_setG_self]
    · rw [getG_setG, if_neg]
      rintro rfl
      exact hr (by rw [BitVec.toNat_ofNat, Nat.mod_eq_of_lt hk])
    · simp
    · simp
  · exact bufdata_out_of_range (fun b hbuf => he b (number_of_hostBuf hbuf))
      (fun b hbuf => hb b (number_of_hostBuf hbuf)) (fun hbuf => hw ((hostBuf_window _).1 hbuf)) v

/-! ### Writes (R41) -/

/-- An offset other than CMD, BUFADDR, BUFDATA and the fill counts is read-only, reserved or unmapped: a write there is
ignored (10_state.md R41). -/
theorem hostWrite_ignored (s : State) {off : Nat} (v : Word) (h : off ∉ [0x08, 0x0C, 0x10])
    (hl : ∀ b : Buf, off ≠ 0x40 + 4 * b.number.toNat) : s.hostWrite off v = (s, none) := by
  simp only [List.mem_cons, List.not_mem_nil, or_false, not_or] at h
  obtain ⟨h8, hC, h10⟩ := h
  by_cases hro : off ∈ [0x00, 0x04, 0x20, 0x24, 0x28, 0x2C, 0x30]
  · simp only [List.mem_cons, List.not_mem_nil, or_false] at hro
    rcases hro with rfl | rfl | rfl | rfl | rfl | rfl | rfl <;> rfl
  · rw [State.hostWrite, hostReg_reserved ?_ hl]
    simp only [List.mem_cons, List.not_mem_nil, or_false, not_or] at hro ⊢
    omega

/-- Settles O14, through the register each offset is. -/
theorem hostWritesFollowTheRegisterMap : Obligations.HostWritesFollowTheRegisterMap := by
  intro s width off v rest hv hab hport
  have hwrite : ∀ t, State.hostWrite { s with port := rest } off v = (t, none) → width = 32 → step s = .next t := by
    rintro t ht rfl
    exact step_accept hv hport ht
  refine ⟨fun hw => step_accept hv hport (if_neg hw), fun hw => ⟨?_, ?_, ?_, ?_⟩⟩
  · rintro rfl
    exact hwrite _ rfl hw
  · rintro rfl
    refine hwrite _ ?_ hw
    simp [State.hostWrite, hostReg, hab]
  · rintro b rfl
    refine hwrite _ ?_ hw
    simp [State.hostWrite, hostReg_len, hab]
  · intro hnamed hlen
    exact hwrite _ (hostWrite_ignored _ v hnamed hlen) hw

/-! ### The generator's state (R35, R37, R46) -/

/-- A transaction other than HostReset that issues no command acts on the state alike whatever KEY and V hold. -/
theorem accept_drbg (s : State) (kv : Bytes32 × Bytes16) {x : HostTxn} (hcmd : ∀ w, x ≠ commandTxn w)
    (hreset : x ≠ .reset) : (s.setDrbg kv).accept x = ((s.accept x).1.setDrbg kv, none) := by
  cases x with
  | reset => exact absurd rfl hreset
  | read width off =>
    have hread : (s.setDrbg kv).replyTo width off = s.replyTo width off := by
      rw [State.replyTo, State.replyTo, hostRead_drbg]
    rw [State.accept, hread]
    rfl
  | write width off v =>
    by_cases hw : width = 32
    · subst hw
      have hoff : off ≠ 0x08 := by
        rintro rfl
        exact hcmd v rfl
      exact hostWrite_drbg s kv hoff v
    · rw [State.accept, State.accept, if_neg hw, if_neg hw]

/-- Settles O15: the transaction commutes with the replacement of KEY and V; with the values they hold, this says that
it leaves them. -/
theorem hostCannotReachTheGeneratorState : Obligations.HostCannotReachTheGeneratorState := by
  intro s x key v hcmd
  by_cases hx : x = .reset
  · subst hx
    exact ⟨rfl, .inl rfl⟩
  · have hsame := accept_drbg s (s.key, s.v) hcmd hx
    have hother := accept_drbg s (key, v) hcmd hx
    have hs : s.accept x = ((s.accept x).1.setDrbg (s.key, s.v), none) := hsame
    refine ⟨congrArg (fun p => p.1.replies) hother, .inr ⟨?_, ?_, hother⟩⟩
    · exact congrArg (fun p => p.1.key) hs
    · exact congrArg (fun p => p.1.v) hs

/-- Settles O56: of everything a step can do, only HostReset and the execution of RB.INIT change SEEDED, and only the
word of RB.INIT decodes to it. -/
theorem seededChangesOnlyByInitAndReset : Obligations.SeededChangesOnlyByInitAndReset := by
  intro s t hstep
  by_cases hkeep : t.status.seeded = s.status.seeded
  · rw [hkeep]
    exact ⟨fun h0 h1 => absurd (h0.symm.trans h1) (by decide), fun h1 h0 => absurd (h0.symm.trans h1) (by decide)⟩
  obtain ⟨-, ⟨-, rfl⟩ | ⟨x, rest, hport, ha⟩ | ⟨w, rest, i, hport, hab, hd, he⟩⟩ := step_cases hstep
  · exact absurd rfl hkeep
  · by_cases hx : x = .reset
    · subst hx
      cases ha
      exact ⟨fun _ h1 => (by cases h1), fun _ _ => ⟨rest, hport⟩⟩
    · exact absurd (accept_seeded ha hx) hkeep
  · rcases exec_seeded he with hsame | ⟨rfl, hlen, hset⟩
    · exact absurd hsame hkeep
    · rw [eq_encode_of_decode_rbInit hd] at hport
      exact ⟨fun _ _ => ⟨rest, hport, hab, hlen, hstep.trans he.symm⟩,
        fun _ h0 => absurd (hset.symm.trans h0) (by decide)⟩

/-! ### The frame of the commands -/

/-- Settles O51, component by component: a fault writes STATUS and FCMD alone, and the effect of a command keeps its
frame. -/
theorem commandsChangeOnlyTheirDestinations : Obligations.CommandsChangeOnlyTheirDestinations := by
  intro i s t hE hB h
  rcases exec_cases i s with ⟨c, he⟩ | ⟨-, -, he⟩ <;> rw [he] at h <;> cases h
  · exact ⟨fun _ _ => rfl, fun b k _ => readE_takeFault s c _ b k, fun b k _ => readB_takeFault s c _ b k,
      fun _ _ => rfl, fun _ => ⟨rfl, rfl⟩, fun _ => rfl, rfl, rfl, rfl, rfl⟩
  · exact ⟨fun _ hr => effect_getG hr, fun _ _ hk => effect_readE hE hk, fun _ _ hk => effect_readB hB hk,
      fun _ hb => effect_getLen hb, effect_drbg, fun hi => by rw [effect_status hi], effect_host⟩

end Sys2Proof.Machine
end

section
/-! SUPPORT. Each format's decoder against its word in both directions, and which words a row's mask lets through
(30_encoding.md R70 to R79, R83). -/

namespace Sys2Proof

/-! ### Words as their fields -/

/-- A word with `z` zero is its fields in format R. -/
theorem wordR_fields {w : Word} (hz : fieldZ w = 0) : wordR (fieldOp w) (fieldA w) (fieldB w) (fieldC w) = w := by
  have himm : fieldC w ++ 0#12 = fieldImm w := by rw [fieldImm_eq, hz]; rfl
  rw [wordR_eq_wordI, himm, wordI_fields]

theorem flagImm_of_high_zero {imm : BitVec 16} (h : imm.extractLsb' 1 15 = 0) : flagImm (imm.getLsbD 0) = imm := by
  apply BitVec.eq_of_getLsbD_eq
  intro i hi
  cases i with
  | zero => exact flagImm_getLsbD _
  | succ k =>
    have hbit (v : BitVec 16) : v.getLsbD (k + 1) = (v.extractLsb' 1 15).getLsbD k := by
      rw [BitVec.getLsbD_extractLsb', Nat.add_comm 1 k]; simp; omega
    rw [hbit, hbit, flagImm_high, h]

/-- A 4-bit number below 4 is a `P` register's (30_encoding.md R73). -/
theorem setWidth_two_four {n : BitVec 4} (h : n.toNat < 4) : (n.setWidth 2).setWidth 4 = n := by
  revert n; decide

/-- Two numbers written side by side are a sum of shifted fields. -/
theorem setWidth_append_eq {n k : Nat} (x : BitVec n) (y : BitVec k) (v : Nat) :
    (x ++ y).setWidth v = (x.setWidth v <<< k) ||| y.setWidth v := by
  apply BitVec.eq_of_getLsbD_eq
  intro i hi
  simp only [BitVec.getLsbD_setWidth, BitVec.getLsbD_append, BitVec.getLsbD_or, BitVec.getLsbD_shiftLeft]
  by_cases hk : i < k
  · simp [hi, hk]
  · simp [hi, hk, BitVec.getLsbD_of_ge y i (by omega)]; intros; omega

/-- Format I as the sum of its shifted fields (30_encoding.md R83). -/
theorem wordI_eq_shifts (op : BitVec 8) (a b : BitVec 4) (imm : BitVec 16) : wordI op a b imm =
    (op.setWidth 32 <<< 24) ||| (a.setWidth 32 <<< 20) ||| (b.setWidth 32 <<< 16) ||| imm.setWidth 32 := by
  rw [wordI, ← BitVec.setWidth_eq (op ++ a ++ b ++ imm)]
  simp only [setWidth_append_eq, BitVec.shiftLeft_or_distrib, ← BitVec.shiftLeft_add]

/-! ### The opcode of an encoded word -/

/-- The word of a command carries the opcode of its row (30_encoding.md R75). -/
theorem fieldOp_encode (i : Instr) : fieldOp (encode i) = Laws.opcodeNumber i := by
  cases i
  case gfAdd | gfMul | gfInv | gfFrac | gfIszero | gfBitrev | plEval => exact fieldOp_wordR _ _ _ _
  all_goals exact fieldOp_wordI _ _ _ _

/-! ### A format's decoder on a word of that format -/

@[simp] theorem need_true (why : Illegal) (k : Except Illegal Instr) : need true why k = k := rfl

theorem decodeR3_wordR (op : BitVec 8) (a b c : GReg) (f : GReg → GReg → GReg → Instr) :
    decodeR3 (wordR op a b c) f = .ok (f a b c) := by simp [decodeR3]

theorem decodeR2_wordR (op : BitVec 8) (a b : GReg) (f : GReg → GReg → Instr) :
    decodeR2 (wordR op a b 0) f = .ok (f a b) := by simp [decodeR2]

theorem decodeI0_wordI (op : BitVec 8) (i : Instr) : decodeI0 (wordI op 0 0 0) i = .ok i := by simp [decodeI0]

theorem decodeFlag_wordI (op : BitVec 8) (x : Bool) (f : Bool → Instr) :
    decodeFlag (wordI op 0 0 (flagImm x)) f = .ok (f x) := by
  rw [decodeFlag, fieldImm_wordI, flagImm_getLsbD]
  simp

theorem decodeEntry_wordI (op : BitVec 8) (a : GReg) (b : EBuf) (idx : BitVec 16)
    (f : GReg → EBuf → BitVec 16 → Instr) :
    decodeEntry (wordI op a b.number idx) f = .ok (f a b idx) := by simp [decodeEntry]

/-! ### What a format's decoder accepts is the word of its command -/

section
variable {w : Word} {i : Instr} (hop : fieldOp w = Laws.opcodeNumber i)
include hop

theorem encode_of_decodeR3 {f : GReg → GReg → GReg → Instr}
    (henc : ∀ a b c, encode (f a b c) = wordR (Laws.opcodeNumber (f a b c)) a b c) (h : decodeR3 w f = .ok i) :
    encode i = w := by
  obtain ⟨hz, hi⟩ := need_eq_ok.1 h
  cases hi
  rw [henc, ← hop, wordR_fields (eq_of_beq hz)]

theorem encode_of_decodeR2 {f : GReg → GReg → Instr}
    (henc : ∀ a b, encode (f a b) = wordR (Laws.opcodeNumber (f a b)) a b 0) (h : decodeR2 w f = .ok i) :
    encode i = w := by
  obtain ⟨hcz, hi⟩ := need_eq_ok.1 h
  obtain ⟨hc, hz⟩ : fieldC w = 0 ∧ fieldZ w = 0 := by simpa using hcz
  cases hi
  rw [henc, ← hop, ← hc, wordR_fields hz]

theorem encode_of_decodeI0 {j : Instr} (henc : encode j = wordI (Laws.opcodeNumber j) 0 0 0)
    (h : decodeI0 w j = .ok i) : encode i = w := by
  obtain ⟨hz, hi⟩ := need_eq_ok.1 h
  obtain ⟨⟨ha, hb⟩, himm⟩ : (fieldA w = 0 ∧ fieldB w = 0) ∧ fieldImm w = 0 := by simpa using hz
  cases hi
  rw [henc, ← hop, ← wordI_fields w, ha, hb, himm, fieldOp_wordI]

theorem encode_of_decodeFlag {f : Bool → Instr}
    (henc : ∀ x, encode (f x) = wordI (Laws.opcodeNumber (f x)) 0 0 (flagImm x)) (h : decodeFlag w f = .ok i) :
    encode i = w := by
  obtain ⟨hz, hi⟩ := need_eq_ok.1 h
  obtain ⟨⟨ha, hb⟩, himm⟩ : (fieldA w = 0 ∧ fieldB w = 0) ∧ (fieldImm w).extractLsb' 1 15 = 0 := by
    simpa using hz
  cases hi
  have hw := wordI_fields w
  rwa [ha, hb, ← flagImm_of_high_zero himm, hop, ← henc] at hw

theorem encode_of_decodeEntry {f : GReg → EBuf → BitVec 16 → Instr}
    (henc : ∀ a b idx, encode (f a b idx) = wordI (Laws.opcodeNumber (f a b idx)) a b.number idx)
    (h : decodeEntry w f = .ok i) : encode i = w := by
  unfold decodeEntry at h
  split at h
  · next b hb =>
    cases h
    rw [henc, ← hop, EBuf.number_of_ofNumber hb, wordI_fields]
  · cases h

end

/-- The round trip of a decoded word, bit for bit (30_encoding.md R77, R83). -/
theorem encode_of_decode {m : Nat} {w : Word} {i : Instr} (h : decode m w = .ok i) : encode i = w := by
  have hop : fieldOp w = Laws.opcodeNumber i := Machine.fieldOp_of_decode h
  have hw : wordI (Laws.opcodeNumber i) (fieldA w) (fieldB w) (fieldImm w) = w := hop ▸ wordI_fields w
  rw [decode, hop] at h
  cases i
  case gfAdd | gfMul | gfFrac => exact encode_of_decodeR3 hop (fun _ _ _ => rfl) h
  case gfInv | gfIszero | gfBitrev => exact encode_of_decodeR2 hop (fun _ _ => rfl) h
  case nop | bnEnc | bnSup | rbInit => exact encode_of_decodeI0 hop rfl h
  case bnApply | rbUpd => exact encode_of_decodeFlag hop (fun _ => rfl) h
  case lde | ste => exact encode_of_decodeEntry hop (fun _ _ _ => rfl) h
  case ldi =>
    obtain ⟨hb, h⟩ := need_eq_ok.1 h
    obtain ⟨-, hi⟩ := need_eq_ok.1 h
    cases hi
    rwa [eq_of_beq hb] at hw
  case setfull =>
    obtain ⟨hz, h⟩ := need_eq_ok.1 h
    obtain ⟨ha, himm⟩ : fieldA w = 0 ∧ fieldImm w = 0 := by simpa using hz
    split at h
    · next b hb =>
      cases h
      rwa [ha, himm, ← Buf.number_of_ofNumber hb] at hw
    · cases h
  case plEval =>
    obtain ⟨hz, h⟩ := need_eq_ok.1 h
    obtain ⟨hp, hi⟩ := need_eq_ok.1 h
    cases hi
    have hw := wordR_fields (eq_of_beq hz)
    rw [encode, setWidth_two_four (of_decide_eq_true hp)]
    rwa [hop] at hw
  case bmRun =>
    obtain ⟨hz, h⟩ := need_eq_ok.1 h
    obtain ⟨hb, himm⟩ : fieldB w = 0 ∧ fieldImm w = 0 := by simpa using hz
    obtain ⟨hp, hi⟩ := need_eq_ok.1 h
    cases hi
    rw [encode, setWidth_two_four (of_decide_eq_true hp)]
    rwa [hb, himm] at hw
  case rbGen =>
    obtain ⟨hz, hi⟩ := need_eq_ok.1 h
    obtain ⟨ha, hb⟩ : fieldA w = 0 ∧ fieldB w = 0 := by simpa using hz
    cases hi
    rwa [ha, hb] at hw

/-- Only the immediate of LDI can make a command ill-formed, and its row checks it (30_encoding.md R74). -/
theorem wellFormed_of_decode {m : Nat} {w : Word} {i : Instr} (h : decode m w = .ok i) : WellFormed m i = true := by
  cases i with
  | ldi gd imm =>
    rw [decode, Machine.fieldOp_of_decode h] at h
    obtain ⟨-, h⟩ := need_eq_ok.1 h
    obtain ⟨hlt, hi⟩ := need_eq_ok.1 h
    cases hi
    exact hlt
  | _ => rfl

end Sys2Proof
end

section
/-! SUPPORT. The rows of the opcode map, read field by field, against the decoder (30_encoding.md R75, R76). -/

namespace Sys2Proof

/-! ### Which words a format's decoder accepts -/

@[simp] theorem isOk_need (ok : Bool) (why : Illegal) (k : Except Illegal Instr) :
    (need ok why k).isOk = (ok && k.isOk) := by cases ok <;> rfl

@[simp] theorem isOk_ok (i : Instr) : (Except.ok i : Except Illegal Instr).isOk = true := rfl

@[simp] theorem isOk_error (e : Illegal) : (Except.error e : Except Illegal Instr).isOk = false := rfl

theorem isOk_iff_exists_ok {k : Except Illegal Instr} : k.isOk = true ↔ ∃ i, k = .ok i := by
  cases k <;> simp

theorem isOk_eq_false_iff_exists_error {k : Except Illegal Instr} : k.isOk = false ↔ ∃ e, k = .error e := by
  cases k <;> simp

/-- The buffers of LDE and STE, as their rows say it: bit 3 of the number is 0 and the number is not 7. -/
theorem isSome_ofNumber_elem (b : BitVec 4) :
    (EBuf.ofNumber b).isSome = (b &&& 8 == 0 && !(b.setWidth 32 == 7)) := by
  revert b; decide

/-- The buffers of SETFULL, as its row says it: the number is below 12 and not 7. -/
theorem isSome_ofNumber (b : BitVec 4) :
    (Buf.ofNumber b).isSome = (!(b.setWidth 32 == 7) && decide ((b.setWidth 32).toNat < 12)) := by
  revert b; decide

/-! ### A row's mask and constraint, field by field -/

/-- Two words are equal exactly when their fields in format I are. -/
theorem word_ext_iff {v w : Word} :
    v = w ↔ fieldOp v = fieldOp w ∧ fieldA v = fieldA w ∧ fieldB v = fieldB w ∧ fieldImm v = fieldImm w := by
  refine ⟨fun h => by simp [h], fun ⟨hop, ha, hb, himm⟩ => ?_⟩
  rw [← wordI_fields v, hop, ha, hb, himm, wordI_fields]

/-- The rows' constraints read `b` as the word shifted right and masked. -/
theorem shiftRight_and_eq_fieldB (w : Word) : (w >>> 16) &&& 0xF = (fieldB w).setWidth 32 := by
  apply BitVec.eq_of_toNat_eq
  have hmod : w.toNat / 65536 % 16 < 4294967296 := by omega
  simp [fieldB, Nat.shiftRight_eq_div_pow, Nat.and_two_pow_sub_one_eq_mod _ 4, Nat.mod_eq_of_lt hmod]

/-- LDI's constraint reads `imm16` as the word masked. -/
theorem and_eq_fieldImm (w : Word) : w &&& 0xFFFF = (fieldImm w).setWidth 32 := by
  apply BitVec.eq_of_toNat_eq
  have hmod : w.toNat % 65536 < 4294967296 := by omega
  simp [fieldImm, Nat.and_two_pow_sub_one_eq_mod _ 16, Nat.mod_eq_of_lt hmod]

/-- A mask without opcode bits, field by field. -/
theorem and_wordI_eq_zero_iff (w : Word) (a b : BitVec 4) (imm : BitVec 16) :
    w &&& wordI 0 a b imm = 0 ↔ fieldA w &&& a = 0 ∧ fieldB w &&& b = 0 ∧ fieldImm w &&& imm = 0 := by
  have hop : fieldOp (w &&& wordI 0 a b imm) = 0 := by
    rw [fieldOp, BitVec.extractLsb'_and, ← fieldOp, ← fieldOp, fieldOp_wordI]; exact BitVec.and_zero
  have ha : fieldA (w &&& wordI 0 a b imm) = fieldA w &&& a := by
    rw [fieldA, BitVec.extractLsb'_and, ← fieldA, ← fieldA, fieldA_wordI]
  have hb : fieldB (w &&& wordI 0 a b imm) = fieldB w &&& b := by
    rw [fieldB, BitVec.extractLsb'_and, ← fieldB, ← fieldB, fieldB_wordI]
  have himm : fieldImm (w &&& wordI 0 a b imm) = fieldImm w &&& imm := by
    rw [fieldImm, BitVec.extractLsb'_and, ← fieldImm, ← fieldImm, fieldImm_wordI]
  rw [word_ext_iff, hop, ha, hb, himm]
  exact and_iff_right rfl

/-- A field or an immediate under a whole mask is itself; the masks stand as the numerals of the rows. -/
theorem and_allOnes_field (x : BitVec 4) : x &&& 15 = x := BitVec.and_allOnes

theorem and_allOnes_imm (x : BitVec 16) : x &&& 65535 = x := BitVec.and_allOnes

theorem fieldZ_eq_zero_iff (w : Word) : fieldZ w = 0 ↔ fieldImm w &&& 4095 = 0 := by
  rw [fieldZ_of_fieldImm, ← BitVec.toNat_inj, ← BitVec.toNat_inj]
  simp [Nat.and_two_pow_sub_one_eq_mod _ 12]

theorem fieldC_fieldZ_eq_zero_iff (w : Word) : fieldC w = 0 ∧ fieldZ w = 0 ↔ fieldImm w = 0 := by
  constructor
  · rintro ⟨hc, hz⟩
    rw [fieldImm_eq, hc, hz]; rfl
  · intro h
    rw [fieldC_of_fieldImm, fieldZ_of_fieldImm, h]
    exact ⟨rfl, rfl⟩

/-- The rows with a flag leave bit 0 of `imm16` free (30_encoding.md R74). -/
theorem extractLsb'_one_eq_zero_iff (x : BitVec 16) : x.extractLsb' 1 15 = 0 ↔ x &&& 65534 = 0 := by
  have hmask : (65534 : BitVec 16) = BitVec.allOnes 16 <<< 1 := by decide
  rw [hmask]
  constructor
  · intro h
    rw [← flagImm_of_high_zero h]
    cases x.getLsbD 0 <;> decide
  · intro h
    have hhigh := congrArg (BitVec.extractLsb' 1 15) h
    rw [BitVec.extractLsb'_and] at hhigh
    exact (BitVec.and_allOnes).symm.trans hhigh

/-- The rows say "a `P` register number" as two zero bits (30_encoding.md R73). -/
theorem toNat_lt_four_iff (x : BitVec 4) : x.toNat < 4 ↔ x &&& 12 = 0 := by
  revert x; decide

/-- Every row fixes the whole opcode, and the other bits it fixes are 0. -/
theorem opcodeRows_layout : ∀ r ∈ opcodeRows, fieldOp r.mask = 0xFF ∧
    fieldA r.pattern = 0 ∧ fieldB r.pattern = 0 ∧ fieldImm r.pattern = 0 := by decide

theorem opcodeRows_op_nodup : (opcodeRows.map (fun r => fieldOp r.pattern)).Nodup := by decide

theorem opcodeNumber_mem_opcodeRows (i : Instr) :
    Laws.opcodeNumber i ∈ opcodeRows.map (fun r => fieldOp r.pattern) := by
  cases i <;> simp only [Laws.opcodeNumber] <;> decide

/-- A row matches the words that carry its opcode, are zero under the rest of its mask and meet its constraint
(30_encoding.md R76). -/
theorem matchesWord_iff {r : OpcodeRow} (hr : r ∈ opcodeRows) (m : Nat) (w : Word) :
    r.matchesWord m w = true ↔ fieldOp w = fieldOp r.pattern ∧
      w &&& wordI 0 (fieldA r.mask) (fieldB r.mask) (fieldImm r.mask) = 0 ∧ r.extra m w = true := by
  obtain ⟨hop, ha, hb, himm⟩ := opcodeRows_layout r hr
  have hff : fieldOp (w &&& r.mask) = fieldOp w := by
    rw [fieldOp, BitVec.extractLsb'_and, ← fieldOp, ← fieldOp, hop]; exact BitVec.and_allOnes
  rw [OpcodeRow.matchesWord, Bool.and_eq_true, beq_iff_eq, word_ext_iff, hff, ha, hb, himm, and_wordI_eq_zero_iff,
    and_assoc]
  simp only [fieldA, fieldB, fieldImm, BitVec.extractLsb'_and]

/-! ### What the decoder accepts, as bits that must be zero -/

theorem isOk_decodeR3 (w : Word) (f : GReg → GReg → GReg → Instr) :
    (decodeR3 w f).isOk = true ↔ w &&& wordI 0 0 0 0x0FFF = 0 := by
  rw [and_wordI_eq_zero_iff, ← fieldZ_eq_zero_iff]
  simp [decodeR3]

theorem isOk_decodeR2 (w : Word) (f : GReg → GReg → Instr) :
    (decodeR2 w f).isOk = true ↔ w &&& wordI 0 0 0 0xFFFF = 0 := by
  rw [and_wordI_eq_zero_iff, and_allOnes_imm, ← fieldC_fieldZ_eq_zero_iff]
  simp [decodeR2]

theorem isOk_decodeI0 (w : Word) (i : Instr) :
    (decodeI0 w i).isOk = true ↔ w &&& wordI 0 0xF 0xF 0xFFFF = 0 := by
  rw [and_wordI_eq_zero_iff, and_allOnes_field, and_allOnes_field, and_allOnes_imm]
  simp [decodeI0, and_assoc]

theorem isOk_decodeFlag (w : Word) (f : Bool → Instr) :
    (decodeFlag w f).isOk = true ↔ w &&& wordI 0 0xF 0xF 0xFFFE = 0 := by
  rw [and_wordI_eq_zero_iff, and_allOnes_field, and_allOnes_field, ← extractLsb'_one_eq_zero_iff]
  simp [decodeFlag, and_assoc]

theorem isOk_decodeEntry (w : Word) (f : GReg → EBuf → BitVec 16 → Instr) :
    (decodeEntry w f).isOk = true ↔ w &&& wordI 0 0 0x8 0 = 0 ∧ (!((w >>> 16) &&& 0xF == 7)) = true := by
  have hok : (decodeEntry w f).isOk = (EBuf.ofNumber (fieldB w)).isSome := by
    unfold decodeEntry
    cases EBuf.ofNumber (fieldB w) <;> rfl
  rw [hok, isSome_ofNumber_elem, shiftRight_and_eq_fieldB, and_wordI_eq_zero_iff]
  simp

section
variable {m : Nat} {w : Word}

theorem isOk_decode_ldi (hop : fieldOp w = 0x01) :
    (decode m w).isOk = true ↔ w &&& wordI 0 0 0xF 0 = 0 ∧ decide ((w &&& 0xFFFF).toNat < 2 ^ m) = true := by
  rw [and_eq_fieldImm, BitVec.toNat_setWidth_of_le (by decide), and_wordI_eq_zero_iff, and_allOnes_field]
  simp [decode, hop]

theorem isOk_decode_setfull (hop : fieldOp w = 0x04) :
    (decode m w).isOk = true ↔ w &&& wordI 0 0xF 0 0xFFFF = 0 ∧
      (!((w >>> 16) &&& 0xF == 7) && decide (((w >>> 16) &&& 0xF).toNat < 12)) = true := by
  rw [shiftRight_and_eq_fieldB, ← isSome_ofNumber, and_wordI_eq_zero_iff, and_allOnes_field, and_allOnes_imm]
  cases hb : Buf.ofNumber (fieldB w) <;> simp [decode, hop, hb]

theorem isOk_decode_plEval (hop : fieldOp w = 0x20) :
    (decode m w).isOk = true ↔ w &&& wordI 0 0 0xC 0x0FFF = 0 := by
  rw [and_wordI_eq_zero_iff, ← toNat_lt_four_iff, ← fieldZ_eq_zero_iff]
  simp [decode, hop, and_comm]

theorem isOk_decode_bmRun (hop : fieldOp w = 0x21) :
    (decode m w).isOk = true ↔ w &&& wordI 0 0xC 0xF 0xFFFF = 0 := by
  rw [and_wordI_eq_zero_iff, ← toNat_lt_four_iff, and_allOnes_field, and_allOnes_imm]
  simp [decode, hop, and_comm]

theorem isOk_decode_rbGen (hop : fieldOp w = 0x42) :
    (decode m w).isOk = true ↔ w &&& wordI 0 0xF 0xF 0 = 0 := by
  rw [and_wordI_eq_zero_iff, and_allOnes_field, and_allOnes_field]
  simp [decode, hop]

/-- At a row's opcode the decoder accepts the words the row matches. -/
theorem isOk_decode_iff_matchesWord {r : OpcodeRow} (hr : r ∈ opcodeRows) (hop : fieldOp w = fieldOp r.pattern) :
    (decode m w).isOk = true ↔ r.matchesWord m w = true := by
  have unconstrained {p q : Prop} (h : p ↔ q) : p ↔ q ∧ noExtra m w = true := h.trans (and_iff_left rfl).symm
  rw [matchesWord_iff hr, and_iff_right hop]
  simp only [opcodeRows, List.mem_cons, List.not_mem_nil, or_false] at hr
  -- the rows in the table's order, NOP to RB.GEN
  rcases hr with rfl | rfl | rfl | rfl | rfl | rfl | rfl | rfl | rfl | rfl | rfl | rfl | rfl | rfl | rfl | rfl | rfl |
    rfl | rfl
  · rw [decode, hop]; exact unconstrained (isOk_decodeI0 w _)
  · exact isOk_decode_ldi hop
  · rw [decode, hop]; exact isOk_decodeEntry w _
  · rw [decode, hop]; exact isOk_decodeEntry w _
  · exact isOk_decode_setfull hop
  · rw [decode, hop]; exact unconstrained (isOk_decodeR3 w _)
  · rw [decode, hop]; exact unconstrained (isOk_decodeR3 w _)
  · rw [decode, hop]; exact unconstrained (isOk_decodeR2 w _)
  · rw [decode, hop]; exact unconstrained (isOk_decodeR3 w _)
  · rw [decode, hop]; exact unconstrained (isOk_decodeR2 w _)
  · rw [decode, hop]; exact unconstrained (isOk_decodeR2 w _)
  · exact unconstrained (isOk_decode_plEval hop)
  · exact unconstrained (isOk_decode_bmRun hop)
  · rw [decode, hop]; exact unconstrained (isOk_decodeI0 w _)
  · rw [decode, hop]; exact unconstrained (isOk_decodeFlag w _)
  · rw [decode, hop]; exact unconstrained (isOk_decodeI0 w _)
  · rw [decode, hop]; exact unconstrained (isOk_decodeI0 w _)
  · rw [decode, hop]; exact unconstrained (isOk_decodeFlag w _)
  · exact unconstrained (isOk_decode_rbGen hop)

end

/-- The decoder answers a command exactly for the words some row matches (30_encoding.md R76). -/
theorem isOk_decode_iff_exists_row (m : Nat) (w : Word) :
    (decode m w).isOk = true ↔ ∃ r ∈ opcodeRows, r.matchesWord m w = true := by
  constructor
  · intro hk
    obtain ⟨i, hi⟩ := isOk_iff_exists_ok.1 hk
    obtain ⟨r, hr, hpat⟩ := List.mem_map.1 (opcodeNumber_mem_opcodeRows i)
    have hop : fieldOp w = fieldOp r.pattern := (Machine.fieldOp_of_decode hi).trans hpat.symm
    exact ⟨r, hr, (isOk_decode_iff_matchesWord hr hop).1 hk⟩
  · rintro ⟨r, hr, hm⟩
    exact (isOk_decode_iff_matchesWord hr ((matchesWord_iff hr m w).1 hm).1).2 hm

end Sys2Proof
end

section
/-! PROOFS. The statements about the encoding (30_encoding.md). -/

namespace Sys2Proof

/-- Settles O1, constructor by constructor: the opcode of the word selects the row, and the row's decoder reads the
operands back. -/
theorem decodeOfEncodeIsTheCommand : Obligations.DecodeOfEncodeIsTheCommand := by
  intro m i hwf
  rw [decode, fieldOp_encode]
  cases i
  case gfAdd | gfMul | gfFrac => exact decodeR3_wordR _ _ _ _ _
  case gfInv | gfIszero | gfBitrev => exact decodeR2_wordR _ _ _ _
  case nop | bnEnc | bnSup | rbInit => exact decodeI0_wordI _ _
  case bnApply | rbUpd => exact decodeFlag_wordI _ _ _
  case lde | ste => exact decodeEntry_wordI _ _ _ _ _
  case ldi gd imm =>
    have himm : imm.toNat < 2 ^ m := of_decide_eq_true hwf
    simp [Laws.opcodeNumber, encode, himm]
  case setfull b => simp [Laws.opcodeNumber, encode]
  case plEval gd ps ga =>
    have hps : ps.toNat % 16 < 4 := by omega
    simp [Laws.opcodeNumber, encode, hps]
  case bmRun pd =>
    have hpd : pd.toNat % 16 < 4 := by omega
    simp [Laws.opcodeNumber, encode, hpd]
  case rbGen n => simp [Laws.opcodeNumber, encode]

/-- Settles O2, from the inversion of each format's decoder. -/
theorem decodedWordIsTheEncoding : Obligations.DecodedWordIsTheEncoding :=
  fun _ _ _ h => ⟨encode_of_decode h, wellFormed_of_decode h⟩

/-- Settles O3: a row fixes the opcode, at which the decoder accepts what the row matches; the opcodes are distinct. -/
theorem decodeAcceptsExactlyTheTableRows : Obligations.DecodeAcceptsExactlyTheTableRows := by
  intro m w
  refine ⟨?_, ?_, rfl, opcodeRows_op_nodup, ?_⟩
  · rw [← isOk_iff_exists_ok, isOk_decode_iff_exists_row]
  · rw [← isOk_eq_false_iff_exists_error, ← Bool.not_eq_true, isOk_decode_iff_exists_row]
    simp
  · intro r hr r' hr' hm hm'
    have hop := ((matchesWord_iff hr m w).1 hm).1
    have hop' := ((matchesWord_iff hr' m w).1 hm').1
    rw [List.inj_on_of_nodup_map opcodeRows_op_nodup hr hr' (hop.symm.trans hop')]

/-- Settles O4: each field stands above the width of those after it. -/
theorem encodedWordsFollowTheFormats : Obligations.EncodedWordsFollowTheFormats := by
  refine ⟨fun op a b c => ?_, wordI_eq_shifts, by decide⟩
  have hc : (c ++ 0#12).setWidth 32 = c.setWidth 32 <<< 12 := by rw [setWidth_append_eq]; exact BitVec.or_zero
  rw [wordR_eq_wordI, wordI_eq_shifts, hc]

/-- Settles O5: the first six words are the encodings of their commands, so the round trip answers them. -/
theorem specWordsDecode : Obligations.SpecWordsDecode :=
  have back (i : Instr) (h : WellFormed 13 i = true) : decode 13 (encode i) = .ok i :=
    decodeOfEncodeIsTheCommand 13 i h
  ⟨back .nop rfl, back (.ldi 1 0x1FFF) rfl, back (.gfFrac 4 2 1) rfl, back (.plEval 5 1 4) rfl,
    back (.bnApply true) rfl, back (.rbGen 32) rfl, by decide⟩

end Sys2Proof
end

section
/-! SUPPORT. The field unit as arithmetic in the quotient ring GF(2)[x] / POLY: the multiplier and the reducer against
polynomials (40_field_arithmetic.md R91, R93), the class of an element, and the ladder of R101 as a power. -/

namespace Sys2Proof.Machine

open Polynomial

theorem toNat_zero_lt (m : Nat) : (0 : Elem).toNat < 2 ^ m := Nat.two_pow_pos m

/-! ### The carry-less multiplier (R91) -/

/-- The polynomial of an `M`-bit vector is the sum over its low `M` bits. -/
theorem polyOf_eq_sum_of_lt {w m : Nat} {x : BitVec w} (hm : m ≤ w) (hx : x.toNat < 2 ^ m) :
    polyOf x = ∑ i ∈ Finset.range m, if x.getLsbD i then X ^ i else 0 := by
  refine (Finset.sum_subset (Finset.range_mono hm) fun i _ hi => ?_).symm
  have hbit : x.getLsbD i = false := (lt_two_pow_iff_bits x m).1 hx i (by simpa using hi)
  simp [hbit]

theorem clmul_succ (m : Nat) (x y : Elem) :
    clmul (m + 1) x y = if y.getLsbD m then clmul m x y ^^^ (x.setWidth 32 <<< m) else clmul m x y := by
  simp [clmul, List.range_succ]

/-- A 16-bit vector shifted by less than 16 places stays within the 32 bits of the product. -/
theorem polyOf_setWidth_shiftLeft {k : Nat} (x : Elem) (hk : k < 16) :
    polyOf (x.setWidth 32 <<< k) = polyOf x * X ^ k := by
  have hpow : 2 ^ k ≤ 2 ^ 15 := Nat.pow_le_pow_right (by norm_num) (by omega)
  have hx : (x.setWidth 32).toNat = x.toNat := BitVec.toNat_setWidth_of_le (by norm_num)
  rw [polyOf_shiftLeft, polyOf_setWidth (lt_trans x.isLt (by norm_num))]
  rw [hx]
  calc x.toNat * 2 ^ k ≤ x.toNat * 2 ^ 15 := Nat.mul_le_mul_left _ hpow
    _ < 2 ^ 32 := by omega

/-- Row `i` of the multiplier adds `x` shifted by `i` where bit `i` of `y` is set. -/
theorem polyOf_clmul_eq_sum {m : Nat} (hm : m ≤ 16) (x y : Elem) :
    polyOf (clmul m x y) = polyOf x * ∑ i ∈ Finset.range m, if y.getLsbD i then X ^ i else 0 := by
  induction m with
  | zero => simp [clmul]
  | succ m ih =>
    rw [clmul_succ, Finset.sum_range_succ, mul_add, ← ih (by omega)]
    split
    · rw [polyOf_xor, polyOf_setWidth_shiftLeft x (by omega)]
    · rw [mul_zero, add_zero]

theorem polyOf_clmul {m : Nat} (hm : m ≤ 16) (x : Elem) {y : Elem} (hy : y.toNat < 2 ^ m) :
    polyOf (clmul m x y) = polyOf x * polyOf y := by
  rw [polyOf_clmul_eq_sum hm, ← polyOf_eq_sum_of_lt hm hy]

/-! ### The reducer (R93) -/

/-- The reducer only adds multiples of POLY. -/
theorem mk_polyOf_reduceFrom {m k : Nat} {poly : BitVec 17} (hpoly : poly.toNat < 2 ^ (m + 1)) (hk : m + k ≤ 32)
    (p : BitVec 32) :
    AdjoinRoot.mk (polyOf poly) (polyOf (reduceFrom m poly k p)) = AdjoinRoot.mk (polyOf poly) (polyOf p) := by
  induction k generalizing p with
  | zero => rfl
  | succ k ih =>
    rw [reduceFrom, ih (by omega)]
    split
    · have hwidth : (poly.setWidth 32).toNat = poly.toNat := BitVec.toNat_setWidth_of_le (by norm_num)
      have hshift : (poly.setWidth 32).toNat * 2 ^ k < 2 ^ 32 := by
        calc (poly.setWidth 32).toNat * 2 ^ k < 2 ^ (m + 1) * 2 ^ k := by
              rw [hwidth]; exact Nat.mul_lt_mul_of_pos_right hpoly (Nat.two_pow_pos k)
          _ ≤ 2 ^ 32 := by rw [← pow_add]; exact Nat.pow_le_pow_right (by norm_num) (by omega)
      rw [polyOf_xor, polyOf_shiftLeft hshift, polyOf_setWidth (lt_trans poly.isLt (by norm_num)), map_add, map_mul,
        AdjoinRoot.mk_self, zero_mul, add_zero]
    · rfl

theorem toNat_reduce_lt {c : Build} (hv : c.valid = true) {p : BitVec 32} (hp : p.toNat < 2 ^ (c.m + (c.m - 1))) :
    (reduce c.m c.poly p).toNat < 2 ^ c.m := by
  obtain ⟨⟨-, h16⟩, ⟨hpoly, htop, -⟩, -⟩ := (valid_iff c).1 hv
  rw [reduce, BitVec.toNat_setWidth]
  exact lt_of_le_of_lt (Nat.mod_le _ _) (toNat_reduceFrom_lt htop hpoly (by omega) hp)

/-- The polynomial of an `M`-bit vector is its own remainder modulo POLY. -/
theorem polyOf_modByMonic_of_lt {c : Build} (hv : c.valid = true) {w : Nat} {x : BitVec w} (hx : x.toNat < 2 ^ c.m) :
    polyOf x %ₘ polyOf c.poly = polyOf x := by
  obtain ⟨hmonic, -, hdeg⟩ := polyOf_poly hv
  rw [modByMonic_eq_self_iff hmonic, hdeg]
  exact degree_polyOf_lt.2 hx

/-- The reduced vector is congruent to the given one and of degree below `M`, so it is the remainder. -/
theorem polyOf_reduce {c : Build} (hv : c.valid = true) {p : BitVec 32} (hp : p.toNat < 2 ^ (c.m + (c.m - 1))) :
    polyOf (reduce c.m c.poly p) = polyOf p %ₘ polyOf c.poly := by
  obtain ⟨⟨-, h16⟩, ⟨hpoly, htop, -⟩, -⟩ := (valid_iff c).1 hv
  have hlow : (reduceFrom c.m c.poly (c.m - 1) p).toNat < 2 ^ c.m := toNat_reduceFrom_lt htop hpoly (by omega) hp
  have hcongr := mk_polyOf_reduceFrom hpoly (show c.m + (c.m - 1) ≤ 32 by omega) p
  calc polyOf (reduce c.m c.poly p)
      = polyOf (reduceFrom c.m c.poly (c.m - 1) p) :=
        polyOf_setWidth (lt_of_lt_of_le hlow (Nat.pow_le_pow_right (by norm_num) h16))
    _ = polyOf (reduceFrom c.m c.poly (c.m - 1) p) %ₘ polyOf c.poly := (polyOf_modByMonic_of_lt hv hlow).symm
    _ = polyOf p %ₘ polyOf c.poly := modByMonic_eq_of_dvd_sub (polyOf_poly hv).1 (AdjoinRoot.mk_eq_mk.1 hcongr)

/-- Multiplication (R94) is the polynomial product modulo POLY. -/
theorem polyOf_mul {c : Build} (hv : c.valid = true) {x y : Elem} (hx : x.toNat < 2 ^ c.m) (hy : y.toNat < 2 ^ c.m) :
    polyOf (mul c x y) = (polyOf x * polyOf y) %ₘ polyOf c.poly := by
  obtain ⟨⟨-, h16⟩, -, -⟩ := (valid_iff c).1 hv
  rw [mul, polyOf_reduce hv (toNat_clmul_lt hx y), polyOf_clmul h16 x hy]

/-- A product with 0 is 0 whatever stands above bit `M` of the other factor. -/
theorem mul_zero_right {c : Build} (hv : c.valid = true) (x : Elem) : mul c x 0 = 0 := by
  obtain ⟨⟨-, h16⟩, -, -⟩ := (valid_iff c).1 hv
  have hprod : clmul c.m x 0 = 0 := polyOf_inj (by rw [polyOf_clmul h16 x (toNat_zero_lt c.m)]; simp)
  apply polyOf_inj
  rw [mul, hprod, polyOf_reduce hv (Nat.two_pow_pos _)]
  simp

/-! ### The class of an element modulo POLY -/

/-- The class an element stands for in GF(2)[x] / POLY (R95). -/
noncomputable def residue (c : Build) (x : Elem) : AdjoinRoot (polyOf c.poly) := AdjoinRoot.mk (polyOf c.poly) (polyOf x)

theorem residue_zero (c : Build) : residue c 0 = 0 := by
  rw [residue, show polyOf (0 : Elem) = 0 from polyOf_zero 16, map_zero]

theorem residue_one (c : Build) : residue c 1 = 1 := by
  rw [residue, show polyOf (1 : Elem) = 1 from polyOf_one (by norm_num), map_one]

@[simp] theorem residue_add (c : Build) (x y : Elem) : residue c (add x y) = residue c x + residue c y := by
  rw [residue, add, polyOf_xor, map_add, residue, residue]

theorem residue_mul {c : Build} (hv : c.valid = true) {x y : Elem} (hx : x.toNat < 2 ^ c.m) (hy : y.toNat < 2 ^ c.m) :
    residue c (mul c x y) = residue c x * residue c y := by
  rw [residue, polyOf_mul hv hx hy, modByMonic_eq_sub_mul_div, map_sub, map_mul, map_mul, AdjoinRoot.mk_self, zero_mul,
    sub_zero, residue, residue]

/-- Distinct `M`-bit vectors are in distinct classes. -/
theorem eq_of_residue_eq {c : Build} (hv : c.valid = true) {x y : Elem} (hx : x.toNat < 2 ^ c.m)
    (hy : y.toNat < 2 ^ c.m) (h : residue c x = residue c y) : x = y := by
  apply polyOf_inj
  calc polyOf x = polyOf x %ₘ polyOf c.poly := (polyOf_modByMonic_of_lt hv hx).symm
    _ = polyOf y %ₘ polyOf c.poly := modByMonic_eq_of_dvd_sub (polyOf_poly hv).1 (AdjoinRoot.mk_eq_mk.1 h)
    _ = polyOf y := polyOf_modByMonic_of_lt hv hy

theorem residue_eq_zero_iff {c : Build} (hv : c.valid = true) {x : Elem} (hx : x.toNat < 2 ^ c.m) :
    residue c x = 0 ↔ x = 0 := by
  constructor
  · intro h
    exact eq_of_residue_eq hv hx (toNat_zero_lt c.m) (h.trans (residue_zero c).symm)
  · rintro rfl
    exact residue_zero c

/-! ### The laws of `mul` that need no irreducible POLY (R95) -/

theorem mul_add_right {c : Build} (hv : c.valid = true) {x y z : Elem} (hx : x.toNat < 2 ^ c.m)
    (hy : y.toNat < 2 ^ c.m) (hz : z.toNat < 2 ^ c.m) : mul c x (add y z) = add (mul c x y) (mul c x z) := by
  have hyz := toNat_add_lt hy hz
  refine eq_of_residue_eq hv (toNat_mul_lt hv hx _) (toNat_add_lt (toNat_mul_lt hv hx y) (toNat_mul_lt hv hx z)) ?_
  rw [residue_mul hv hx hyz, residue_add, residue_add, residue_mul hv hx hy, residue_mul hv hx hz, mul_add]

theorem mul_one_right {c : Build} (hv : c.valid = true) {x : Elem} (hx : x.toNat < 2 ^ c.m) : mul c x 1 = x := by
  refine eq_of_residue_eq hv (toNat_mul_lt hv hx 1) hx ?_
  rw [residue_mul hv hx (one_lt_of_valid hv), residue_one, mul_one]

theorem mul_commutes {c : Build} (hv : c.valid = true) {x y : Elem} (hx : x.toNat < 2 ^ c.m) (hy : y.toNat < 2 ^ c.m) :
    mul c x y = mul c y x := by
  refine eq_of_residue_eq hv (toNat_mul_lt hv hx y) (toNat_mul_lt hv hy x) ?_
  rw [residue_mul hv hx hy, residue_mul hv hy hx, mul_comm]

theorem mul_associates {c : Build} (hv : c.valid = true) {x y z : Elem} (hx : x.toNat < 2 ^ c.m)
    (hy : y.toNat < 2 ^ c.m) (hz : z.toNat < 2 ^ c.m) : mul c (mul c x y) z = mul c x (mul c y z) := by
  have hxy := toNat_mul_lt hv hx y
  have hyz := toNat_mul_lt hv hy z
  refine eq_of_residue_eq hv (toNat_mul_lt hv hxy z) (toNat_mul_lt hv hx _) ?_
  rw [residue_mul hv hxy hz, residue_mul hv hx hy, residue_mul hv hx hyz, residue_mul hv hy hz, mul_assoc]

/-! ### Powers and the ladder (R98 to R101) -/

theorem toNat_power_lt {c : Build} (hv : c.valid = true) {x : Elem} (k : Nat) : (power c x k).toNat < 2 ^ c.m := by
  induction k with
  | zero => exact one_lt_of_valid hv
  | succ k ih => exact toNat_mul_lt hv ih x

theorem residue_power {c : Build} (hv : c.valid = true) {x : Elem} (hx : x.toNat < 2 ^ c.m) (k : Nat) :
    residue c (power c x k) = residue c x ^ k := by
  induction k with
  | zero => exact residue_one c
  | succ k ih => rw [power, residue_mul hv (toNat_power_lt hv k) hx, ih, pow_succ]

/-- `k` steps of the ladder multiply by the squares `s^2, s^4, ..., s^(2^k)`. -/
theorem residue_ladder {c : Build} (hv : c.valid = true) (k : Nat) {s out : Elem} (hs : s.toNat < 2 ^ c.m)
    (hout : out.toNat < 2 ^ c.m) :
    residue c (ladder c k s out) = residue c out * residue c s ^ (2 ^ (k + 1) - 2) := by
  induction k generalizing s out with
  | zero => simp [ladder]
  | succ k ih =>
    have hsq : (sq c s).toNat < 2 ^ c.m := toNat_mul_lt hv hs s
    have hexp : 2 + 2 * (2 ^ (k + 1) - 2) = 2 ^ (k + 2) - 2 := by
      have hone : 1 ≤ 2 ^ k := Nat.one_le_two_pow
      rw [pow_succ, pow_add]
      omega
    have hsquare : residue c (sq c s) = residue c s ^ 2 := by rw [sq, residue_mul hv hs hs, pow_two]
    rw [ladder, ih hsq (toNat_mul_lt hv hout _), residue_mul hv hout hsq, hsquare, mul_assoc, ← pow_mul, ← pow_add, hexp]

/-- The ladder of `M-1` steps computes the power `2^M - 2` (R99). -/
theorem residue_inv {c : Build} (hv : c.valid = true) {x : Elem} (hx : x.toNat < 2 ^ c.m) :
    residue c (inv c x) = residue c x ^ (2 ^ c.m - 2) := by
  obtain ⟨⟨h2, -⟩, -, -⟩ := (valid_iff c).1 hv
  rw [inv, residue_ladder hv _ hx (one_lt_of_valid hv), residue_one, one_mul, Nat.sub_add_cancel (by omega)]

theorem inv_eq_power {c : Build} (hv : c.valid = true) {x : Elem} (hx : x.toNat < 2 ^ c.m) :
    inv c x = power c x (2 ^ c.m - 2) :=
  eq_of_residue_eq hv (toNat_inv_lt hv x) (toNat_power_lt hv _) (by rw [residue_inv hv hx, residue_power hv hx])

theorem four_le_two_pow_of_valid {c : Build} (hv : c.valid = true) : 4 ≤ 2 ^ c.m := by
  obtain ⟨⟨h2, -⟩, -, -⟩ := (valid_iff c).1 hv
  exact Nat.pow_le_pow_right (n := 2) (by norm_num) h2

/-- The inverse of zero (R102). -/
theorem inv_zero_eq {c : Build} (hv : c.valid = true) : inv c 0 = 0 := by
  have hexp : 2 ^ c.m - 2 ≠ 0 := by have := four_le_two_pow_of_valid hv; omega
  rw [← residue_eq_zero_iff hv (toNat_inv_lt hv 0), residue_inv hv (toNat_zero_lt c.m), residue_zero, zero_pow hexp]

/-! ### The field of an irreducible POLY -/

theorem natCard_adjoinRoot {c : Build} (hv : c.valid = true) : Nat.card (AdjoinRoot (polyOf c.poly)) = 2 ^ c.m := by
  obtain ⟨hmonic, hdeg, -⟩ := polyOf_poly hv
  rw [Nat.card_congr (AdjoinRoot.powerBasisAux' hmonic).equivFun.toEquiv, Nat.card_fun, Nat.card_zmod, Nat.card_fin, hdeg]

/-- Fermat's little theorem in GF(2^M). -/
theorem residue_pow_eq_one {c : Build} (hv : c.valid = true) (hirr : Irreducible (polyOf c.poly)) {x : Elem}
    (hx : x.toNat < 2 ^ c.m) (h0 : x ≠ 0) : residue c x ^ (2 ^ c.m - 1) = 1 := by
  have : Fact (Irreducible (polyOf c.poly)) := ⟨hirr⟩
  have hunit : residue c x ≠ 0 := mt (residue_eq_zero_iff hv hx).1 h0
  have hcard : Nat.card (AdjoinRoot (polyOf c.poly))ˣ = 2 ^ c.m - 1 := by rw [Nat.card_units, natCard_adjoinRoot hv]
  have hpow : Units.mk0 (residue c x) hunit ^ (2 ^ c.m - 1) = 1 := by rw [← hcard]; exact pow_card_eq_one'
  simpa using congrArg Units.val hpow

/-- A non-zero element times its inverse is 1 (R99). -/
theorem mul_inv_right {c : Build} (hv : c.valid = true) (hirr : Irreducible (polyOf c.poly)) {x : Elem}
    (hx : x.toNat < 2 ^ c.m) (h0 : x ≠ 0) : mul c x (inv c x) = 1 := by
  have hexp : 2 ^ c.m - 2 + 1 = 2 ^ c.m - 1 := by have := four_le_two_pow_of_valid hv; omega
  refine eq_of_residue_eq hv (toNat_mul_lt hv hx _) (one_lt_of_valid hv) ?_
  rw [residue_mul hv hx (toNat_inv_lt hv x), residue_inv hv hx, ← pow_succ', hexp, residue_pow_eq_one hv hirr hx h0,
    residue_one]

/-- At most one `M`-bit element is an inverse of `x`, whatever POLY is. -/
theorem mul_inverse_unique {c : Build} (hv : c.valid = true) {x y z : Elem} (hx : x.toNat < 2 ^ c.m)
    (hy : y.toNat < 2 ^ c.m) (hz : z.toNat < 2 ^ c.m) (hxy : mul c x y = 1) (hxz : mul c x z = 1) : y = z := by
  calc y = mul c y (mul c x z) := by rw [hxz, mul_one_right hv hy]
    _ = mul c (mul c x y) z := by rw [← mul_associates hv hy hx hz, mul_commutes hv hy hx]
    _ = mul c z (mul c x y) := mul_commutes hv (toNat_mul_lt hv hx y) hz
    _ = z := by rw [hxy, mul_one_right hv hz]

theorem eq_zero_or_eq_zero_of_mul {c : Build} (hv : c.valid = true) (hirr : Irreducible (polyOf c.poly)) {x y : Elem}
    (hx : x.toNat < 2 ^ c.m) (hy : y.toNat < 2 ^ c.m) (h : mul c x y = 0) : x = 0 ∨ y = 0 := by
  have : Fact (Irreducible (polyOf c.poly)) := ⟨hirr⟩
  have hprod : residue c x * residue c y = 0 := by rw [← residue_mul hv hx hy, h, residue_zero]
  exact (mul_eq_zero.1 hprod).imp (residue_eq_zero_iff hv hx).1 (residue_eq_zero_iff hv hy).1

/-! ### Bit reversal and the zero detector (R96, R104) -/

theorem getLsbD_bitrev {m : Nat} (hm : m ≤ 16) (x : Elem) (i : Nat) :
    (bitrev m x).getLsbD i = (decide (i < m) && x.getLsbD (m - 1 - i)) := by
  rw [bitrev, getLsbD_vecOfBits]
  by_cases hi : i < m
  · simp [hi, show i < 16 by omega]
  · simp [hi]

/-- Reversal is an involution on `M`-bit vectors (R96). -/
theorem bitrev_bitrev {m : Nat} (hm : m ≤ 16) {x : Elem} (hx : x.toNat < 2 ^ m) : bitrev m (bitrev m x) = x := by
  apply BitVec.eq_of_getLsbD_eq
  intro i _
  rw [getLsbD_bitrev hm, getLsbD_bitrev hm]
  by_cases hi : i < m
  · have hback : m - 1 - (m - 1 - i) = i := by omega
    simp [hi, hback, show m - 1 - i < m by omega]
  · simp [hi, (lt_two_pow_iff_bits x m).1 hx i (by omega)]

/-- The borrow of `x - 1` on `M+1` bits reaches bit `M` exactly for `x = 0` (R104). -/
theorem testBit_borrow {m x : Nat} (hx : x < 2 ^ m) :
    ((x + 2 ^ (m + 1) - 1) % 2 ^ (m + 1)).testBit m = decide (x = 0) := by
  have hlt : 2 ^ m < 2 ^ (m + 1) := Nat.pow_lt_pow_right (by norm_num) (by omega)
  rcases Nat.eq_zero_or_pos x with rfl | hpos
  · rw [zero_add, Nat.mod_eq_of_lt (by omega), Nat.testBit_two_pow_sub_one]
    simp
  · rw [show x + 2 ^ (m + 1) - 1 = x - 1 + 2 ^ (m + 1) by omega, Nat.add_mod_right, Nat.mod_eq_of_lt (by omega),
      Nat.testBit_lt_two_pow (by omega)]
    simp [hpos.ne']

theorem iszero_zero (m : Nat) : iszero m 0 = ones m := rfl

theorem iszero_of_ne_zero {m : Nat} {x : Elem} (h : x ≠ 0) : iszero m x = 0 := by
  rw [iszero, beq_false_of_ne h, mask_false]

end Sys2Proof.Machine
end

section
/-! PROOFS. The statements about field arithmetic (40_field_arithmetic.md). -/

namespace Sys2Proof.Machine

/-- Settles O27, from the rows of the multiplier. -/
theorem clmulIsThePolynomialProduct : Obligations.ClmulIsThePolynomialProduct := by
  intro m x y hm hx hy
  refine ⟨polyOf_clmul hm x hy, ?_⟩
  rw [show 2 * m - 1 = m + (m - 1) by omega]
  exact toNat_clmul_lt hx y

/-- Settles O28: each step adds a multiple of POLY, and what is left has degree below `M`. -/
theorem reduceIsTheRemainder : Obligations.ReduceIsTheRemainder := by
  intro c p hv hp
  rw [show 2 * c.m - 1 = c.m + (c.m - 1) by omega] at hp
  exact ⟨polyOf_reduce hv hp, toNat_reduce_lt hv hp⟩

/-- Settles O29, from the laws of the quotient ring, in which distinct elements are in distinct classes. -/
theorem fieldLawsHold : Obligations.FieldLawsHold := by
  intro c x y z hv hx hy hz
  exact ⟨mul_add_right hv hx hy hz, mul_one_right hv hx, mul_zero_right hv x, mul_commutes hv hx hy,
    mul_associates hv hx hy hz, fun hirr => eq_zero_or_eq_zero_of_mul hv hirr hx hy⟩

/-- Settles O21: the command is the XOR, and a value XOR itself is 0. -/
theorem gfAddWritesTheXor : Obligations.GfAddWritesTheXor := by
  intro gd a b s
  have hexec : exec (.gfAdd gd a b) s = .next (s.setG gd (s.getG a ^^^ s.getG b)) := rfl
  refine ⟨hexec, ?_⟩
  rintro rfl
  rw [hexec, BitVec.xor_self]
  rfl

/-- Settles O22, from the multiplier and the reducer against polynomials. -/
theorem gfMulWritesTheProductModuloPoly : Obligations.GfMulWritesTheProductModuloPoly := by
  intro gd a b s hv ha hb
  exact ⟨mul s.build (s.getG a) (s.getG b), rfl, toNat_mul_lt hv ha _, polyOf_mul hv ha hb⟩

/-- Settles O23: the ladder is the power `2^M - 2`, which is the inverse by Fermat's little theorem. -/
theorem gfInvWritesTheInverse : Obligations.GfInvWritesTheInverse := by
  intro gd a s hv
  refine ⟨inv s.build (s.getG a), rfl, fun h0 => ?_, fun hirr ha => ⟨inv_eq_power hv ha, fun h0 => ?_⟩⟩
  · rw [h0, inv_zero_eq hv]
  · have hinv := mul_inv_right hv hirr ha h0
    exact ⟨hinv, fun y hy hay => mul_inverse_unique hv ha hy (toNat_inv_lt hv _) hay hinv⟩

/-- Settles O24: the denominator meets its inverse in the product, and the inverse of zero is zero. -/
theorem gfFracDividesByTheFirstSource : Obligations.GfFracDividesByTheFirstSource := by
  intro gd den num s hv
  refine ⟨frac s.build (s.getG den) (s.getG num), rfl, rfl, fun h0 => ?_, fun hirr hden hnum h0 => ?_⟩
  · rw [frac, h0, inv_zero_eq hv, mul_zero_right hv]
  · have hinv := toNat_inv_lt hv (s.getG den)
    rw [frac, mul_associates hv hnum hinv hden, mul_commutes hv hinv hden, mul_inv_right hv hirr hden h0,
      mul_one_right hv hnum]

/-- Settles O25: both the zero detector and the borrow circuit decide whether the source is 0. -/
theorem gfIszeroWritesTheMask : Obligations.GfIszeroWritesTheMask := by
  intro gd a s hv ha
  obtain ⟨⟨-, h16⟩, -, -⟩ := (valid_iff s.build).1 hv
  refine ⟨iszero s.build.m (s.getG a), rfl, fun h0 => ?_, iszero_of_ne_zero, ?_⟩
  · rw [h0, iszero_zero, ones_toNat h16]
  · rw [testBit_borrow ha]
    by_cases h0 : s.getG a = 0
    · rw [h0, iszero_zero, ones_toNat h16]
      rfl
    · have hne : (s.getG a).toNat ≠ 0 := fun h => h0 (BitVec.eq_of_toNat_eq h)
      simp [hne, iszero_of_ne_zero h0]

/-- Settles O26, bit by bit. -/
theorem gfBitrevReversesTheBits : Obligations.GfBitrevReversesTheBits := by
  intro gd a s hv
  obtain ⟨⟨-, h16⟩, -, -⟩ := (valid_iff s.build).1 hv
  exact ⟨bitrev s.build.m (s.getG a), rfl, getLsbD_bitrev h16 _, bitrev_bitrev h16⟩

end Sys2Proof.Machine
end

section
/-! SUPPORT. The polynomial evaluator in the quotient ring GF(2)[x] / POLY: Horner's loop is the sum over the degrees of
coefficient times power (41_polynomial_bm.md R120). -/

namespace Sys2Proof.Machine

/-! ### Sums in the field -/

theorem xorSum_succ (k : Nat) (f : Nat → Elem) : xorSum (k + 1) f = add (xorSum k f) (f k) := by
  simp [xorSum, List.range_succ]

theorem toNat_xorSum_lt {m : Nat} (k : Nat) {f : Nat → Elem} (hf : ∀ i, (f i).toNat < 2 ^ m) :
    (xorSum k f).toNat < 2 ^ m := by
  induction k with
  | zero => exact toNat_zero_lt m
  | succ k ih =>
    rw [xorSum_succ]
    exact toNat_add_lt ih (hf k)

theorem residue_xorSum (c : Build) (k : Nat) (f : Nat → Elem) :
    residue c (xorSum k f) = ∑ i ∈ Finset.range k, residue c (f i) := by
  induction k with
  | zero => exact residue_zero c
  | succ k ih => rw [xorSum_succ, residue_add, ih, Finset.sum_range_succ]

/-! ### Horner's loop -/

section
variable {c : Build} (hv : c.valid = true) {f : Nat → Elem} (hf : ∀ i, (f i).toNat < 2 ^ c.m) {a : Elem}
  (ha : a.toNat < 2 ^ c.m)
include hv hf ha

/-- `k` steps multiply the running value by the point `k` times and add the terms of the degrees below `k`. -/
theorem residue_horner (k : Nat) {r : Elem} (hr : r.toNat < 2 ^ c.m) :
    residue c (horner c f a k r) =
      residue c r * residue c a ^ k + ∑ i ∈ Finset.range k, residue c (f i) * residue c a ^ i := by
  induction k generalizing r with
  | zero => simp [horner]
  | succ k ih =>
    rw [horner, ih (toNat_add_lt (toNat_mul_lt hv hr a) (hf k)), residue_add, residue_mul hv hr ha,
      Finset.sum_range_succ]
    ring

theorem residue_eval :
    residue c (eval c f a) = ∑ i ∈ Finset.range (c.t + 1), residue c (f i) * residue c a ^ i := by
  rw [eval, residue_horner hv hf ha c.t (hf c.t), Finset.sum_range_succ, add_comm]

/-- The value at the point is the sum of coefficient times power (R120). -/
theorem eval_eq_xorSum : eval c f a = xorSum (c.t + 1) (fun i => mul c (f i) (power c a i)) := by
  refine eq_of_residue_eq hv (toNat_eval_lt hv hf a) (toNat_xorSum_lt _ fun i => toNat_mul_lt hv (hf i) _) ?_
  rw [residue_eval hv hf ha, residue_xorSum]
  refine Finset.sum_congr rfl fun i _ => ?_
  rw [residue_mul hv (hf i) (toNat_power_lt hv i), residue_power hv ha]

theorem eval_add {g : Nat → Elem} (hg : ∀ i, (g i).toNat < 2 ^ c.m) :
    eval c (fun i => add (f i) (g i)) a = add (eval c f a) (eval c g a) := by
  have hfg : ∀ i, (add (f i) (g i)).toNat < 2 ^ c.m := fun i => toNat_add_lt (hf i) (hg i)
  refine eq_of_residue_eq hv (toNat_eval_lt hv hfg a) (toNat_add_lt (toNat_eval_lt hv hf a) (toNat_eval_lt hv hg a)) ?_
  rw [residue_eval hv hfg ha, residue_add, residue_eval hv hf ha, residue_eval hv hg ha, ← Finset.sum_add_distrib]
  refine Finset.sum_congr rfl fun i _ => ?_
  rw [residue_add, add_mul]

/-- Where every term above degree 0 vanishes, the value is the coefficient of degree 0. -/
theorem eval_eq_constant (h : ∀ i, 1 ≤ i → i ≤ c.t → f i = 0 ∨ a = 0) : eval c f a = f 0 := by
  refine eq_of_residue_eq hv (toNat_eval_lt hv hf a) (hf 0) ?_
  rw [residue_eval hv hf ha, Finset.sum_range_succ', Finset.sum_eq_zero, pow_zero, mul_one, zero_add]
  intro i hi
  obtain hcoef | rfl := h (i + 1) (by omega) (by have := Finset.mem_range.1 hi; omega)
  · rw [hcoef, residue_zero, zero_mul]
  · rw [residue_zero, zero_pow (by omega), mul_zero]

end

theorem eval_one {c : Build} (hv : c.valid = true) {f : Nat → Elem} (hf : ∀ i, (f i).toNat < 2 ^ c.m) :
    eval c f 1 = xorSum (c.t + 1) f := by
  refine eq_of_residue_eq hv (toNat_eval_lt hv hf 1) (toNat_xorSum_lt _ hf) ?_
  rw [residue_eval hv hf (one_lt_of_valid hv), residue_xorSum, residue_one]
  simp

end Sys2Proof.Machine
end

section
/-! SUPPORT. One step of the decoder with its masks read as conditions, and what every step keeps
(41_polynomial_bm.md R125 to R127). -/

namespace Sys2Proof.Machine

/-! ### Masks of conditions -/

theorem maskNot_mask (m : Nat) (p : Bool) : maskNot m (mask m p) = mask m (!p) := by
  cases p <;> simp [maskNot]

theorem mask_and_mask (m : Nat) (p q : Bool) : mask m p &&& mask m q = mask m (p && q) := by
  cases p <;> cases q <;> simp

theorem mask_eq_zero_iff {c : Build} (hv : c.valid = true) (p : Bool) : mask c.m p = 0 ↔ p = false := by
  obtain ⟨⟨h2, h16⟩, -⟩ := (valid_iff c).1 hv
  cases p
  · simp
  · exact iff_of_false (ones_ne_zero (by omega) h16) (by decide)

theorem and_mask_of_lt {m : Nat} {x : Elem} (hx : x.toNat < 2 ^ m) (p : Bool) :
    x &&& mask m p = if p then x else 0 := by
  cases p
  · simp
  · exact lowBits_of_lt hx

theorem mul_zero_left {c : Build} (hv : c.valid = true) {x : Elem} (hx : x.toNat < 2 ^ c.m) : mul c 0 x = 0 := by
  rw [mul_commutes hv (toNat_zero_lt c.m) hx, mul_zero_right hv]

theorem add_zero_right (x : Elem) : add x 0 = x := BitVec.xor_zero

theorem frac_zero {c : Build} (hv : c.valid = true) (den : Elem) : frac c den 0 = 0 :=
  mul_zero_left hv (toNat_inv_lt hv den)

/-- The mask `mne` changes nothing: without a discrepancy the candidate is 0. -/
theorem candidate_and_mask {c : Build} (hv : c.valid = true) (den : Elem) {d b : Elem} (hd : d.toNat < 2 ^ c.m)
    (hb : b.toNat < 2 ^ c.m) :
    mul c (frac c den d) b &&& maskNot c.m (iszero c.m d) = mul c (frac c den d) b := by
  rw [iszero, maskNot_mask, and_mask_of_lt (toNat_mul_lt hv (toNat_frac_lt hv den hd) b)]
  by_cases h0 : d = 0
  · rw [h0, frac_zero hv, mul_zero_left hv hb, ite_self]
  · rw [beq_false_of_ne h0, Bool.not_false, if_pos rfl]

/-! ### One step (R125) -/

/-- The step at `n` replaces `B`, the scale and the length: the conjunction of the two masks. -/
def BmWork.swaps (c : Build) (syn : Nat → Elem) (n : Nat) (w : BmWork) : Bool :=
  !(discrepancy c syn w.cs n == 0) && decide (2 * w.len ≤ n)

theorem swaps_iff {c : Build} {syn : Nat → Elem} {n : Nat} {w : BmWork} :
    w.swaps c syn n = true ↔ discrepancy c syn w.cs n ≠ 0 ∧ 2 * w.len ≤ n := by
  simp [BmWork.swaps]

/-- The mask `mup` of the step is the mask of the condition. -/
theorem updateMask_eq (c : Build) (syn : Nat → Elem) (n : Nat) (w : BmWork) :
    maskNot c.m (iszero c.m (discrepancy c syn w.cs n)) &&& mask c.m (decide (2 * w.len ≤ n)) =
      mask c.m (w.swaps c syn n) := by
  rw [iszero, maskNot_mask, mask_and_mask, BmWork.swaps]

theorem bmSteps_succ (c : Build) (syn : Nat → Elem) (k : Nat) :
    bmSteps c syn (k + 1) = bmStep c syn k (bmSteps c syn k) := by
  simp [bmSteps, List.range_succ]

section
variable {c : Build} (hv : c.valid = true) (syn : Nat → Elem) (n : Nat) {w : BmWork} (hw : w.mBit c.m)
include hv hw

/-- The candidate is blended into `C` at every step: without a discrepancy it adds 0. -/
theorem bmStep_cs : (bmStep c syn n w).cs =
    List.zipWith (fun ci bi => add ci (mul c (frac c w.scale (discrepancy c syn w.cs n)) bi)) w.cs w.bs := by
  obtain ⟨hcs, hbs, -⟩ := hw
  have hd := toNat_discrepancy_lt hv syn hcs n
  refine List.ext_getElem (by simp [bmStep]) fun i hi _ => ?_
  simp only [bmStep, List.getElem_zipWith]
  rw [candidate_and_mask hv _ hd (hbs _ (List.getElem_mem _))]

/-- `B`, the scale and the length are replaced together, and `B` is shifted after that. -/
theorem bmStep_swap (hlen : w.cs.length = w.bs.length) :
    (bmStep c syn n w).bs = shiftUp (if w.swaps c syn n then w.cs else w.bs) ∧
      (bmStep c syn n w).scale = (if w.swaps c syn n then discrepancy c syn w.cs n else w.scale) ∧
      (bmStep c syn n w).len = if w.swaps c syn n then n + 1 - w.len else w.len := by
  obtain ⟨hcs, hbs, hscale⟩ := hw
  simp only [bmStep, updateMask_eq]
  refine ⟨congrArg shiftUp (List.ext_getElem ?_ fun i hi _ => ?_), ?_, ?_⟩
  · split <;> simp [hlen]
  · rw [List.getElem_zipWith, blend_mask (hcs _ (List.getElem_mem _)) (hbs _ (List.getElem_mem _))]
    split <;> rfl
  · exact blend_mask (toNat_discrepancy_lt hv syn hcs n) hscale _
  · cases w.swaps c syn n
    · simp
    · rw [beq_false_of_ne (mt (mask_eq_zero_iff hv true).1 (by decide))]
      simp

end

/-! ### What every step keeps (R126, R127) -/

/-- The working set after `k` steps: `T+1` coefficients of `M` bits, a non-zero scale, a length within the steps taken,
and the constant terms of `C` and `B`. -/
structure BmWork.Ok (c : Build) (k : Nat) (w : BmWork) : Prop where
  mBit : w.mBit c.m
  cs_length : w.cs.length = c.t + 1
  bs_length : w.bs.length = c.t + 1
  scale_ne : w.scale ≠ 0
  len_le : w.len ≤ k
  cs_zero : w.cs.getD 0 0 = 1
  bs_zero : w.bs.getD 0 0 = 0

theorem shiftUp_length {bs : List Elem} (h : bs ≠ []) : (shiftUp bs).length = bs.length := by
  have := List.length_pos_iff.2 h
  simp [shiftUp]
  omega

theorem shiftUp_getD_zero (bs : List Elem) : (shiftUp bs).getD 0 0 = 0 := rfl

theorem shiftUp_getD_succ {bs : List Elem} {i : Nat} (h : i + 1 < bs.length) :
    (shiftUp bs).getD (i + 1) 0 = bs.getD i 0 := by
  rw [shiftUp, List.getD_cons_succ, List.getD_eq_getElem _ _ (by simp; omega), List.getD_eq_getElem _ _ (by omega),
    List.getElem_dropLast]

theorem bmInit_ok {c : Build} (hv : c.valid = true) : (bmInit c).Ok c 0 := by
  obtain ⟨-, -, ⟨ht, -⟩, -⟩ := (valid_iff c).1 hv
  refine ⟨bmInit_mBit hv, by simp [bmInit], ?_, by simp [bmInit], le_rfl, rfl, rfl⟩
  simp [bmInit]
  omega

/-- A coefficient of the new `C`. -/
theorem bmStep_cs_getD {c : Build} (hv : c.valid = true) (syn : Nat → Elem) (n : Nat) {k : Nat} {w : BmWork}
    (hw : w.Ok c k) {i : Nat} (hi : i ≤ c.t) : (bmStep c syn n w).cs.getD i 0 =
      add (w.cs.getD i 0) (mul c (frac c w.scale (discrepancy c syn w.cs n)) (w.bs.getD i 0)) := by
  have hC := hw.cs_length
  have hB := hw.bs_length
  rw [bmStep_cs hv syn n hw.mBit, List.getD_eq_getElem _ _ (by simp; omega), List.getElem_zipWith,
    List.getD_eq_getElem _ _ (by omega), List.getD_eq_getElem _ _ (by omega)]

theorem BmWork.Ok.bmStep {c : Build} (hv : c.valid = true) (syn : Nat → Elem) {n : Nat} {w : BmWork}
    (hw : w.Ok c n) : (bmStep c syn n w).Ok c (n + 1) := by
  have hC := hw.cs_length
  have hB := hw.bs_length
  have hL := hw.len_le
  have hlen : w.cs.length = w.bs.length := by omega
  have hcs : (Machine.bmStep c syn n w).cs.length = c.t + 1 := by
    rw [bmStep_cs hv syn n hw.mBit, List.length_zipWith]
    omega
  have hone : (Machine.bmStep c syn n w).cs.getD 0 0 = 1 := by
    rw [bmStep_cs_getD hv syn n hw (Nat.zero_le _), hw.cs_zero, hw.bs_zero, mul_zero_right hv]
    rfl
  obtain ⟨hbs, hscale, hlen'⟩ := bmStep_swap hv syn n hw.mBit hlen
  have hblen : (Machine.bmStep c syn n w).bs.length = c.t + 1 := by
    rw [hbs, shiftUp_length]
    · split
      · exact hC
      · exact hB
    · split
      · exact List.ne_nil_of_length_eq_add_one hC
      · exact List.ne_nil_of_length_eq_add_one hB
  refine ⟨bmStep_mBit hv syn n hw.mBit, hcs, hblen, ?_, ?_, hone, hbs ▸ shiftUp_getD_zero _⟩
  · rw [hscale]
    split
    · exact (swaps_iff.1 ‹_›).1
    · exact hw.scale_ne
  · rw [hlen']
    split <;> omega

theorem bmSteps_ok {c : Build} (hv : c.valid = true) (syn : Nat → Elem) (k : Nat) : (bmSteps c syn k).Ok c k := by
  induction k with
  | zero => exact bmInit_ok hv
  | succ k ih =>
    rw [bmSteps_succ]
    exact ih.bmStep hv syn

/-! ### The all-zero syndrome (R128) -/

theorem discrepancy_eq_xorSum (c : Build) (syn : Nat → Elem) (cs : List Elem) (n : Nat) :
    discrepancy c syn cs n = xorSum (min n c.t + 1) (fun i => mul c (cs.getD i 0) (syn (n - i))) := rfl

theorem discrepancy_of_zero {c : Build} (hv : c.valid = true) {syn : Nat → Elem} {n : Nat} (h : ∀ i ≤ n, syn i = 0)
    {cs : List Elem} (hcs : ∀ x ∈ cs, x.toNat < 2 ^ c.m) : discrepancy c syn cs n = 0 := by
  refine eq_of_residue_eq hv (toNat_discrepancy_lt hv syn hcs n) (toNat_zero_lt c.m) ?_
  rw [discrepancy_eq_xorSum, residue_xorSum, residue_zero]
  refine Finset.sum_eq_zero fun i _ => ?_
  rw [h _ (by omega), mul_zero_right hv, residue_zero]

/-- Without a discrepancy `C` stays as it is. -/
theorem bmStep_cs_getD_of_discrepancy_zero {c : Build} (hv : c.valid = true) {syn : Nat → Elem} {n k : Nat} {w : BmWork}
    (hw : w.Ok c k) (h : discrepancy c syn w.cs n = 0) {i : Nat} (hi : i ≤ c.t) :
    (bmStep c syn n w).cs.getD i 0 = w.cs.getD i 0 := by
  obtain ⟨-, hbs, -⟩ := hw.mBit
  rw [bmStep_cs_getD hv syn n hw hi, h, frac_zero hv, mul_zero_left hv (getD_zero_lt hbs i), add_zero_right]

theorem bmSteps_cs_getD_of_zero {c : Build} (hv : c.valid = true) {syn : Nat → Elem} {k : Nat}
    (h : ∀ i < k, syn i = 0) {i : Nat} (hi : i ≤ c.t) : (bmSteps c syn k).cs.getD i 0 = (bmInit c).cs.getD i 0 := by
  induction k with
  | zero => rfl
  | succ k ih =>
    have hok := bmSteps_ok hv syn k
    have hd : discrepancy c syn (bmSteps c syn k).cs k = 0 :=
      discrepancy_of_zero hv (fun j hj => h j (by omega)) hok.mBit.1
    rw [bmSteps_succ, bmStep_cs_getD_of_discrepancy_zero hv hok hd hi, ih fun j hj => h j (by omega)]

end Sys2Proof.Machine
end

section
/-! SUPPORT. Berlekamp-Massey over a commutative ring, apart from the machine: what a pair of polynomials and their two
remainders satisfy at each step, why the length never exceeds that of the sought fraction, and why the fraction is found
after twice as many steps (the mathematics of 41_polynomial_bm.md R131). -/

namespace Sys2Proof.Machine.Massey

open Polynomial

/-! ### Degree bounds -/

section
variable {K : Type*} [CommRing K]

theorem coeff_eq_zero_of_mem {P : K[X]} {n i : Nat} (hP : P ∈ degreeLT K n) (hi : n ≤ i) : P.coeff i = 0 :=
  (degree_lt_iff_coeff_zero P n).1 (mem_degreeLT.1 hP) i hi

theorem mul_mem_degreeLT {P Q : K[X]} {m n : Nat} (hP : P ∈ degreeLT K (m + 1)) (hQ : Q ∈ degreeLT K n) :
    P * Q ∈ degreeLT K (m + n) := by
  rw [mem_degreeLT, degree_lt_iff_coeff_zero]
  intro k hk
  rw [coeff_mul]
  refine Finset.sum_eq_zero fun ij hij => ?_
  have hsum : ij.1 + ij.2 = k := Finset.HasAntidiagonal.mem_antidiagonal.1 hij
  by_cases hi : m + 1 ≤ ij.1
  · rw [coeff_eq_zero_of_mem hP hi, zero_mul]
  · rw [coeff_eq_zero_of_mem hQ (by omega), mul_zero]

theorem X_mul_mem_degreeLT {P : K[X]} {n : Nat} (hP : P ∈ degreeLT K n) : X * P ∈ degreeLT K (n + 1) := by
  rw [add_comm]
  refine mul_mem_degreeLT ?_ hP
  rw [mem_degreeLT]
  exact lt_of_le_of_lt degree_X_le (by norm_num)

theorem add_C_mul_mem_degreeLT {P Q : K[X]} {m n k : Nat} (hP : P ∈ degreeLT K m) (hQ : Q ∈ degreeLT K n) (f : K)
    (hm : m ≤ k) (hn : f = 0 ∨ n ≤ k) : P + C f * Q ∈ degreeLT K k := by
  refine Submodule.add_mem _ (degreeLT_mono hm hP) ?_
  obtain rfl | hn := hn
  · simp
  · rw [C_mul']
    exact Submodule.smul_mem _ _ (degreeLT_mono hn hQ)

end

/-! ### The invariant of the step -/

/-- The coefficient of a product with the series: the discrepancy of a working polynomial at order `N`. -/
noncomputable def miss {K : Type*} [CommRing K] (S : PowerSeries K) (P : K[X]) (N : Nat) : K :=
  PowerSeries.coeff N ((P : PowerSeries K) * S)

/-- What a polynomial and its remainder miss the series `S` by. -/
noncomputable def residual {K : Type*} [CommRing K] (S : PowerSeries K) (P p : K[X]) : PowerSeries K :=
  (P : PowerSeries K) * S - (p : PowerSeries K)

/-- After `N` steps on the series `S` with length `L`: the working polynomial `P` and its remainder `p` agree with `S`
to order `N`, the backup polynomial `Q` and its remainder `q` miss by `b` at order `N`, and the length bounds the
degrees. The first backup polynomial `x` has the remainder -1. -/
structure KeyState {K : Type*} [CommRing K] (S : PowerSeries K) (N L : Nat) (P Q p q : K[X]) (b : K) : Prop where
  len_le : L ≤ N
  mem_P : P ∈ degreeLT K (L + 1)
  mem_Q : Q ∈ degreeLT K (N + 2 - L)
  mem_p : p ∈ degreeLT K L
  mem_q : q ∈ degreeLT K (N + 1 - L)
  key_P : PowerSeries.X ^ N ∣ residual S P p
  key_Q : PowerSeries.X ^ (N + 1) ∣ residual S Q q - PowerSeries.C b * PowerSeries.X ^ N

section
variable {K : Type*} [CommRing K] {S : PowerSeries K} {N L : Nat} {P Q p q : K[X]} {b f : K}

theorem coeff_residual (S : PowerSeries K) (P p : K[X]) (n : Nat) :
    PowerSeries.coeff n (residual S P p) = miss S P n - p.coeff n := by
  rw [residual, map_sub, coeff_coe, miss]

theorem residual_add_C_mul (S : PowerSeries K) (P Q p q : K[X]) (f : K) :
    residual S (P + C f * Q) (p + C f * q) = residual S P p + PowerSeries.C f * residual S Q q := by
  simp only [residual, coe_add, coe_mul, coe_C]
  ring

theorem residual_X_mul (S : PowerSeries K) (P p : K[X]) :
    residual S (X * P) (X * p) = PowerSeries.X * residual S P p := by
  simp only [residual, coe_mul, coe_X]
  ring

theorem KeyState.init (S : PowerSeries K) : KeyState S 0 0 1 X 0 (-1) 1 where
  len_le := le_rfl
  mem_P := by
    rw [mem_degreeLT]
    exact lt_of_le_of_lt degree_one_le (by norm_num)
  mem_Q := by
    rw [mem_degreeLT]
    exact lt_of_le_of_lt degree_X_le (by norm_num)
  mem_p := Submodule.zero_mem _
  mem_q := by
    rw [mem_degreeLT, degree_neg]
    exact lt_of_le_of_lt degree_one_le (by norm_num)
  key_P := by simp
  key_Q := by simp [residual]

/-- The discrepancy is what the working pair misses by at order `N`. -/
theorem KeyState.key_P_succ (h : KeyState S N L P Q p q b) :
    PowerSeries.X ^ (N + 1) ∣ residual S P p - PowerSeries.C (miss S P N) * PowerSeries.X ^ N := by
  rw [PowerSeries.X_pow_dvd_iff]
  intro m hm
  rw [map_sub, PowerSeries.coeff_C_mul_X_pow]
  obtain rfl | hmN := eq_or_ne m N
  · rw [if_pos rfl, coeff_residual, coeff_eq_zero_of_mem h.mem_p h.len_le, sub_zero, sub_self]
  · rw [if_neg hmN, PowerSeries.X_pow_dvd_iff.1 h.key_P m (by omega), sub_zero]

/-- A multiple of the backup pair that cancels the discrepancy. -/
theorem KeyState.key_add (h : KeyState S N L P Q p q b) (hf : miss S P N + f * b = 0) :
    PowerSeries.X ^ (N + 1) ∣ residual S (P + C f * Q) (p + C f * q) := by
  have hsum := dvd_add h.key_P_succ (Dvd.dvd.mul_left h.key_Q (PowerSeries.C f))
  have hcancel : PowerSeries.C (miss S P N) + PowerSeries.C f * PowerSeries.C b = 0 := by
    rw [← map_mul, ← map_add, hf, map_zero]
  rw [residual_add_C_mul]
  convert hsum using 1
  linear_combination (PowerSeries.X ^ N) * hcancel

/-- A pair times `x` misses by the same value one order later. -/
theorem dvd_residual_X_mul (h : PowerSeries.X ^ (N + 1) ∣ residual S P p - PowerSeries.C b * PowerSeries.X ^ N) :
    PowerSeries.X ^ (N + 1 + 1) ∣ residual S (X * P) (X * p) - PowerSeries.C b * PowerSeries.X ^ (N + 1) := by
  rw [residual_X_mul, pow_succ' _ (N + 1)]
  convert mul_dvd_mul_left PowerSeries.X h using 1
  ring

/-- A step that keeps the backup polynomial: nothing is added, or the length covers what is. -/
theorem KeyState.keep (h : KeyState S N L P Q p q b) (hf : miss S P N + f * b = 0)
    (hk : f = 0 ∨ N < 2 * L) : KeyState S (N + 1) L (P + C f * Q) (X * Q) (p + C f * q) (X * q) b where
  len_le := by have := h.len_le; omega
  mem_P := add_C_mul_mem_degreeLT h.mem_P h.mem_Q f le_rfl (hk.imp_right fun _ => by omega)
  mem_Q := by
    have hlen := h.len_le
    simpa [show N + 1 + 2 - L = N + 2 - L + 1 by omega] using X_mul_mem_degreeLT h.mem_Q
  mem_p := add_C_mul_mem_degreeLT h.mem_p h.mem_q f le_rfl (hk.imp_right fun _ => by omega)
  mem_q := by
    have hlen := h.len_le
    simpa [show N + 1 + 1 - L = N + 1 - L + 1 by omega] using X_mul_mem_degreeLT h.mem_q
  key_P := h.key_add hf
  key_Q := dvd_residual_X_mul h.key_Q

/-- A step that makes the working polynomial the backup polynomial. -/
theorem KeyState.swap (h : KeyState S N L P Q p q b) (hf : miss S P N + f * b = 0) (hk : 2 * L ≤ N) :
    KeyState S (N + 1) (N + 1 - L) (P + C f * Q) (X * P) (p + C f * q) (X * p) (miss S P N) where
  len_le := by omega
  mem_P := add_C_mul_mem_degreeLT h.mem_P h.mem_Q f (by omega) (.inr (by omega))
  mem_Q := by
    have hlen := h.len_le
    simpa [show N + 1 + 2 - (N + 1 - L) = L + 1 + 1 by omega] using X_mul_mem_degreeLT h.mem_P
  mem_p := add_C_mul_mem_degreeLT h.mem_p h.mem_q f (by omega) (.inr le_rfl)
  mem_q := by
    have hlen := h.len_le
    simpa [show N + 1 + 1 - (N + 1 - L) = L + 1 by omega] using X_mul_mem_degreeLT h.mem_p
  key_P := h.key_add hf
  key_Q := dvd_residual_X_mul h.key_P_succ

end

/-! ### Against a fraction that is the whole series -/

/-- The series is the fraction `Ω / Λ` of length `e`. -/
structure IsFraction {K : Type*} [CommRing K] (S : PowerSeries K) (e : Nat) (Λ Ω : K[X]) : Prop where
  mul_eq : (Λ : PowerSeries K) * S = Ω
  mem_denom : Λ ∈ degreeLT K (e + 1)
  mem_num : Ω ∈ degreeLT K e
  denom_zero : Λ.coeff 0 = 1

section
variable {K : Type*} [CommRing K] {S : PowerSeries K} {N L e : Nat} {P Q p q Λ Ω : K[X]} {b : K}
  (h : KeyState S N L P Q p q b) (hF : IsFraction S e Λ Ω)
include hF

theorem cross_eq (A B : K[X]) : ((A * Ω - Λ * B : K[X]) : PowerSeries K) = Λ * residual S A B := by
  rw [coe_sub, coe_mul, coe_mul, ← hF.mul_eq, residual]
  ring

include h

/-- The numerator of the difference of the two fractions. -/
theorem KeyState.cross_mem : P * Ω - Λ * p ∈ degreeLT K (L + e) :=
  Submodule.sub_mem _ (mul_mem_degreeLT h.mem_P hF.mem_num) (add_comm L e ▸ mul_mem_degreeLT hF.mem_denom h.mem_p)

/-- Massey's bound: a discrepancy at step `N` shows that `L` and the length of the fraction add up to more than `N`. -/
theorem KeyState.lt_add_of_miss (hd : miss S P N ≠ 0) : N < L + e := by
  by_contra hle
  have hcoeff := coeff_eq_zero_of_mem (h.cross_mem hF) (not_lt.1 hle)
  have hdvd := PowerSeries.X_pow_dvd_iff.1 (Dvd.dvd.mul_left h.key_P_succ (Λ : PowerSeries K)) N (Nat.lt_succ_self N)
  rw [mul_sub, ← cross_eq hF, map_sub, coeff_coe, hcoeff, mul_left_comm, PowerSeries.coeff_C_mul,
    PowerSeries.coeff_mul_X_pow', if_pos le_rfl, Nat.sub_self, coeff_coe, hF.denom_zero, mul_one, zero_sub,
    neg_eq_zero] at hdvd
  exact hd hdvd

/-- After as many steps as the two lengths together the two fractions agree. -/
theorem KeyState.cross_eq_zero (hN : L + e ≤ N) : P * Ω = Λ * p := by
  rw [← sub_eq_zero]
  ext k
  rw [coeff_zero]
  by_cases hk : L + e ≤ k
  · exact coeff_eq_zero_of_mem (h.cross_mem hF) hk
  · rw [← coeff_coe, cross_eq hF]
    exact PowerSeries.X_pow_dvd_iff.1 (Dvd.dvd.mul_left h.key_P _) k (by omega)

end

/-- A fraction in lowest terms is recovered with its denominator. -/
theorem KeyState.eq_denominator {K : Type*} [Field K] {S : PowerSeries K} {N L e : Nat} {P Q p q Λ Ω : K[X]} {b : K}
    (h : KeyState S N L P Q p q b) (hF : IsFraction S e Λ Ω) (hcop : IsCoprime Λ Ω) (hΛe : Λ.coeff e ≠ 0)
    (hP0 : P.coeff 0 = 1) (hL : L ≤ e) (hN : 2 * e ≤ N) : P = Λ := by
  have hcross := h.cross_eq_zero hF (by omega)
  obtain ⟨g, rfl⟩ : Λ ∣ P := hcop.dvd_of_dvd_mul_right ⟨p, hcross⟩
  have hne : Λ * g ≠ 0 := fun h0 => by simp [h0] at hP0
  have hP : (Λ * g).natDegree < L + 1 := (natDegree_lt_iff_degree_lt hne).2 (mem_degreeLT.1 h.mem_P)
  have hdeg : (Λ * g).natDegree = Λ.natDegree + g.natDegree :=
    natDegree_mul (left_ne_zero_of_mul hne) (right_ne_zero_of_mul hne)
  have hge : e ≤ Λ.natDegree := le_natDegree_of_ne_zero hΛe
  have hconst : g = C (g.coeff 0) := eq_C_of_natDegree_eq_zero (by omega)
  rw [mul_coeff_zero, hF.denom_zero, one_mul] at hP0
  rw [hconst, hP0, C_1, mul_one]

/-! ### The power sums of a list of locators as a fraction (R131) -/

section
variable {K : Type*} [CommRing K]

/-- The product of `1 - a x` over the list: the reversal of the product of `x - a`. -/
noncomputable def locatorPoly : List K → K[X]
  | [] => 1
  | a :: l => (1 - C a * X) * locatorPoly l

/-- The numerator of the power sums over `locatorPoly`. -/
noncomputable def evaluatorPoly : List K → K[X]
  | [] => 0
  | a :: l => locatorPoly l + (1 - C a * X) * evaluatorPoly l

/-- The series of the power sums. -/
noncomputable def powerSums (l : List K) : PowerSeries K := PowerSeries.mk fun j => (l.map (· ^ j)).sum

theorem linear_mul_geometric (a : K) : ((1 - C a * X : K[X]) : PowerSeries K) * PowerSeries.mk (a ^ ·) = 1 := by
  ext n
  push_cast
  rw [sub_mul, one_mul, mul_assoc, map_sub, PowerSeries.coeff_C_mul, PowerSeries.coeff_mk, PowerSeries.coeff_one]
  cases n with
  | zero => simp
  | succ n => rw [PowerSeries.coeff_succ_X_mul, PowerSeries.coeff_mk, pow_succ', sub_self, if_neg n.succ_ne_zero]

theorem powerSums_cons (a : K) (l : List K) : powerSums (a :: l) = PowerSeries.mk (a ^ ·) + powerSums l := by
  ext n
  simp [powerSums]

theorem locatorPoly_mul_powerSums (l : List K) : (locatorPoly l : PowerSeries K) * powerSums l = evaluatorPoly l := by
  induction l with
  | nil =>
    ext n
    simp [locatorPoly, evaluatorPoly, powerSums]
  | cons a l ih =>
    have hgeo := linear_mul_geometric a
    rw [powerSums_cons, locatorPoly, evaluatorPoly, coe_add, coe_mul, coe_mul, ← ih]
    linear_combination (locatorPoly l : PowerSeries K) * hgeo

theorem linear_mem_degreeLT (a : K) : (1 - C a * X : K[X]) ∈ degreeLT K (1 + 1) := by
  rw [mem_degreeLT, degree_lt_iff_coeff_zero]
  intro k hk
  obtain ⟨k, rfl⟩ : ∃ j, k = j + 1 := ⟨k - 1, by omega⟩
  rw [coeff_sub, coeff_C_mul, coeff_X, coeff_one, if_neg (by omega), if_neg (by omega), mul_zero, sub_zero]

theorem locatorPoly_mem (l : List K) : locatorPoly l ∈ degreeLT K (l.length + 1) := by
  induction l with
  | nil =>
    rw [mem_degreeLT]
    exact lt_of_le_of_lt degree_one_le (by norm_num)
  | cons a l ih =>
    rw [List.length_cons, add_comm _ 1]
    exact mul_mem_degreeLT (linear_mem_degreeLT a) ih

theorem evaluatorPoly_mem (l : List K) : evaluatorPoly l ∈ degreeLT K l.length := by
  induction l with
  | nil => exact Submodule.zero_mem _
  | cons a l ih =>
    refine Submodule.add_mem _ (locatorPoly_mem l) ?_
    rw [List.length_cons, add_comm]
    exact mul_mem_degreeLT (linear_mem_degreeLT a) ih

theorem coeff_locatorPoly_zero (l : List K) : (locatorPoly l).coeff 0 = 1 := by
  induction l with
  | nil => simp [locatorPoly]
  | cons a l ih => simp [locatorPoly, mul_coeff_zero, ih]

/-- The series of the power sums is a fraction as long as the list. -/
theorem isFraction_powerSums (l : List K) :
    IsFraction (powerSums l) l.length (locatorPoly l) (evaluatorPoly l) where
  mul_eq := locatorPoly_mul_powerSums l
  mem_denom := locatorPoly_mem l
  mem_num := evaluatorPoly_mem l
  denom_zero := coeff_locatorPoly_zero l

theorem coeff_locatorPoly_succ (a : K) (l : List K) (j : Nat) :
    (locatorPoly (a :: l)).coeff (j + 1) = (locatorPoly l).coeff (j + 1) - a * (locatorPoly l).coeff j := by
  rw [locatorPoly, sub_mul, one_mul, mul_assoc, coeff_sub, coeff_C_mul, coeff_X_mul]

end

section
variable {K : Type*} [Field K]

theorem coeff_locatorPoly_length {l : List K} (h0 : ∀ a ∈ l, a ≠ 0) : (locatorPoly l).coeff l.length ≠ 0 := by
  induction l with
  | nil => simp [locatorPoly]
  | cons a l ih =>
    rw [List.forall_mem_cons] at h0
    rw [List.length_cons, coeff_locatorPoly_succ, coeff_eq_zero_of_mem (locatorPoly_mem l) le_rfl, zero_sub]
    exact neg_ne_zero.2 (mul_ne_zero h0.1 (ih h0.2))

theorem isCoprime_linear {a b : K} (h : a ≠ b) : IsCoprime (1 - C a * X) (1 - C b * X) := by
  have hinv : (C (b - a)⁻¹ : K[X]) * (C b - C a) = 1 := by
    rw [← C_sub, ← C_mul, inv_mul_cancel₀ (sub_ne_zero.2 h.symm), C_1]
  exact ⟨C (b - a)⁻¹ * C b, -(C (b - a)⁻¹ * C a), by linear_combination hinv⟩

theorem isCoprime_linear_locatorPoly {a : K} {l : List K} (h : a ∉ l) : IsCoprime (1 - C a * X) (locatorPoly l) := by
  induction l with
  | nil => exact isCoprime_one_right
  | cons b l ih =>
    rw [List.mem_cons, not_or] at h
    exact (isCoprime_linear h.1).mul_right (ih h.2)

/-- For distinct locators the fraction is in lowest terms. -/
theorem isCoprime_locatorPoly_evaluatorPoly {l : List K} (h : l.Nodup) :
    IsCoprime (locatorPoly l) (evaluatorPoly l) := by
  induction l with
  | nil => exact isCoprime_one_left
  | cons a l ih =>
    rw [List.nodup_cons] at h
    have hlin := isCoprime_linear_locatorPoly h.1
    refine IsCoprime.mul_left ?_ ?_
    · exact hlin.add_mul_left_right _
    · simpa [evaluatorPoly, add_comm] using (hlin.symm.mul_right (ih h.2)).add_mul_left_right 1

end

end Sys2Proof.Machine.Massey
end

section
/-! SUPPORT. The decoder's working set follows the polynomials of Berlekamp-Massey over GF(2)[x] / POLY, of which it
holds the coefficients up to degree `T` (41_polynomial_bm.md R125, R131). -/

namespace Sys2Proof.Machine

open Polynomial Massey

/-- GF(2)[x] / POLY, the field of the elements where POLY is irreducible (40_field_arithmetic.md R95). -/
abbrev ResidueRing (c : Build) : Type := AdjoinRoot (polyOf c.poly)

/-! ### Sums of a value with itself, and division -/

theorem residue_add_self (c : Build) (x : Elem) : residue c x + residue c x = 0 := by
  rw [← residue_add, add, BitVec.xor_self]
  exact residue_zero c

/-- A quotient times its denominator, for a non-zero denominator (40_field_arithmetic.md R103). -/
theorem mul_frac {c : Build} (hv : c.valid = true) (hirr : Irreducible (polyOf c.poly)) {den num : Elem}
    (hden : den.toNat < 2 ^ c.m) (hnum : num.toNat < 2 ^ c.m) (h0 : den ≠ 0) : mul c (frac c den num) den = num := by
  have hinv := toNat_inv_lt hv den
  rw [frac, mul_associates hv hnum hinv hden, mul_commutes hv hinv hden, mul_inv_right hv hirr hden h0,
    mul_one_right hv hnum]

/-! ### Lists of coefficients -/

/-- The list holds the coefficients of `P` up to degree `T`. -/
def Holds (c : Build) (l : List Elem) (P : (ResidueRing c)[X]) : Prop :=
  ∀ i, i ≤ c.t → residue c (l.getD i 0) = P.coeff i

/-- The shift drops what leaves degree `T` (R125). -/
theorem Holds.shiftUp {c : Build} {l : List Elem} {P : (ResidueRing c)[X]} (h : Holds c l P)
    (hl : l.length = c.t + 1) : Holds c (shiftUp l) (X * P) := by
  intro i hi
  cases i with
  | zero => rw [shiftUp_getD_zero, residue_zero, coeff_X_mul_zero]
  | succ i => rw [shiftUp_getD_succ (by omega), coeff_X_mul, h i (by omega)]

theorem holds_bmInit_cs (c : Build) : Holds c (bmInit c).cs 1 := by
  intro i hi
  cases i with
  | zero => rw [coeff_one_zero, ← residue_one]; rfl
  | succ i =>
    rw [coeff_one, if_neg i.succ_ne_zero, bmInit, List.getD_cons_succ, List.getD_replicate _ (by omega), residue_zero]

theorem holds_bmInit_bs (c : Build) : Holds c (bmInit c).bs X := by
  intro i hi
  match i with
  | 0 => rw [coeff_X_zero, ← residue_zero]; rfl
  | 1 => rw [coeff_X_one, ← residue_one]; rfl
  | i + 2 =>
    rw [coeff_X, if_neg (by omega), bmInit, List.getD_cons_succ, List.getD_cons_succ, List.getD_replicate _ (by omega),
      residue_zero]

/-- The series has the classes of the syndromes as its coefficients. -/
structure SeriesOf (c : Build) (syn : Nat → Elem) (S : PowerSeries (ResidueRing c)) : Prop where
  lt : ∀ j, (syn j).toNat < 2 ^ c.m
  coeff_eq : ∀ j, PowerSeries.coeff j S = residue c (syn j)

section
variable {c : Build} (hv : c.valid = true) {syn : Nat → Elem} {S : PowerSeries (ResidueRing c)} {n : Nat} {w : BmWork}
  {P Q : (ResidueRing c)[X]}
include hv

/-- While the length is at most `T`, the discrepancy is the coefficient of the product: its sum stops at degree `T`,
where the working polynomial has ended. -/
theorem residue_discrepancy (hS : SeriesOf c syn S) {cs : List Elem} (hcs : ∀ x ∈ cs, x.toNat < 2 ^ c.m)
    (hP : Holds c cs P) {L : Nat} (hdeg : P ∈ degreeLT (ResidueRing c) (L + 1)) (hL : L ≤ c.t) :
    residue c (discrepancy c syn cs n) = miss S P n := by
  rw [miss, discrepancy_eq_xorSum, residue_xorSum, PowerSeries.coeff_mul,
    Finset.Nat.sum_antidiagonal_eq_sum_range_succ
      (fun i j => PowerSeries.coeff i (P : PowerSeries (ResidueRing c)) * PowerSeries.coeff j S)]
  have hterm : ∀ i ∈ Finset.range (min n c.t + 1), residue c (mul c (cs.getD i 0) (syn (n - i))) =
      PowerSeries.coeff i (P : PowerSeries (ResidueRing c)) * PowerSeries.coeff (n - i) S := by
    intro i hi
    rw [Finset.mem_range] at hi
    rw [residue_mul hv (getD_zero_lt hcs i) (hS.lt _), hP i (by omega), hS.coeff_eq, coeff_coe]
  rw [Finset.sum_congr rfl hterm]
  refine Finset.sum_subset (Finset.range_mono (by omega)) fun i hi hnot => ?_
  rw [Finset.mem_range] at hi hnot
  rw [coeff_coe, coeff_eq_zero_of_mem hdeg (by omega), zero_mul]

/-- The new `C` holds the sum of the working polynomial and a multiple of the backup polynomial. -/
theorem holds_bmStep_cs (syn : Nat → Elem) {k : Nat} (hw : w.Ok c k) (hP : Holds c w.cs P) (hQ : Holds c w.bs Q) :
    Holds c (bmStep c syn n w).cs (P + C (residue c (frac c w.scale (discrepancy c syn w.cs n))) * Q) := by
  obtain ⟨hcs, hbs, -⟩ := hw.mBit
  have hf := toNat_frac_lt hv w.scale (toNat_discrepancy_lt hv syn hcs n)
  intro i hi
  rw [bmStep_cs_getD hv syn n hw hi, residue_add, residue_mul hv hf (getD_zero_lt hbs i), hP i hi, hQ i hi, coeff_add,
    coeff_C_mul]

end

/-! ### The decoder follows the polynomials -/

/-- After `n` steps the working set holds polynomials that meet the invariant of Berlekamp-Massey on the series. -/
def Tracks (c : Build) (S : PowerSeries (ResidueRing c)) (n : Nat) (w : BmWork) : Prop :=
  ∃ P Q p q, Holds c w.cs P ∧ Holds c w.bs Q ∧ KeyState S n w.len P Q p q (residue c w.scale)

theorem tracks_bmInit (c : Build) (S : PowerSeries (ResidueRing c)) : Tracks c S 0 (bmInit c) := by
  refine ⟨1, X, 0, -1, holds_bmInit_cs c, holds_bmInit_bs c, ?_⟩
  have hinit := KeyState.init S
  rwa [← residue_one] at hinit

section
variable {c : Build} (hv : c.valid = true) {syn : Nat → Elem} {S : PowerSeries (ResidueRing c)} (hS : SeriesOf c syn S)
  {n : Nat} {w : BmWork} (hw : w.Ok c n) (ht : Tracks c S n w) (hlen : w.len ≤ c.t)
include hv hS hw ht hlen

theorem Tracks.bmStep (hirr : Irreducible (polyOf c.poly)) : Tracks c S (n + 1) (bmStep c syn n w) := by
  obtain ⟨P, Q, p, q, hP, hQ, hkey⟩ := ht
  obtain ⟨hcs, hbs, hscale⟩ := hw.mBit
  have hd := toNat_discrepancy_lt hv syn hcs n
  have hdisc := residue_discrepancy hv hS (n := n) hcs hP hkey.mem_P hlen
  have hcancel : miss S P n + residue c (frac c w.scale (discrepancy c syn w.cs n)) * residue c w.scale = 0 := by
    rw [← residue_mul hv (toNat_frac_lt hv _ hd) hscale, mul_frac hv hirr hscale hd hw.scale_ne, ← hdisc,
      residue_add_self]
  obtain ⟨hbs', hscale', hlen'⟩ := bmStep_swap hv syn n hw.mBit (hw.cs_length.trans hw.bs_length.symm)
  have hP' := holds_bmStep_cs hv syn hw hP hQ (n := n)
  cases hs : w.swaps c syn n
  · simp only [hs, Bool.false_eq_true, if_false] at hbs' hscale' hlen'
    have hkeep : residue c (frac c w.scale (discrepancy c syn w.cs n)) = 0 ∨ n < 2 * w.len := by
      by_cases h0 : discrepancy c syn w.cs n = 0
      · left
        rw [h0, frac_zero hv, residue_zero]
      · right
        exact not_le.1 fun hle => by simp [swaps_iff.2 ⟨h0, hle⟩] at hs
    exact ⟨_, _, _, _, hP', hbs' ▸ hQ.shiftUp hw.bs_length, by rw [hscale', hlen']; exact hkey.keep hcancel hkeep⟩
  · simp only [hs, if_true] at hbs' hscale' hlen'
    exact ⟨_, _, _, _, hP', hbs' ▸ hP.shiftUp hw.cs_length, by
      rw [hscale', hlen', hdisc]; exact hkey.swap hcancel (swaps_iff.1 hs).2⟩

/-- The length stays within that of a fraction that is the whole series. -/
theorem Tracks.bmStep_len_le {Λ Ω : (ResidueRing c)[X]} {e : Nat} (hF : IsFraction S e Λ Ω) (he : w.len ≤ e) :
    (Machine.bmStep c syn n w).len ≤ e := by
  obtain ⟨P, Q, p, q, hP, hQ, hkey⟩ := ht
  obtain ⟨hcs, -, -⟩ := hw.mBit
  obtain ⟨-, -, hlen'⟩ := bmStep_swap hv syn n hw.mBit (hw.cs_length.trans hw.bs_length.symm)
  rw [hlen']
  split
  · have hne := mt (residue_eq_zero_iff hv (toNat_discrepancy_lt hv syn hcs n)).1 (swaps_iff.1 ‹_›).1
    rw [residue_discrepancy hv hS hcs hP hkey.mem_P hlen] at hne
    have hbound := hkey.lt_add_of_miss hF hne
    omega
  · exact he

end

/-- Every number of steps: the decoder follows the polynomials and its length stays within the fraction's. -/
theorem bmSteps_tracks {c : Build} (hv : c.valid = true) (hirr : Irreducible (polyOf c.poly)) {syn : Nat → Elem}
    {S : PowerSeries (ResidueRing c)} (hS : SeriesOf c syn S) {Λ Ω : (ResidueRing c)[X]} {e : Nat}
    (hF : IsFraction S e Λ Ω) (he : e ≤ c.t) (k : Nat) :
    Tracks c S k (bmSteps c syn k) ∧ (bmSteps c syn k).len ≤ e := by
  induction k with
  | zero => exact ⟨tracks_bmInit c S, Nat.zero_le e⟩
  | succ k ih =>
    obtain ⟨htracks, hlen⟩ := ih
    have hok := bmSteps_ok hv syn k
    rw [bmSteps_succ]
    exact ⟨htracks.bmStep hv hS hok (hlen.trans he) hirr, htracks.bmStep_len_le hv hS hok (hlen.trans he) hF hlen⟩

/-! ### Syndromes and the product of the model (R131) -/

theorem residue_foldl_add (c : Build) (l : List Elem) (acc : Elem) :
    residue c (l.foldl add acc) = residue c acc + (l.map (residue c)).sum := by
  induction l generalizing acc with
  | nil => simp
  | cons x l ih => rw [List.foldl_cons, ih, residue_add, List.map_cons, List.sum_cons, add_assoc]

theorem toNat_syndromes_lt {c : Build} (hv : c.valid = true) (l : List Elem) (j : Nat) :
    (syndromes c l j).toNat < 2 ^ c.m := by
  refine List.foldlRecOn _ _ (motive := fun d : Elem => d.toNat < 2 ^ c.m) (toNat_zero_lt c.m) fun d hd x hx => ?_
  obtain ⟨a, -, rfl⟩ := List.mem_map.1 hx
  exact toNat_add_lt hd (toNat_power_lt hv j)

theorem seriesOf_powerSums {c : Build} (hv : c.valid = true) {l : List Elem} (hl : ∀ a ∈ l, a.toNat < 2 ^ c.m) :
    SeriesOf c (syndromes c l) (powerSums (l.map (residue c))) where
  lt := toNat_syndromes_lt hv l
  coeff_eq j := by
    rw [syndromes, residue_foldl_add, residue_zero, zero_add, powerSums, PowerSeries.coeff_mk, List.map_map,
      List.map_map]
    exact congrArg List.sum (List.map_congr_left fun a ha => (residue_power hv (hl a ha) j).symm)

theorem rootProduct_length (c : Build) (l : List Elem) : (rootProduct c l).length = l.length + 1 := by
  induction l with
  | nil => rfl
  | cons a l ih => simp [rootProduct, ih]

theorem rootProduct_lt {c : Build} (hv : c.valid = true) {l : List Elem} (hl : ∀ a ∈ l, a.toNat < 2 ^ c.m) :
    ∀ x ∈ rootProduct c l, x.toNat < 2 ^ c.m := by
  induction l with
  | nil => exact List.forall_mem_singleton.2 (one_lt_of_valid hv)
  | cons a l ih =>
    rw [List.forall_mem_cons] at hl
    refine zipWith_lt (fun x hx => ?_) (List.forall_mem_cons.2 ⟨toNat_zero_lt c.m, ih hl.2⟩)
      fun x y hx hy => toNat_add_lt hx hy
    rw [List.mem_append, List.mem_map, List.mem_singleton] at hx
    obtain ⟨y, -, rfl⟩ | rfl := hx
    · exact toNat_mul_lt hv hl.1 y
    · exact toNat_zero_lt c.m

/-- One more factor `x + a`, coefficient by coefficient. -/
theorem rootProduct_cons_getD {c : Build} (hv : c.valid = true) (a : Elem) (l : List Elem) {i : Nat}
    (hi : i ≤ l.length + 1) : (rootProduct c (a :: l)).getD i 0 =
      add (mul c a ((rootProduct c l).getD i 0)) ((0 :: rootProduct c l).getD i 0) := by
  have hlen := rootProduct_length c l
  have hleft : ((rootProduct c l).map (mul c a) ++ [0]).getD i 0 = mul c a ((rootProduct c l).getD i 0) := by
    by_cases hlt : i < (rootProduct c l).length
    · rw [List.getD_append _ _ _ _ (by simpa using hlt), List.getD_eq_getElem _ _ (by simpa using hlt),
        List.getElem_map, List.getD_eq_getElem _ _ hlt]
    · rw [List.getD_append_right _ _ _ _ (by simpa using hlt), List.getD_eq_default (rootProduct c l) _ (by omega),
        mul_zero_right hv, show i - ((rootProduct c l).map (mul c a)).length = 0 by simp; omega]
      rfl
  rw [← hleft, rootProduct, List.getD_eq_getElem _ _ (by simp; omega), List.getElem_zipWith,
    List.getD_eq_getElem _ _ (by simp; omega), List.getD_eq_getElem _ _ (by simp; omega)]

/-- The model's product is `locatorPoly` read from the highest degree down. -/
theorem coeff_locatorPoly {c : Build} (hv : c.valid = true) {l : List Elem} (hl : ∀ a ∈ l, a.toNat < 2 ^ c.m) {j : Nat}
    (hj : j ≤ l.length) :
    (locatorPoly (l.map (residue c))).coeff j = residue c ((rootProduct c l).getD (l.length - j) 0) := by
  induction l generalizing j with
  | nil =>
    obtain rfl : j = 0 := by simpa using hj
    rw [coeff_locatorPoly_zero, ← residue_one]
    rfl
  | cons a l ih =>
    obtain ⟨ha, hl⟩ := List.forall_mem_cons.1 hl
    have hplen := rootProduct_length c l
    have hp := rootProduct_lt hv hl
    rw [List.length_cons] at hj ⊢
    rw [rootProduct_cons_getD hv a l (by omega), residue_add, List.map_cons]
    cases j with
    | zero =>
      have htop := ih hl (Nat.zero_le _)
      rw [coeff_locatorPoly_zero] at htop ⊢
      rw [Nat.sub_zero, List.getD_eq_default (rootProduct c l) _ (by omega), List.getD_cons_succ, mul_zero_right hv,
        residue_zero, zero_add]
      exact htop
    | succ j =>
      have hneg : ∀ x : Elem, -residue c x = residue c x := fun x => neg_eq_of_add_eq_zero_left (residue_add_self c x)
      rw [coeff_locatorPoly_succ, ih hl (j := j) (by omega), ← residue_mul hv ha (getD_zero_lt hp _), sub_eq_add_neg,
        hneg, Nat.add_sub_add_right, add_comm]
      congr 1
      obtain rfl | hlt := (show j ≤ l.length by omega).eq_or_lt
      · rw [Nat.sub_self, List.getD_cons_zero, residue_zero]
        exact coeff_eq_zero_of_mem (locatorPoly_mem _) (by simp)
      · rw [ih hl hlt, show l.length - j = l.length - (j + 1) + 1 by omega, List.getD_cons_succ]

/-- Distinct non-zero locators: after `2T` steps `C` holds the denominator of the series of their power sums. -/
theorem holds_locatorPoly {c : Build} (hv : c.valid = true) (hirr : Irreducible (polyOf c.poly)) {l : List Elem}
    (hl : ∀ a ∈ l, a ≠ 0 ∧ a.toNat < 2 ^ c.m) (hnd : l.Nodup) (he : l.length ≤ c.t) :
    Holds c (bmSteps c (syndromes c l) (2 * c.t)).cs (locatorPoly (l.map (residue c))) := by
  have : Fact (Irreducible (polyOf c.poly)) := ⟨hirr⟩
  have hwidth : ∀ a ∈ l, a.toNat < 2 ^ c.m := fun a ha => (hl a ha).2
  have hnd' : (l.map (residue c)).Nodup :=
    hnd.map_on fun a ha b hb hab => eq_of_residue_eq hv (hwidth a ha) (hwidth b hb) hab
  have hne : ∀ r ∈ l.map (residue c), r ≠ 0 := by
    intro r hr
    obtain ⟨a, ha, rfl⟩ := List.mem_map.1 hr
    exact mt (residue_eq_zero_iff hv (hwidth a ha)).1 (hl a ha).1
  have hF := isFraction_powerSums (l.map (residue c))
  obtain ⟨⟨P, Q, p, q, hP, -, hkey⟩, hL⟩ :=
    bmSteps_tracks hv hirr (seriesOf_powerSums hv hwidth) hF (by simpa using he) (2 * c.t)
  have hP0 : P.coeff 0 = 1 := by
    rw [← hP 0 (Nat.zero_le _), (bmSteps_ok hv _ _).cs_zero, residue_one]
  have heq : P = locatorPoly (l.map (residue c)) :=
    hkey.eq_denominator hF (isCoprime_locatorPoly_evaluatorPoly hnd') (coeff_locatorPoly_length hne) hP0 hL
      (by rw [List.length_map]; omega)
  exact heq ▸ hP

end Sys2Proof.Machine
end

section
/-! PROOFS. The statements about the evaluator and the decoder (41_polynomial_bm.md). -/

namespace Sys2Proof.Machine

open Massey

/-- Settles O30: the fill-count check decides, and Horner's loop is the sum over the degrees. -/
theorem plEvalWritesTheValueAtThePoint : Obligations.PlEvalWritesTheValueAtThePoint := by
  intro gd ps ga s hinv
  constructor
  · intro hlen
    have hval := eval_eq_xorSum hinv.valid (hinv.readE_lt (.p ps)) (hinv.getG_lt ga)
    rw [← hval]
    exact needFilled_pos (b := .elem (.p ps)) hlen _ _
  · exact fun hlen => needFilled_neg (b := .elem (.p ps)) hlen _ _

/-- Settles O31, from the value as a sum over the degrees in the quotient ring. -/
theorem evalIsLinear : Obligations.EvalIsLinear := by
  refine ⟨fun c f g a hv hf hg ha => ⟨eval_add hv hf ha hg, ?_, eval_one hv hf, fun hconst => ?_⟩, by decide +kernel⟩
  · exact eval_eq_constant hv hf (toNat_zero_lt c.m) fun _ _ _ => .inr rfl
  · exact eval_eq_constant hv hf ha fun i h1 ht => .inl (hconst i h1 ht)

/-- Settles O32: the command fills `P[pd]` with the reversal and declares it full, and the laws of these two operations
say what every other component keeps. -/
theorem bmRunWritesTheReversedLocator : Obligations.BmRunWritesTheReversedLocator := by
  intro pd s hinv
  refine ⟨fun hlen => ?_, fun hlen => needFilled_neg (b := .elem .syn) hlen _ _⟩
  obtain ⟨hwf, -, -⟩ := hinv.elems (.p pd)
  refine ⟨_, needFilled_pos (b := .elem .syn) hlen _ _, fun i hi => ?_, ?_, fun b k hbk => ?_, fun b hb => ?_, by simp,
    by simp, by simp, by simp, by simp, by simp, by simp⟩
  · rw [readE_declareFull, readE_fillE hwf, if_pos ⟨rfl, by omega⟩, locator]
  · rw [getLen_declareFull_self (by simpa using hinv.valid)]
    simp [cap, capE]
  · rw [readE_declareFull, readE_fillE hwf, if_neg]
    rintro ⟨rfl, hk⟩
    exact hbk (List.mem_map.2 ⟨k, List.mem_range.2 hk, rfl⟩)
  · rw [getLen_declareFull_of_ne _ hb, getLen_fillE]

/-- Settles O33, from the invariant of the step. -/
theorem decoderWorkingSetStaysInRange : Obligations.DecoderWorkingSetStaysInRange := by
  intro c syn k hv _
  have hok := bmSteps_ok hv syn k
  obtain ⟨hcs, hbs, -⟩ := hok.mBit
  exact ⟨hok.len_le, hok.scale_ne, hok.cs_length, hok.bs_length, hcs, hbs⟩

/-- Settles O34: the constant term of `C` stays 1, and without a discrepancy `C` stays the polynomial 1. -/
theorem locatorIsMonic : Obligations.LocatorIsMonic := by
  intro c syn hv _
  refine ⟨?_, fun hzero i hi => ?_⟩
  · rw [locator, Nat.sub_self]
    exact (bmSteps_ok hv syn _).cs_zero
  · obtain ⟨j, hj⟩ : ∃ j, c.t - i = j + 1 := ⟨c.t - i - 1, by omega⟩
    rw [locator, hj, bmSteps_cs_getD_of_zero hv hzero (by omega), bmInit, List.getD_cons_succ,
      List.getD_replicate _ (by omega)]

/-- Settles O35: `C` holds the product of `1 - a x`, of which the model's product and the output are the reversals. -/
theorem decoderRecoversTheLocators : Obligations.DecoderRecoversTheLocators := by
  intro c l hv hirr hl hnd he i hi
  have hwidth : ∀ a ∈ l, a.toNat < 2 ^ c.m := fun a ha => (hl a ha).2
  have hcoeff : residue c (locator c (syndromes c l) i) = (locatorPoly (l.map (residue c))).coeff (c.t - i) :=
    holds_locatorPoly hv hirr hl hnd he _ (Nat.sub_le _ _)
  have hout := toNat_locator_lt hv (syndromes c l) i
  split
  · refine eq_of_residue_eq hv hout (getD_zero_lt (rootProduct_lt hv hwidth) _) ?_
    rw [hcoeff, coeff_locatorPoly hv hwidth (by omega), show l.length - (c.t - i) = i - (c.t - l.length) by omega]
  · rw [← residue_eq_zero_iff hv hout, hcoeff]
    exact coeff_eq_zero_of_mem (locatorPoly_mem _) (by simp; omega)

end Sys2Proof.Machine
end

section
/-! SUPPORT. The wiring of the Benes network (42_benes.md R141). A number is a position of one of the `2^l` sub-networks
of level `l` (R151); on positions so written a switch joins two neighbours. -/

namespace Sys2Proof.Machine

/-! ### Neighbours -/

theorem xor_one_div_two (x : Nat) : (x ^^^ 1) / 2 = x / 2 := by
  rw [Nat.xor_div_two, Nat.div_eq_of_lt (by norm_num : 1 < 2), Nat.xor_zero]

theorem xor_one_mod_two (x : Nat) : (x ^^^ 1) % 2 = (x + 1) % 2 := Nat.xor_mod_two_eq

/-- `x XOR 1` is the other number of the pair of neighbours `x` is in. -/
theorem xor_one_eq (x : Nat) : x ^^^ 1 = if x % 2 = 0 then x + 1 else x - 1 := by
  have hdiv := xor_one_div_two x
  have hmod := xor_one_mod_two x
  split <;> omega

theorem xor_one_xor_one (x : Nat) : x ^^^ 1 ^^^ 1 = x := by rw [Nat.xor_assoc, Nat.xor_self, Nat.xor_zero]

theorem xor_one_ne (x : Nat) : x ^^^ 1 ≠ x := by
  rw [xor_one_eq]
  split <;> omega

theorem xor_one_lt {k x : Nat} (hk : k % 2 = 0) (hx : x < k) : x ^^^ 1 < k := by
  rw [xor_one_eq]
  split <;> omega

/-! ### Positions of a sub-network (R151) -/

/-- Position `x` of the sub-network of level `l` with offset `o`: `o + x * 2^l` (R151). -/
def subPos (l o x : Nat) : Nat := 2 ^ l * x + o

theorem eq_subPos (l x : Nat) : x = subPos l (x % 2 ^ l) (x / 2 ^ l) := (Nat.div_add_mod x (2 ^ l)).symm

theorem mod_two_pow_lt (l x : Nat) : x % 2 ^ l < 2 ^ l := Nat.mod_lt _ (Nat.two_pow_pos l)

/-- A sub-network interleaves two halves: position `2 y + b` of it is position `y` of the half `b`. -/
theorem subPos_two_mul_add (l o y b : Nat) : subPos l o (2 * y + b) = subPos (l + 1) (subPos l o b) y := by
  simp only [subPos]
  ring

section
variable {l o : Nat} (ho : o < 2 ^ l)
include ho

theorem testBit_subPos (x i : Nat) : (subPos l o x).testBit i = if i < l then o.testBit i else x.testBit (i - l) :=
  Nat.testBit_two_pow_mul_add x ho i

theorem subPos_mod (x : Nat) : subPos l o x % 2 ^ l = o := by
  rw [subPos, Nat.mul_add_mod, Nat.mod_eq_of_lt ho]

theorem subPos_div (x : Nat) : subPos l o x / 2 ^ l = x := by
  rw [subPos, Nat.mul_add_div (Nat.two_pow_pos l), Nat.div_eq_of_lt ho, Nat.add_zero]

theorem subPos_bit_lt {b : Nat} (hb : b < 2) : subPos l o b < 2 ^ (l + 1) := by
  have : 2 ^ l * b ≤ 2 ^ l * 1 := Nat.mul_le_mul_left _ (by omega)
  rw [subPos, pow_succ]
  omega

theorem testBit_subPos_self (x : Nat) : (subPos l o x).testBit l = decide (x % 2 = 1) := by
  rw [testBit_subPos ho, if_neg (lt_irrefl l), Nat.sub_self, Nat.testBit_zero]

/-- The number of a switch is a position of half the sub-network. -/
theorem swidx_subPos (x : Nat) : swidx l (subPos l o x) = subPos l o (x / 2) := by
  rw [swidx, Nat.and_two_pow_sub_one_eq_mod, subPos_mod ho, Nat.shiftRight_eq_div_pow, pow_succ,
    ← Nat.div_div_eq_div_mul, subPos_div ho, ← Nat.shiftLeft_add_eq_or_of_lt ho, Nat.shiftLeft_eq, Nat.mul_comm, subPos]

theorem loPos_subPos (x : Nat) : loPos l (subPos l o x) = subPos l o (2 * x) := by
  have ho' : o < 2 ^ (l + 1) := lt_trans ho (Nat.pow_lt_pow_right (by norm_num) (by omega))
  rw [loPos, Nat.and_two_pow_sub_one_eq_mod, subPos_mod ho, Nat.shiftRight_eq_div_pow, subPos_div ho,
    ← Nat.shiftLeft_add_eq_or_of_lt ho', Nat.shiftLeft_eq, subPos, pow_succ]
  ring

theorem hiPos_subPos (x : Nat) : hiPos l (subPos l o x) = subPos l o (2 * x + 1) := by
  rw [hiPos, loPos_subPos ho, subPos, subPos]
  ring

/-- A switch of a sub-network joins two neighbours. -/
theorem subPos_xor (x : Nat) : subPos l o x ^^^ 2 ^ l = subPos l o (x ^^^ 1) := by
  apply Nat.eq_of_testBit_eq
  intro i
  rw [Nat.testBit_xor, testBit_subPos ho, testBit_subPos ho, Nat.testBit_two_pow]
  by_cases h : i < l
  · simp [h, show l ≠ i by omega]
  · have hone : (1 : Nat).testBit (i - l) = decide (l = i) := by
      rw [← pow_zero 2, Nat.testBit_two_pow]
      exact decide_eq_decide.2 (by omega)
    rw [if_neg h, if_neg h, Nat.testBit_xor, hone]

end

/-! ### Every position belongs to one switch (R140, R141) -/

theorem swidx_loPos (l k : Nat) : swidx l (loPos l k) = k := by
  have ho := mod_two_pow_lt l k
  conv_lhs => rw [eq_subPos l k]
  rw [loPos_subPos ho, swidx_subPos ho, Nat.mul_div_cancel_left _ (by norm_num), ← eq_subPos]

theorem testBit_loPos (l k : Nat) : (loPos l k).testBit l = false := by
  have ho := mod_two_pow_lt l k
  rw [eq_subPos l k, loPos_subPos ho, testBit_subPos_self ho, decide_eq_false (by omega)]

/-- The upper position of a switch is the lower one with bit `l` set. -/
theorem hiPos_eq_xor (l k : Nat) : hiPos l k = loPos l k ^^^ 2 ^ l := by
  have ho := mod_two_pow_lt l k
  rw [eq_subPos l k, hiPos_subPos ho, loPos_subPos ho, subPos_xor ho, xor_one_eq, if_pos (by omega)]

/-- The two positions that differ in bit `l` belong to the same switch. -/
theorem swidx_xor (l x : Nat) : swidx l (x ^^^ 2 ^ l) = swidx l x := by
  have ho := mod_two_pow_lt l x
  rw [eq_subPos l x, subPos_xor ho, swidx_subPos ho, swidx_subPos ho, xor_one_div_two]

/-- A position is the one of its switch's two positions that its bit `l` says. -/
theorem eq_position_of_swidx (l x : Nat) :
    x = if x.testBit l then hiPos l (swidx l x) else loPos l (swidx l x) := by
  have ho := mod_two_pow_lt l x
  rw [eq_subPos l x, swidx_subPos ho, testBit_subPos_self ho, hiPos_subPos ho, loPos_subPos ho,
    ← apply_ite (subPos l _)]
  congr 1
  simp only [decide_eq_true_eq]
  split <;> omega

theorem xor_two_pow_xor_two_pow (x l : Nat) : x ^^^ 2 ^ l ^^^ 2 ^ l = x := by
  rw [Nat.xor_assoc, Nat.xor_self, Nat.xor_zero]

/-! ### Bounds -/

theorem xor_two_pow_lt {m l x : Nat} (hl : l < m) (hx : x < 2 ^ m) : x ^^^ 2 ^ l < 2 ^ m :=
  Nat.xor_lt_two_pow hx (Nat.pow_lt_pow_right (by norm_num) hl)

/-- Below `2^n`, the sub-networks of level `l` have `2^(n-l)` positions each. -/
theorem subPos_lt_iff {l n o : Nat} (hl : l ≤ n) (ho : o < 2 ^ l) (x : Nat) :
    subPos l o x < 2 ^ n ↔ x < 2 ^ (n - l) := by
  rw [← pow_sub_mul_pow 2 hl, ← Nat.div_lt_iff_lt_mul (Nat.two_pow_pos l), subPos_div ho]

theorem swidx_lt {m l x : Nat} (hl : l < m) (hx : x < 2 ^ m) : swidx l x < 2 ^ (m - 1) := by
  have ho := mod_two_pow_lt l x
  rw [eq_subPos l x, subPos_lt_iff hl.le ho] at hx
  rw [eq_subPos l x, swidx_subPos ho, subPos_lt_iff (by omega) ho]
  have : 2 ^ (m - l) = 2 * 2 ^ (m - 1 - l) := by rw [← pow_succ']; congr 1; omega
  omega

theorem hiPos_lt {m l k : Nat} (hl : l < m) (hk : k < 2 ^ (m - 1)) : hiPos l k < 2 ^ m := by
  have ho := mod_two_pow_lt l k
  rw [eq_subPos l k, subPos_lt_iff (by omega) ho] at hk
  rw [eq_subPos l k, hiPos_subPos ho, subPos_lt_iff hl.le ho]
  have : 2 ^ (m - l) = 2 * 2 ^ (m - 1 - l) := by rw [← pow_succ']; congr 1; omega
  omega

/-- Every round of the network has a level below `M` (R141). -/
theorem level_lt {m r : Nat} (hr : r < 2 * m - 1) : level m r < m := by
  rw [level]
  omega

end Sys2Proof.Machine
end

section
/-! SUPPORT. Routing (42_benes.md R144, R145): a round moves every item along one involution of the positions, and a
route along the composition of them. -/

namespace Sys2Proof.Machine

/-! ### One round -/

/-- The position whose item round `r` brings to position `x`: the round applied to the sequence of positions. -/
def roundMap (m : Nat) (c : Nat → Bool) (r : Nat) : Nat → Nat := routeRound m c id r

theorem roundMap_apply (m : Nat) (c : Nat → Bool) (r x : Nat) :
    roundMap m c r x = if c (ctrlBit m r (swidx (level m r) x)) then x ^^^ 2 ^ level m r else x := rfl

theorem routeRound_apply {α : Type} (m : Nat) (c : Nat → Bool) (a : Nat → α) (r x : Nat) :
    routeRound m c a r x = a (roundMap m c r x) := by
  rw [routeRound, roundMap_apply, apply_ite a]

/-- A round undoes itself: the two positions of a switch have the same control bit. -/
theorem roundMap_roundMap (m : Nat) (c : Nat → Bool) (r x : Nat) : roundMap m c r (roundMap m c r x) = x := by
  rw [roundMap_apply m c r x]
  split
  · next h => rw [roundMap_apply, swidx_xor, if_pos h, xor_two_pow_xor_two_pow]
  · next h => rw [roundMap_apply, if_neg h]

theorem roundMap_lt {m r x : Nat} (c : Nat → Bool) (hr : r < 2 * m - 1) (hx : x < 2 ^ m) :
    roundMap m c r x < 2 ^ m := by
  rw [roundMap_apply]
  split
  · exact xor_two_pow_lt (level_lt hr) hx
  · exact hx

/-- Control bit `k` of round `r` is one of the `CBITS` control bits (R143). -/
theorem ctrlBit_lt {m r k : Nat} (hr : r < 2 * m - 1) (hk : k < 2 ^ (m - 1)) :
    ctrlBit m r k < (2 * m - 1) * 2 ^ (m - 1) := by
  have : (r + 1) * 2 ^ (m - 1) ≤ (2 * m - 1) * 2 ^ (m - 1) := Nat.mul_le_mul_right _ hr
  rw [ctrlBit]
  rw [Nat.succ_mul] at this
  omega

/-- A round looks at no control bit past the `CBITS` ones. -/
theorem roundMap_congr {m r x : Nat} {c d : Nat → Bool} (h : ∀ q < (2 * m - 1) * 2 ^ (m - 1), c q = d q)
    (hr : r < 2 * m - 1) (hx : x < 2 ^ m) : roundMap m c r x = roundMap m d r x := by
  rw [roundMap_apply, roundMap_apply, h _ (ctrlBit_lt hr (swidx_lt (level_lt hr) hx))]

/-! ### A list of rounds -/

/-- The position whose item the rounds `rs`, in their order, bring to position `x`. -/
def roundsMap (m : Nat) (c : Nat → Bool) : List Nat → Nat → Nat
  | [], x => x
  | r :: rs, x => roundMap m c r (roundsMap m c rs x)

theorem foldl_routeRound {α : Type} (m : Nat) (c : Nat → Bool) (rs : List Nat) (a : Nat → α) (x : Nat) :
    rs.foldl (routeRound m c) a x = a (roundsMap m c rs x) := by
  induction rs generalizing a with
  | nil => rfl
  | cons r rs ih => rw [List.foldl_cons, ih, routeRound_apply, roundsMap]

theorem roundsMap_append (m : Nat) (c : Nat → Bool) (rs rs' : List Nat) (x : Nat) :
    roundsMap m c (rs ++ rs') x = roundsMap m c rs (roundsMap m c rs' x) := by
  induction rs with
  | nil => rfl
  | cons r rs ih => rw [List.cons_append, roundsMap, roundsMap, ih]

/-- The rounds in the opposite order undo the rounds. -/
theorem roundsMap_reverse_roundsMap (m : Nat) (c : Nat → Bool) (rs : List Nat) (x : Nat) :
    roundsMap m c rs.reverse (roundsMap m c rs x) = x := by
  induction rs with
  | nil => rfl
  | cons r rs ih =>
    rw [List.reverse_cons, roundsMap_append, roundsMap, roundsMap, roundsMap, roundMap_roundMap, ih]

theorem roundsMap_lt {m x : Nat} (c : Nat → Bool) {rs : List Nat} (h : ∀ r ∈ rs, r < 2 * m - 1) (hx : x < 2 ^ m) :
    roundsMap m c rs x < 2 ^ m := by
  induction rs with
  | nil => exact hx
  | cons r rs ih =>
    obtain ⟨hr, hrs⟩ := List.forall_mem_cons.1 h
    exact roundMap_lt c hr (ih hrs)

theorem roundsMap_congr {m x : Nat} {c d : Nat → Bool} (hcd : ∀ q < (2 * m - 1) * 2 ^ (m - 1), c q = d q)
    {rs : List Nat} (h : ∀ r ∈ rs, r < 2 * m - 1) (hx : x < 2 ^ m) : roundsMap m c rs x = roundsMap m d rs x := by
  induction rs with
  | nil => rfl
  | cons r rs ih =>
    obtain ⟨hr, hrs⟩ := List.forall_mem_cons.1 h
    rw [roundsMap, roundsMap, ih hrs, roundMap_congr hcd hr (roundsMap_lt d hrs hx)]

/-! ### A route (R145) -/

/-- The position whose item a route in either direction brings to position `x`. -/
def routeMap (m : Nat) (c : Nat → Bool) (rev : Bool) : Nat → Nat := roundsMap m c (roundOrder m rev)

theorem lt_of_mem_roundOrder {m r : Nat} {rev : Bool} (h : r ∈ roundOrder m rev) : r < 2 * m - 1 := by
  cases rev <;> simpa [roundOrder] using h

theorem roundOrder_not (m : Nat) (rev : Bool) : roundOrder m (!rev) = (roundOrder m rev).reverse := by
  cases rev <;> simp [roundOrder]

theorem route_apply {α : Type} (m : Nat) (c : Nat → Bool) (rev : Bool) (a : Nat → α) (x : Nat) :
    route m c rev a x = a (routeMap m c rev x) :=
  foldl_routeRound m c _ a x

theorem permOf_eq_routeMap (m : Nat) (c : Nat → Bool) (x : Nat) : permOf m c x = routeMap m c false x :=
  route_apply m c false (fun y => y) x

/-- A route in one direction undoes the route in the other. -/
theorem routeMap_not_routeMap (m : Nat) (c : Nat → Bool) (rev : Bool) (x : Nat) :
    routeMap m c (!rev) (routeMap m c rev x) = x := by
  rw [routeMap, roundOrder_not]
  exact roundsMap_reverse_roundsMap m c _ x

theorem routeMap_routeMap_not (m : Nat) (c : Nat → Bool) (rev : Bool) (x : Nat) :
    routeMap m c rev (routeMap m c (!rev) x) = x := by
  simpa using routeMap_not_routeMap m c (!rev) x

theorem routeMap_injective (m : Nat) (c : Nat → Bool) (rev : Bool) : Function.Injective (routeMap m c rev) :=
  Function.LeftInverse.injective (routeMap_not_routeMap m c rev)

theorem routeMap_lt {m x : Nat} (c : Nat → Bool) (rev : Bool) (hx : x < 2 ^ m) : routeMap m c rev x < 2 ^ m :=
  roundsMap_lt c (fun _ => lt_of_mem_roundOrder) hx

theorem permOf_lt {m x : Nat} (c : Nat → Bool) (hx : x < 2 ^ m) : permOf m c x < 2 ^ m := by
  rw [permOf_eq_routeMap]
  exact routeMap_lt c false hx

theorem permOf_injective (m : Nat) (c : Nat → Bool) : Function.Injective (permOf m c) := by
  rw [funext (permOf_eq_routeMap m c)]
  exact routeMap_injective m c false

/-- The permutation of a control-bit string depends on its `CBITS` bits alone. -/
theorem permOf_congr {m x : Nat} {c d : Nat → Bool} (h : ∀ q < (2 * m - 1) * 2 ^ (m - 1), c q = d q) (hx : x < 2 ^ m) :
    permOf m c x = permOf m d x := by
  rw [permOf_eq_routeMap, permOf_eq_routeMap]
  exact roundsMap_congr h (fun _ => lt_of_mem_roundOrder) hx

end Sys2Proof.Machine
end

section
/-! PROOFS. The statements about the network itself (42_benes.md R140 to R145). -/

namespace Sys2Proof.Machine

/-- Settles O36, from the two positions of a switch as neighbours of a sub-network. -/
theorem switchesPartitionThePositions : Obligations.SwitchesPartitionThePositions := by
  intro m l hl
  refine ⟨fun k hk => ⟨hiPos_lt hl hk, testBit_loPos l k, hiPos_eq_xor l k, swidx_loPos l k, ?_⟩, fun x hx =>
    ⟨swidx_lt hl hx, eq_position_of_swidx l x⟩⟩
  rw [hiPos_eq_xor, swidx_xor, swidx_loPos]

/-- Settles O37: both positions of a switch are in that switch, and each is the other with bit `l` turned. -/
theorem switchExchangesItsPositions : Obligations.SwitchExchangesItsPositions := by
  intro α m c a r k _ _ _
  show routeRound m c a r (loPos (level m r) k) =
      (if c (ctrlBit m r k) then a (hiPos (level m r) k) else a (loPos (level m r) k)) ∧
    routeRound m c a r (hiPos (level m r) k) =
      (if c (ctrlBit m r k) then a (loPos (level m r) k) else a (hiPos (level m r) k))
  rw [hiPos_eq_xor, routeRound, swidx_loPos, routeRound, swidx_xor, swidx_loPos, xor_two_pow_xor_two_pow]
  exact ⟨rfl, rfl⟩

/-- Settles O38: a route moves items along `routeMap`, and the two directions' maps undo each other. -/
theorem routingIsThePermutationOfItsBits : Obligations.RoutingIsThePermutationOfItsBits := by
  intro α m c a _
  refine ⟨fun i => ?_, fun i => ?_, fun i => ?_, fun i => ?_, fun i hi => permOf_lt c hi, fun i j hij =>
    permOf_injective m c hij⟩
  · rw [route_apply, permOf_eq_routeMap]
  · rw [route_apply, permOf_eq_routeMap]
    exact congrArg a (routeMap_not_routeMap m c false i)
  · rw [route_apply, route_apply]
    exact congrArg a (routeMap_routeMap_not m c false i)
  · rw [route_apply, route_apply]
    exact congrArg a (routeMap_not_routeMap m c false i)

end Sys2Proof.Machine
end

section
/-! SUPPORT. Bit-planes, control bits and support entries as the three commands of the network write and read them
(42_benes.md R146, R149, R153; 10_state.md R30, R31). -/

namespace Sys2Proof.Machine

theorem Inv.wfB {s : State} (h : Inv s) (b : BBuf) : (s.getB b).wf = true := by
  obtain ⟨hwf, -⟩ := h.bytes b
  exact hwf

/-! ### Bit-planes (10_state.md R31) -/

/-- The byte that holds bit `i` of plane `j` is one of the `PLTOTAL` bytes. -/
theorem planeByte_lt {c : Build} {j i : Nat} (hj : j < c.m) (hi : i < 8 * c.plBytes) :
    j * c.plBytes + i / 8 < c.plTotal := by
  have : (j + 1) * c.plBytes ≤ c.plTotal := Nat.mul_le_mul_right _ hj
  rw [Nat.succ_mul] at this
  omega

theorem getLsbD_packPlane {c : Build} (f : Nat → Nat → Bool) (pad : Nat → Byte) {i : Nat} (j : Nat)
    (hi : i < 8 * c.plBytes) :
    (packPlane c f pad (j * c.plBytes + i / 8)).getLsbD (i % 8) =
      if i < c.q then f j i else (pad (j * c.plBytes + i / 8)).getLsbD (i % 8) := by
  have hbyte : i / 8 < c.plBytes := by omega
  have hplane : (j * c.plBytes + i / 8) / c.plBytes = j := by
    rw [Nat.mul_comm, Nat.mul_add_div (by omega), Nat.div_eq_of_lt hbyte, Nat.add_zero]
  have hplace : (j * c.plBytes + i / 8) % c.plBytes = i / 8 := by
    rw [Nat.mul_comm, Nat.mul_add_mod, Nat.mod_eq_of_lt hbyte]
  have hbit : 8 * (i / 8) + i % 8 = i := Nat.div_add_mod i 8
  simp only [packPlane, hplane, hplace, getLsbD_byteOfBits, hbit]
  rw [decide_eq_true (Nat.mod_lt i (by norm_num)), Bool.true_and]

/-- What a plane holds once its bytes were written. -/
theorem plane_of_packed {s t : State} {f : Nat → Nat → Bool} {pad : Nat → Byte} (hbuild : t.build = s.build)
    (hread : ∀ k < s.build.plTotal, t.readB .pl k = packPlane s.build f pad k) {j i : Nat} (hj : j < s.build.m)
    (hi : i < 8 * s.build.plBytes) :
    t.plane j i = if i < s.build.q then f j i else (pad (j * s.build.plBytes + i / 8)).getLsbD (i % 8) := by
  rw [State.plane, hbuild, hread _ (planeByte_lt hj hi), getLsbD_packPlane f pad j hi]

/-- The positions of a plane fit its bytes. -/
theorem q_le_bits (c : Build) : c.q ≤ 8 * c.plBytes := by
  rw [Build.plBytes]
  omega

/-- The planes, pad bits with them, decide the bytes. -/
theorem readB_pl_of_planes {s t : State} (hbuild : t.build = s.build)
    (h : ∀ j < s.build.m, ∀ i < 8 * s.build.plBytes, t.plane j i = s.plane j i) {k : Nat} (hk : k < s.build.plTotal) :
    t.readB .pl k = s.readB .pl k := by
  have hpos : 0 < s.build.plBytes := Nat.pos_of_ne_zero fun h0 => by simp [Build.plTotal, h0] at hk
  have hplace := Nat.mod_lt k hpos
  apply BitVec.eq_of_getLsbD_eq
  intro b hb
  have hbit := h (k / s.build.plBytes) ((Nat.div_lt_iff_lt_mul hpos).2 hk) (8 * (k % s.build.plBytes) + b) (by omega)
  rw [State.plane, State.plane, hbuild, show (8 * (k % s.build.plBytes) + b) / 8 = k % s.build.plBytes by omega,
    show (8 * (k % s.build.plBytes) + b) % 8 = b by omega, Nat.mul_comm, Nat.div_add_mod] at hbit
  exact hbit

/-! ### Control bits (10_state.md R30) -/

theorem getLsbD_packCtrl (c : Build) (f : Nat → Bool) (k : Nat) :
    (packCtrl c f (k / 8)).getLsbD (k % 8) = (decide (k < c.cbits) && f k) := by
  rw [packCtrl, getLsbD_byteOfBits, decide_eq_true (Nat.mod_lt k (by norm_num)), Bool.true_and, Nat.div_add_mod]

theorem cbits_le_bits (c : Build) : c.cbits ≤ 8 * c.cbytes := by
  rw [Build.cbytes]
  omega

/-! ### A byte buffer replaced twice -/

theorem setB_setB (s : State) (b : BBuf) (mem mem' : Memory 8) : (s.setB b mem).setB b mem' = s.setB b mem' := by
  cases b <;> rfl

theorem setB_getB (s : State) (b : BBuf) : s.setB b (s.getB b) = s := by cases b <;> rfl

/-- A byte buffer filled twice that reads as before: the state is the old one, as data. -/
theorem fillB_fillB_eq_self {s : State} {b : BBuf} (hwf : (s.getB b).wf = true) {n : Nat} {f g : Nat → Byte}
    (h : ∀ k < n, ((s.fillB b n f).fillB b n g).readB b k = s.readB b k) : (s.fillB b n f).fillB b n g = s := by
  have hg : ∀ k < n, g k = s.readB b k := by
    intro k hk
    have hwf' : ((s.fillB b n f).getB b).wf = true := by
      rw [State.fillB, getB_setB, if_pos rfl]
      exact Memory.wf_fill hwf n f
    rw [← h k hk, readB_fillB hwf', if_pos ⟨rfl, hk⟩]
  have hmem : ((s.getB b).fill n f).fill n g = s.getB b := by
    refine Memory.ext_read (Memory.wf_fill (Memory.wf_fill hwf n f) n g) hwf fun k => ?_
    rw [Memory.read_fill (Memory.wf_fill hwf n f), Memory.read_fill hwf]
    split
    · next hk => exact hg k hk
    · rfl
  rw [State.fillB, State.fillB, setB_setB, getB_setB, if_pos rfl, hmem, setB_getB]

/-! ### BN.APPLY (R147) -/

theorem exec_bnApply {s : State} (rev : Bool) (hcb : (s.getLen (.byte .cb)).toNat = s.build.cbytes)
    (hpl : (s.getLen (.byte .pl)).toNat = s.build.plTotal) :
    exec (.bnApply rev) s = .next (effect (.bnApply rev) s) := by
  show execBnApply rev s = _
  rw [execBnApply, needFilled_pos (by exact hcb), needFilled_pos (by exact hpl), effect]

theorem exec_bnApply_fault {s : State} (rev : Bool)
    (h : (s.getLen (.byte .cb)).toNat ≠ s.build.cbytes ∨ (s.getLen (.byte .pl)).toNat ≠ s.build.plTotal) :
    exec (.bnApply rev) s = .next (s.takeFault .precond (encode (.bnApply rev))) := by
  show execBnApply rev s = _
  rw [execBnApply]
  by_cases hcb : (s.getLen (.byte .cb)).toNat = s.build.cbytes
  · have hpl := h.resolve_left (not_not_intro hcb)
    rw [needFilled_pos (by exact hcb), needFilled_neg (by exact hpl)]
  · rw [needFilled_neg (by exact hcb)]

section
variable {s : State} (hwf : ∀ b, (s.getB b).wf = true)
include hwf

/-- BN.APPLY routes the positions of every plane and keeps its pad bits. -/
theorem plane_bnApply (rev : Bool) {j i : Nat} (hj : j < s.build.m) (hi : i < 8 * s.build.plBytes) :
    (effect (.bnApply rev) s).plane j i =
      if i < s.build.q then s.plane j (routeMap s.build.m s.ctrl rev i) else s.plane j i := by
  have hread : ∀ k < s.build.plTotal, (effect (.bnApply rev) s).readB .pl k =
      packPlane s.build (s.routedPlanes rev) (s.readB .pl) k := by
    intro k hk
    rw [effect, readB_fillB (hwf .pl), if_pos ⟨rfl, hk⟩]
  rw [plane_of_packed (by simp [effect]) hread hj hi, State.routedPlanes, route_apply]
  rfl

theorem ctrl_bnApply (rev : Bool) : (effect (.bnApply rev) s).ctrl = s.ctrl := by
  funext q
  rw [State.ctrl, effect_readB hwf (by simp [storesB]), State.ctrl]

/-- BN.APPLY in the other direction brings every plane back. -/
theorem plane_bnApply_bnApply (rev : Bool) {j i : Nat} (hj : j < s.build.m) (hi : i < 8 * s.build.plBytes) :
    (effect (.bnApply (!rev)) (effect (.bnApply rev) s)).plane j i = s.plane j i := by
  have hwf' : ∀ b, ((effect (.bnApply rev) s).getB b).wf = true := by
    intro b
    rw [effect, State.fillB, getB_setB]
    split
    · exact Memory.wf_fill (hwf .pl) _ _
    · exact hwf b
  have hbuild : (effect (.bnApply rev) s).build = s.build := by simp [effect]
  rw [plane_bnApply hwf' _ (by rwa [hbuild]) (by rwa [hbuild]), hbuild, ctrl_bnApply hwf]
  split
  · next hq =>
    have hq' : routeMap s.build.m s.ctrl (!rev) i < s.build.q := routeMap_lt _ _ hq
    rw [plane_bnApply hwf rev hj (lt_of_lt_of_le hq' (q_le_bits _)), if_pos hq', routeMap_routeMap_not]
  · next hq => rw [plane_bnApply hwf rev hj hi, if_neg hq]

end

/-! ### BN.SUP (R153, R154) -/

theorem exec_bnSup {s : State} (hcb : (s.getLen (.byte .cb)).toNat = s.build.cbytes) :
    exec .bnSup s = .next (effect .bnSup s) := needFilled_pos (b := .byte .cb) hcb _ _

/-- The element the network brings to position `i` when position `x` holds `bitrev(x)`. -/
def State.routedPoint (s : State) (i : Nat) : Elem := bitrev s.build.m (BitVec.ofNat 16 (permOf s.build.m s.ctrl i))

theorem supportPlanes_eq (s : State) (j i : Nat) : s.supportPlanes j i = (s.routedPoint i).getLsbD j := by
  rw [State.supportPlanes, route_apply, ← permOf_eq_routeMap, indexPlane, State.routedPoint]

/-- Reassembling the planes gives the element (R153). -/
theorem supportEntry_eq {s : State} (hm : s.build.m ≤ 16) (i : Nat) : s.supportEntry i = s.routedPoint i := by
  apply BitVec.eq_of_getLsbD_eq
  intro j hj
  rw [State.supportEntry, getLsbD_vecOfBits, supportPlanes_eq, State.routedPoint, getLsbD_bitrev hm]
  by_cases h : j < s.build.m <;> simp [h, hj]

/-- The elements at distinct positions are distinct (R154). -/
theorem routedPoint_injective {s : State} (hm : s.build.m ≤ 16) {i j : Nat} (hi : i < s.build.q) (hj : j < s.build.q)
    (h : s.routedPoint i = s.routedPoint j) : i = j := by
  have hlt : ∀ {x}, x < s.build.q → (BitVec.ofNat 16 (permOf s.build.m s.ctrl x)).toNat = permOf s.build.m s.ctrl x :=
    fun hx => Nat.mod_eq_of_lt (lt_of_lt_of_le (permOf_lt _ hx) (Nat.pow_le_pow_right (by norm_num) hm))
  have hrev := congrArg (bitrev s.build.m) h
  rw [State.routedPoint, State.routedPoint, bitrev_bitrev hm (by rw [hlt hi]; exact permOf_lt _ hi),
    bitrev_bitrev hm (by rw [hlt hj]; exact permOf_lt _ hj)] at hrev
  apply permOf_injective s.build.m s.ctrl
  rw [← hlt hi, ← hlt hj, hrev]

theorem readE_bnSup {s : State} (hinv : Inv s) {i : Nat} (hi : i < s.build.n) :
    (effect .bnSup s).readE .sup i = s.routedPoint i := by
  obtain ⟨⟨-, h16⟩, -⟩ := (valid_iff _).1 hinv.valid
  obtain ⟨hwf, -, -⟩ := hinv.elems .sup
  rw [effect, readE_declareFull, readE_fillE (by simpa using hwf), if_pos ⟨rfl, hi⟩, supportEntry_eq h16]

theorem plane_bnSup {s : State} (hwf : (s.getB .pl).wf = true) {j i : Nat} (hj : j < s.build.m)
    (hi : i < 8 * s.build.plBytes) :
    (effect .bnSup s).plane j i = (decide (i < s.build.q) && (s.routedPoint i).getLsbD j) := by
  have hread : ∀ k < s.build.plTotal, (effect .bnSup s).readB .pl k =
      packPlane s.build s.supportPlanes (fun _ => 0) k := by
    intro k hk
    rw [effect, readB_declareFull, readB_fillE, readB_declareFull, readB_fillB hwf, if_pos ⟨rfl, hk⟩]
  rw [plane_of_packed (by simp [effect]) hread hj hi, supportPlanes_eq]
  by_cases hq : i < s.build.q <;> simp [hq]

theorem getLen_bnSup {s : State} (hv : s.build.valid = true) :
    ((effect .bnSup s).getLen (.byte .pl)).toNat = s.build.plTotal ∧
      ((effect .bnSup s).getLen (.elem .sup)).toNat = s.build.n := by
  rw [effect]
  constructor
  · rw [getLen_declareFull_of_ne _ (by decide), getLen_fillE, getLen_declareFull_self (by simpa using hv), fillB_build]
    rfl
  · rw [getLen_declareFull_self (by simpa using hv)]
    simp [cap, capE]

/-! ### BN.ENC (R149, R152) -/

theorem getE_draws (s : State) (n : Nat) (b : EBuf) : State.getE { s with draws := n } b = s.getE b := by
  cases b <;> rfl

theorem getB_draws (s : State) (n : Nat) (b : BBuf) : State.getB { s with draws := n } b = s.getB b := by
  cases b <;> rfl

theorem exec_bnEnc {s : State} (hperm : (s.getLen (.elem .perm)).toNat = s.build.q) :
    exec .bnEnc s = .next (effect .bnEnc s) := needFilled_pos (b := .elem .perm) hperm _ _

theorem ctrl_bnEnc {s : State} (hwf : (s.getB .cb).wf = true) {k : Nat} (hk : k < 8 * s.build.cbytes) :
    (effect .bnEnc s).ctrl k = (decide (k < s.build.cbits) && s.encBits k) := by
  rw [State.ctrl, effect, readB_draws, readB_declareFull, readB_fillB hwf, if_pos ⟨rfl, by omega⟩, getLsbD_packCtrl]

theorem getLen_bnEnc {s : State} (hv : s.build.valid = true) :
    ((effect .bnEnc s).getLen (.byte .cb)).toNat = s.build.cbytes := by
  rw [effect, getLen_draws, getLen_declareFull_self (by simpa using hv), fillB_build]
  rfl

/-- Under the invariant a `PERM` without repeated entries holds a bijection (10_state.md R28). -/
theorem isBijection_permList {s : State} (hinv : Inv s)
    (hinj : ∀ i j, i < s.build.q → j < s.build.q → s.readE .perm i = s.readE .perm j → i = j) :
    isBijection s.build s.permList = true := by
  rw [isBijection, Bool.and_eq_true, List.all_eq_true, decide_eq_true_eq]
  constructor
  · intro x hx
    obtain ⟨i, -, rfl⟩ := List.mem_map.1 hx
    exact decide_eq_true (hinv.readE_lt .perm i)
  · exact List.nodup_range.map_on fun i hi j hj => hinj i j (List.mem_range.1 hi) (List.mem_range.1 hj)

theorem ctrl_bnEnc_of_bijection {s : State} (hinv : Inv s)
    (hinj : ∀ i j, i < s.build.q → j < s.build.q → s.readE .perm i = s.readE .perm j → i = j) {k : Nat}
    (hk : k < s.build.cbits) : (effect .bnEnc s).ctrl k = enc s.build s.permList k := by
  rw [ctrl_bnEnc (hinv.wfB .cb) (lt_of_lt_of_le hk (cbits_le_bits _)), decide_eq_true hk, Bool.true_and, State.encBits,
    if_pos (isBijection_permList hinv hinj)]

theorem permList_getD {s : State} {i : Nat} (hi : i < s.build.q) : s.permList.getD i 0 = s.readE .perm i := by
  rw [State.permList, List.getD_eq_getElem _ _ (by simpa using hi)]
  simp

end Sys2Proof.Machine
end

section
/-! PROOFS. The statements about the commands of the network (42_benes.md R147 to R155). -/

namespace Sys2Proof.Machine

/-- Settles O39, from the routing of one plane and the frame of the command. -/
theorem bnApplyRoutesThePlanes : Obligations.BnApplyRoutesThePlanes := by
  intro rev s hinv
  refine ⟨fun hcb hpl => ?_, exec_bnApply_fault rev⟩
  have hwf := hinv.wfB
  refine ⟨_, exec_bnApply rev hcb hpl, fun j i hj hi => ?_, fun j i hj hq hi => ?_, fun b k hbk => ?_, fun b => ?_,
    by simp [effect], by simp [effect], by simp [effect], by simp [effect], by simp [effect], by simp [effect],
    by simp [effect]⟩
  · rw [plane_bnApply hwf rev hj (lt_of_lt_of_le hi (q_le_bits _)), if_pos hi, route_apply]
  · rw [plane_bnApply hwf rev hj hi, if_neg (by omega)]
  · refine effect_readB hwf ?_
    rcases hbk with hb | hk
    · simp [storesB, hb]
    · simp [storesB, hk]
  · rw [effect, getE_fillB]

/-- Settles O40: the second command fills `PL` with the bytes it held before the first. -/
theorem bnApplyRoundTripRestoresTheState : Obligations.BnApplyRoundTripRestoresTheState := by
  intro rev s hinv hcb hpl
  have hwf := hinv.wfB
  have hbuild : (effect (.bnApply rev) s).build = s.build := by simp [effect]
  have hback : effect (.bnApply (!rev)) (effect (.bnApply rev) s) = s := by
    rw [effect, hbuild]
    refine fillB_fillB_eq_self (hwf .pl) fun k hk => ?_
    have hbytes := readB_pl_of_planes (t := effect (.bnApply (!rev)) (effect (.bnApply rev) s)) (by simp [effect])
      (fun j hj i hi => plane_bnApply_bnApply hwf rev hj hi) hk
    rwa [effect, hbuild] at hbytes
  refine ⟨_, exec_bnApply rev hcb hpl, ?_⟩
  rw [exec_bnApply (!rev) (by simpa [effect] using hcb) (by simpa [effect] using hpl), hback]

/-- Settles O41: every entry and every plane is read off the element routed to its position. -/
theorem bnSupWritesTheSupport : Obligations.BnSupWritesTheSupport := by
  intro s hinv
  refine ⟨fun hcb => ?_, fun hcb => needFilled_neg (b := .byte .cb) hcb _ _⟩
  obtain ⟨⟨-, h16⟩, -, -, ⟨-, hn⟩, -⟩ := (valid_iff _).1 hinv.valid
  obtain ⟨hpl, hsup⟩ := getLen_bnSup hinv.valid
  refine ⟨_, exec_bnSup hcb, fun i hi => readE_bnSup hinv hi, fun i j hi hj hij => ?_, fun j i hj hi =>
    plane_bnSup (hinv.wfB .pl) hj hi, hpl, hsup, fun b h1 h2 => effect_getLen (by simp [setsLen, h1, h2]),
    fun b hb => ?_, fun b hb => ?_, by simp [effect], by simp [effect], by simp [effect], by simp [effect],
    by simp [effect], by simp [effect]⟩
  · rw [readE_bnSup hinv hi, readE_bnSup hinv hj] at hij
    exact routedPoint_injective h16 (lt_of_lt_of_le hi hn) (lt_of_lt_of_le hj hn) hij
  · rw [effect, getE_declareFull, State.fillE, getE_setE, if_neg hb, getE_declareFull, getE_fillB]
  · rw [effect, getB_declareFull, getB_fillE, getB_declareFull, State.fillB, getB_setB, if_neg hb]

/-- Settles O42, from the bits BN.ENC packs and the frame of the command. -/
theorem bnEncWritesTheControlBits : Obligations.BnEncWritesTheControlBits := by
  intro s hinv
  refine ⟨fun hperm => ?_, fun hperm => needFilled_neg (b := .elem .perm) hperm _ _⟩
  refine ⟨_, exec_bnEnc hperm, fun hinj k hk => ctrl_bnEnc_of_bijection hinv hinj hk, fun k hk hk8 => ?_,
    getLen_bnEnc hinv.valid, fun b hb => effect_getLen (by simp [setsLen, hb]), fun b hb => ?_, fun b => ?_,
    by simp [effect], by simp [effect], by simp [effect], by simp [effect], by simp [effect], by simp [effect]⟩
  · rw [ctrl_bnEnc (hinv.wfB .cb) hk8, decide_eq_false (by omega), Bool.false_and]
  · rw [effect, getB_draws, getB_declareFull, State.fillB, getB_setB, if_neg hb]
  · rw [effect, getE_draws, getE_declareFull, getE_fillB]

/-- Settles O44: BN.SUP reads the permutation of the control bits BN.ENC left, and no other bit of `CB` matters to
it. -/
theorem encodeThenSupportReproducesThePermutation : Obligations.EncodeThenSupportReproducesThePermutation := by
  intro s hinv hperm hinj henc
  have hinv' : Inv (effect .bnEnc s) := hinv.exec (exec_bnEnc hperm)
  obtain ⟨-, -, -, ⟨-, hn⟩, -⟩ := (valid_iff _).1 hinv.valid
  have hbuild : (effect .bnEnc s).build = s.build := by simp [effect]
  refine ⟨_, _, exec_bnEnc hperm, exec_bnSup (by rw [getLen_bnEnc hinv.valid, hbuild]), fun i hi => ?_⟩
  have hq : i < s.build.q := lt_of_lt_of_le hi hn
  have hpi : permOf s.build.m (effect .bnEnc s).ctrl i = (s.readE .perm i).toNat := by
    rw [permOf_congr (fun k hk => ctrl_bnEnc_of_bijection hinv hinj hk) hq, henc i hq, permList_getD hq]
  rw [readE_bnSup hinv' (by rwa [hbuild]), State.routedPoint, hbuild, hpi, BitVec.ofNat_toNat, BitVec.setWidth_eq]

end Sys2Proof.Machine
end

section
/-! SUPPORT. The side assignment of the pinned encoder (42_benes.md R151): each loop that is walked leaves every pair of
outputs and every pair of inputs divided between the two halves. -/

namespace Sys2Proof.Machine

/-! ### A permutation as a list of numbers -/

/-- `k` distinct numbers below `k` are the numbers below `k`. -/
theorem perm_range_of_nodup {k : Nat} {q : List Nat} (hlen : q.length = k) (hlt : ∀ x ∈ q, x < k) (hnd : q.Nodup) :
    q.Perm (List.range k) :=
  (hnd.subperm fun x hx => List.mem_range.2 (hlt x hx)).perm_of_length_le (by simp [hlen])

/-- The output that takes the source of `u`'s switch partner at the input side (R151: `v`). -/
def mate (q : List Nat) (u : Nat) : Nat := q.idxOf (q.getD u 0 ^^^ 1)

theorem nextOutput_eq (q : List Nat) (u : Nat) : nextOutput q u = mate q u ^^^ 1 := rfl

section
variable {k : Nat} {q : List Nat} (hq : q.Perm (List.range k))
include hq

theorem perm_getD_lt {u : Nat} (hu : u < k) : q.getD u 0 < k := by
  have hlen : u < q.length := by simpa [hq.length_eq] using hu
  rw [List.getD_eq_getElem _ _ hlen]
  exact List.mem_range.1 (hq.mem_iff.1 (List.getElem_mem hlen))

theorem perm_getD_inj {u v : Nat} (hu : u < k) (hv : v < k) : q.getD u 0 = q.getD v 0 ↔ u = v := by
  have hlen : q.length = k := by simp [hq.length_eq]
  rw [List.getD_eq_getElem _ _ (by omega), List.getD_eq_getElem _ _ (by omega)]
  exact (hq.nodup_iff.2 List.nodup_range).getElem_inj_iff

variable (hk : k % 2 = 0) {u : Nat} (hu : u < k)
include hk hu

theorem mate_lt : mate q u < k := by
  have hmem := hq.mem_iff.2 (List.mem_range.2 (xor_one_lt hk (perm_getD_lt hq hu)))
  have hlt := List.idxOf_lt_length_of_mem hmem
  rwa [hq.length_eq, List.length_range] at hlt

theorem getD_mate : q.getD (mate q u) 0 = q.getD u 0 ^^^ 1 := by
  have hmem := hq.mem_iff.2 (List.mem_range.2 (xor_one_lt hk (perm_getD_lt hq hu)))
  have hlen := List.idxOf_lt_length_of_mem hmem
  rw [mate, List.getD_eq_getElem _ _ hlen, List.getElem_idxOf]

theorem mate_mate : mate q (mate q u) = u := by
  have hv := mate_lt hq hk hu
  rw [← perm_getD_inj hq (mate_lt hq hk hv) hu, getD_mate hq hk hv, getD_mate hq hk hu, xor_one_xor_one]

theorem mate_ne : mate q u ≠ u := by
  rw [Ne, ← perm_getD_inj hq (mate_lt hq hk hu) hu, getD_mate hq hk hu]
  exact xor_one_ne _

end

/-! ### Reading and writing an assignment -/

/-- The side of output `u`. -/
def Sides.out (sd : Sides) (u : Nat) : Option Bool := sd.outs.getD u none

/-- The side of input `w`. -/
def Sides.inp (sd : Sides) (w : Nat) : Option Bool := sd.ins.getD w none

theorem getD_set {α : Type} {l : List α} {i : Nat} (hi : i < l.length) (a d : α) (j : Nat) :
    (l.set i a).getD j d = if j = i then a else l.getD j d := by
  by_cases h : j = i
  · simp [h, hi]
  · simp [h, List.getElem?_set_ne (Ne.symm h)]

/-- One entry for each of the `k` inputs and outputs. -/
def Sides.Sized (k : Nat) (sd : Sides) : Prop := sd.ins.length = k ∧ sd.outs.length = k

section
variable {k : Nat} {q : List Nat} (hq : q.Perm (List.range k)) (hk : k % 2 = 0)
include hq hk

theorem out_assignPair {sd : Sides} (hs : sd.Sized k) {u : Nat} (hu : u < k) (v : Nat) :
    (assignPair q u sd).out v = if v = mate q u then some true else if v = u then some false else sd.out v := by
  obtain ⟨-, hout⟩ := hs
  have hmate := mate_lt hq hk hu
  show ((sd.outs.set u (some false)).set (mate q u) (some true)).getD v none = _
  rw [getD_set (by simpa [hout] using hmate), getD_set (by omega), Sides.out]

theorem inp_assignPair {sd : Sides} (hs : sd.Sized k) {u : Nat} (hu : u < k) (w : Nat) :
    (assignPair q u sd).inp w =
      if w = q.getD u 0 ^^^ 1 then some true else if w = q.getD u 0 then some false else sd.inp w := by
  obtain ⟨hin, -⟩ := hs
  have hsrc := perm_getD_lt hq hu
  have hpartner := xor_one_lt hk hsrc
  show ((sd.ins.set (q.getD u 0) (some false)).set (q.getD u 0 ^^^ 1) (some true)).getD w none = _
  rw [getD_set (by simpa [hin] using hpartner), getD_set (by omega), Sides.inp]

end

theorem Sides.Sized.assignPair {k : Nat} {sd : Sides} (hs : sd.Sized k) (q : List Nat) (u : Nat) :
    (assignPair q u sd).Sized k := by
  obtain ⟨hin, hout⟩ := hs
  exact ⟨by simp [Machine.assignPair, hin], by simp [Machine.assignPair, hout]⟩

/-! ### What every turn keeps -/

/-- Switch partners at the input side are on opposite sides, and an output is on the side of its source. -/
structure Sides.Linked (k : Nat) (q : List Nat) (sd : Sides) : Prop where
  sized : sd.Sized k
  out_mate : ∀ v < k, sd.out (mate q v) = (sd.out v).map not
  inp_source : ∀ v < k, sd.inp (q.getD v 0) = sd.out v

/-- Every output that has a side has its switch partner on the other side. -/
def Sides.Paired (k : Nat) (sd : Sides) : Prop := ∀ v < k, ∀ h, sd.out v = some h → sd.out (v ^^^ 1) = some (!h)

/-- The walk of the loop from `start` has come to output `u`: `u` has no side yet, and the partners of `start` and of
`u` are the only outputs whose pair is still open. -/
structure Sides.Walking (k start u : Nat) (sd : Sides) : Prop where
  open_here : sd.out u = none
  open_start : sd.out (start ^^^ 1) = none
  paired : ∀ v < k, v ≠ start → v ≠ u ^^^ 1 → ∀ h, sd.out v = some h → sd.out (v ^^^ 1) = some (!h)
  ends : u ≠ start → sd.out (u ^^^ 1) = some true ∧ sd.out start = some false

section
variable {k : Nat} {q : List Nat} (hq : q.Perm (List.range k)) (hk : k % 2 = 0)
include hq hk

theorem Sides.Linked.assignPair {sd : Sides} (hl : sd.Linked k q) {u : Nat} (hu : u < k) :
    (assignPair q u sd).Linked k q := by
  have hmate := mate_lt hq hk hu
  refine ⟨hl.sized.assignPair q u, fun v hv => ?_, fun v hv => ?_⟩
  · rw [out_assignPair hq hk hl.sized hu, out_assignPair hq hk hl.sized hu]
    by_cases h1 : v = u
    · simp [h1, (mate_ne hq hk hu).symm]
    by_cases h2 : v = mate q u
    · simp [h2, mate_mate hq hk hu, (mate_ne hq hk hu).symm]
    · have h3 : mate q v ≠ mate q u := fun h => h1 (by rw [← mate_mate hq hk hv, h, mate_mate hq hk hu])
      have h4 : mate q v ≠ u := fun h => h2 (by rw [← h, mate_mate hq hk hv])
      simp only [h1, h2, h3, h4, if_false]
      exact hl.out_mate v hv
  · rw [out_assignPair hq hk hl.sized hu, inp_assignPair hq hk hl.sized hu, ← getD_mate hq hk hu]
    simp only [perm_getD_inj hq hv hmate, perm_getD_inj hq hv hu, hl.inp_source v hv]

omit hq hk in
theorem Sides.Linked.out_mate_none {sd : Sides} (hl : sd.Linked k q) {u : Nat} (hu : u < k) (h : sd.out u = none) :
    sd.out (mate q u) = none := by
  rw [hl.out_mate u hu, h, Option.map_none]

/-! ### One turn of the walk -/

section
variable {start u : Nat} {sd : Sides} (hl : sd.Linked k q) (hw : sd.Walking k start u) (hu : u < k)
include hl hw hu

theorem out_turn_start : (assignPair q u sd).out start = some false := by
  have hnone := hl.out_mate_none hu hw.open_here
  rw [out_assignPair hq hk hl.sized hu]
  by_cases h : u = start
  · rw [← h, if_neg (mate_ne hq hk hu).symm, if_pos rfl]
  · obtain ⟨-, hstart⟩ := hw.ends h
    rw [if_neg (fun he => by rw [he, hnone] at hstart; cases hstart), if_neg (Ne.symm h), hstart]

omit hw in
theorem out_turn_mate : (assignPair q u sd).out (mate q u) = some true := by
  rw [out_assignPair hq hk hl.sized hu, if_pos rfl]

/-- After a turn only `start` and `mate u` can be in an open pair. -/
theorem paired_turn {v : Nat} (hv : v < k) (h1 : v ≠ start) (h2 : v ≠ mate q u) {h : Bool}
    (hout : (assignPair q u sd).out v = some h) : (assignPair q u sd).out (v ^^^ 1) = some (!h) := by
  have hnone := hl.out_mate_none hu hw.open_here
  have keeps : ∀ x b, sd.out x = some b → (assignPair q u sd).out x = some b := by
    intro x b hx
    rw [out_assignPair hq hk hl.sized hu, if_neg (fun he => by rw [he, hnone] at hx; cases hx),
      if_neg (fun he => by rw [he, hw.open_here] at hx; cases hx), hx]
  rw [out_assignPair hq hk hl.sized hu, if_neg h2] at hout
  by_cases hvu : v = u
  · rw [if_pos hvu] at hout
    cases hout
    obtain ⟨hpartner, -⟩ := hw.ends (hvu ▸ h1)
    rw [hvu]
    exact keeps _ _ hpartner
  rw [if_neg hvu] at hout
  by_cases hvp : v = u ^^^ 1
  · have hne : u ≠ start := fun he => by rw [hvp, he, hw.open_start] at hout; cases hout
    obtain ⟨hpartner, -⟩ := hw.ends hne
    rw [hvp, hpartner] at hout
    cases hout
    rw [hvp, xor_one_xor_one, out_assignPair hq hk hl.sized hu, if_neg (mate_ne hq hk hu).symm, if_pos rfl]
    rfl
  · exact keeps _ _ (hw.paired v hv h1 hvp h hout)

/-- The turn that comes back to `start` closes the last open pair. -/
theorem paired_of_closing_turn (hnext : nextOutput q u = start) : (assignPair q u sd).Paired k := by
  have hmate : mate q u = start ^^^ 1 := by rw [← hnext, nextOutput_eq, xor_one_xor_one]
  intro v hv h hout
  by_cases h1 : v = start
  · rw [h1, out_turn_start hq hk hl hw hu] at hout
    cases hout
    rw [h1, ← hmate]
    exact out_turn_mate hq hk hl hu
  by_cases h2 : v = mate q u
  · rw [h2, out_turn_mate hq hk hl hu] at hout
    cases hout
    rw [h2, hmate, xor_one_xor_one]
    exact out_turn_start hq hk hl hw hu
  · exact paired_turn hq hk hl hw hu hv h1 h2 hout

/-- Any other turn goes on to an output that has no side. -/
theorem Sides.Walking.turn (hnext : nextOutput q u ≠ start) :
    (assignPair q u sd).Walking k start (nextOutput q u) := by
  have hnone := hl.out_mate_none hu hw.open_here
  have hmate := mate_lt hq hk hu
  rw [nextOutput_eq] at hnext ⊢
  have hstart_ne : start ^^^ 1 ≠ mate q u := fun he => hnext (by rw [← he, xor_one_xor_one])
  have hnext_ne : mate q u ^^^ 1 ≠ u := by
    intro he
    have hpartner : u ^^^ 1 = mate q u := (congrArg (· ^^^ 1) he).symm.trans (xor_one_xor_one _)
    obtain ⟨hsome, -⟩ := hw.ends (he ▸ hnext)
    rw [hpartner, hnone] at hsome
    cases hsome
  refine ⟨?_, ?_, fun v hv h1 h2 h => ?_, fun _ => ⟨?_, out_turn_start hq hk hl hw hu⟩⟩
  · rw [out_assignPair hq hk hl.sized hu, if_neg (xor_one_ne _), if_neg hnext_ne]
    by_contra hsome
    obtain ⟨h, hsome⟩ := Option.ne_none_iff_exists'.1 hsome
    have hpair := hw.paired _ (xor_one_lt hk hmate) hnext
      (fun he => mate_ne hq hk hu (Nat.xor_left_inj.1 he)) h hsome
    rw [xor_one_xor_one, hnone] at hpair
    cases hpair
  · have hne : start ^^^ 1 ≠ u := by
      intro he
      obtain ⟨hlow, hhigh⟩ := hw.ends (he ▸ xor_one_ne start)
      rw [← he, xor_one_xor_one, hhigh] at hlow
      cases hlow
    rw [out_assignPair hq hk hl.sized hu, if_neg hstart_ne, if_neg hne, hw.open_start]
  · rw [xor_one_xor_one] at h2
    exact paired_turn hq hk hl hw hu hv h1 h2
  · rw [xor_one_xor_one]
    exact out_turn_mate hq hk hl hu

end

/-! ### The walk of one loop -/

/-- The outputs that have no side yet. -/
def Sides.unassigned (k : Nat) (sd : Sides) : Finset Nat := {v ∈ Finset.range k | sd.out v = none}

theorem unassigned_turn {sd : Sides} (hs : sd.Sized k) {u : Nat} (hu : u < k) (hopen : sd.out u = none) :
    (assignPair q u sd).unassigned k ⊂ sd.unassigned k := by
  rw [Finset.ssubset_iff_of_subset]
  · refine ⟨u, by simp [Sides.unassigned, hu, hopen], ?_⟩
    simp [Sides.unassigned, out_assignPair hq hk hs hu, (mate_ne hq hk hu).symm]
  · intro v hv
    obtain ⟨hvk, hnone⟩ := Finset.mem_filter.1 hv
    rw [out_assignPair hq hk hs hu] at hnone
    refine Finset.mem_filter.2 ⟨hvk, ?_⟩
    split_ifs at hnone
    exact hnone

/-- Walking a loop with fuel for every open output divides every pair it meets; what had a side, or got one at the first
turn, has one in the end. -/
theorem walkLoop_spec {start : Nat} (fuel : Nat) {u : Nat} {sd : Sides} (hu : u < k) (hl : sd.Linked k q)
    (hw : sd.Walking k start u) (hfuel : (sd.unassigned k).card ≤ fuel) :
    (walkLoop q start fuel u sd).Linked k q ∧ (walkLoop q start fuel u sd).Paired k ∧
      (walkLoop q start fuel u sd).unassigned k ⊆ (assignPair q u sd).unassigned k := by
  induction fuel generalizing u sd with
  | zero =>
    have hmem : u ∈ sd.unassigned k := Finset.mem_filter.2 ⟨Finset.mem_range.2 hu, hw.open_here⟩
    rw [Finset.card_eq_zero.1 (Nat.le_zero.1 hfuel)] at hmem
    cases hmem
  | succ fuel ih =>
    have hl' := hl.assignPair hq hk hu
    rw [walkLoop]
    split
    · next hnext => exact ⟨hl', paired_of_closing_turn hq hk hl hw hu hnext, subset_rfl⟩
    · next hnext =>
      have hsub := unassigned_turn hq hk hl.sized hu hw.open_here
      have hw' := hw.turn hq hk hl hu hnext
      have hu' : nextOutput q u < k := xor_one_lt hk (mate_lt hq hk hu)
      have hcard := Finset.card_lt_card hsub
      obtain ⟨hlinked, hpaired, hrest⟩ := ih hu' hl' hw' (by omega)
      exact ⟨hlinked, hpaired, hrest.trans (unassigned_turn hq hk hl'.sized hu' hw'.open_here).subset⟩

/-! ### All loops of a level -/

/-- The assignment after the loops from the first `n` even outputs. -/
def sidesAfter (k : Nat) (q : List Nat) (n : Nat) : Sides :=
  (List.range n).foldl
    (fun sd j => if sd.outs.getD (2 * j) none = none then walkLoop q (2 * j) k (2 * j) sd else sd)
    { ins := List.replicate k none, outs := List.replicate k none }

omit hq hk in
theorem assignSides_eq (k : Nat) (q : List Nat) : assignSides k q = sidesAfter k q (k / 2) := rfl

omit hq hk in
theorem sidesAfter_succ (n : Nat) : sidesAfter k q (n + 1) =
    if (sidesAfter k q n).out (2 * n) = none then walkLoop q (2 * n) k (2 * n) (sidesAfter k q n)
    else sidesAfter k q n := by
  rw [sidesAfter, List.range_succ, List.foldl_append, List.foldl_cons, List.foldl_nil]
  rfl

/-- What holds once the loops from the first `n` even outputs were walked. -/
structure Sides.AfterLoops (k : Nat) (q : List Nat) (n : Nat) (sd : Sides) : Prop where
  linked : sd.Linked k q
  paired : sd.Paired k
  assigned : ∀ j < n, 2 * j ∉ sd.unassigned k

omit hq hk in
theorem sidesAfter_zero : (sidesAfter k q 0).AfterLoops k q 0 := by
  refine ⟨⟨⟨by simp [sidesAfter], by simp [sidesAfter]⟩, fun v _ => by simp [sidesAfter, Sides.out],
    fun v _ => by simp [sidesAfter, Sides.out, Sides.inp]⟩, fun v _ h hv => ?_, by simp⟩
  simp [sidesAfter, Sides.out] at hv

/-- A loop is walked from an even output that has no side; one that has a side is passed over. -/
theorem Sides.AfterLoops.next {n : Nat} (h : (sidesAfter k q n).AfterLoops k q n) (hn : 2 * n < k) :
    (sidesAfter k q (n + 1)).AfterLoops k q (n + 1) := by
  rw [sidesAfter_succ]
  generalize sidesAfter k q n = sd at h ⊢
  split
  · next hopen =>
    have hw : sd.Walking k (2 * n) (2 * n) := by
      refine ⟨hopen, ?_, fun v hv _ _ => h.paired v hv, fun hne => absurd rfl hne⟩
      by_contra hsome
      obtain ⟨b, hsome⟩ := Option.ne_none_iff_exists'.1 hsome
      have hpartner := h.paired _ (xor_one_lt hk hn) b hsome
      rw [xor_one_xor_one, hopen] at hpartner
      cases hpartner
    have hcard : (sd.unassigned k).card ≤ k := (Finset.card_filter_le _ _).trans (Finset.card_range k).le
    obtain ⟨hlinked, hpaired, hrest⟩ := walkLoop_spec hq hk k hn h.linked hw hcard
    refine ⟨hlinked, hpaired, fun j hj hmem => ?_⟩
    have hturn := hrest hmem
    rcases Nat.lt_succ_iff_lt_or_eq.1 hj with hj | rfl
    · exact h.assigned j hj ((unassigned_turn hq hk h.linked.sized hn hw.open_here).subset hturn)
    · have hfalse := out_turn_start hq hk h.linked hw hn
      rw [(Finset.mem_filter.1 hturn).2] at hfalse
      cases hfalse
  · next hsome =>
    refine ⟨h.linked, h.paired, fun j hj hmem => ?_⟩
    rcases Nat.lt_succ_iff_lt_or_eq.1 hj with hj | rfl
    · exact h.assigned j hj hmem
    · exact hsome (Finset.mem_filter.1 hmem).2

theorem sidesAfter_afterLoops {n : Nat} (hn : n ≤ k / 2) : (sidesAfter k q n).AfterLoops k q n := by
  induction n with
  | zero => exact sidesAfter_zero
  | succ n ih => exact (ih (by omega)).next hq hk (by omega)

end

/-! ### The two halves -/

/-- Output `u` is fed by the lower half. -/
def Sides.outLow (sd : Sides) (u : Nat) : Bool := sd.out u == some true

/-- Input `w` feeds the lower half. -/
def Sides.inLow (sd : Sides) (w : Nat) : Bool := sd.inp w == some true

theorem outLow_of_out {sd : Sides} {u : Nat} {h : Bool} (hu : sd.out u = some h) : sd.outLow u = h := by
  cases h <;> simp [Sides.outLow, hu]

/-- Every output and every input has a side, switch partners have opposite sides, and an output has the side of its
source: what the looping algorithm is for (R151). -/
structure Sides.Splits (k : Nat) (q : List Nat) (sd : Sides) : Prop where
  out_eq : ∀ u < k, sd.out u = some (sd.outLow u)
  out_partner : ∀ u < k, sd.outLow (u ^^^ 1) = !sd.outLow u
  inp_partner : ∀ u < k, sd.inLow (q.getD u 0 ^^^ 1) = !sd.inLow (q.getD u 0)
  inp_source : ∀ u < k, sd.inLow (q.getD u 0) = sd.outLow u

section
variable {k : Nat} {q : List Nat} (hq : q.Perm (List.range k)) (hk : k % 2 = 0)
include hq hk

theorem assignSides_splits : (assignSides k q).Splits k q := by
  obtain ⟨hl, hp, hdone⟩ := sidesAfter_afterLoops hq hk le_rfl
  rw [assignSides_eq]
  generalize sidesAfter k q (k / 2) = sd at hl hp hdone ⊢
  have heven : ∀ j < k / 2, ∃ h, sd.out (2 * j) = some h := by
    intro j hj
    refine Option.ne_none_iff_exists'.1 fun hnone => hdone j hj ?_
    exact Finset.mem_filter.2 ⟨Finset.mem_range.2 (by omega), hnone⟩
  have hall : ∀ u < k, ∃ h, sd.out u = some h := by
    intro u hu
    obtain ⟨h, hh⟩ := heven (u / 2) (by omega)
    by_cases hu2 : u % 2 = 0
    · exact ⟨h, by rw [← hh]; congr 1; omega⟩
    · refine ⟨!h, ?_⟩
      rw [← hp _ (by omega) h hh, xor_one_eq, if_pos (by omega)]
      congr 1
      omega
  have hout : ∀ u < k, sd.out u = some (sd.outLow u) := by
    intro u hu
    obtain ⟨h, hh⟩ := hall u hu
    rw [hh, outLow_of_out hh]
  have hsource : ∀ u < k, sd.inLow (q.getD u 0) = sd.outLow u := fun u hu => by
    rw [Sides.inLow, hl.inp_source u hu, Sides.outLow]
  refine ⟨hout, fun u hu => outLow_of_out (hp u hu _ (hout u hu)), fun u hu => ?_, hsource⟩
  rw [← getD_mate hq hk hu, hsource _ (mate_lt hq hk hu), hsource u hu]
  exact outLow_of_out (by rw [hl.out_mate u hu, hout u hu, Option.map_some])

omit hq in
/-- The half that feeds output `u` has, for `u`'s pair, the pair of `u`'s source to deliver. -/
theorem halfPerm_getD {sd : Sides} (hs : sd.Splits k q) {u : Nat} (hu : u < k) :
    (halfPerm k q sd (sd.outLow u)).getD (u / 2) 0 = q.getD u 0 / 2 := by
  have hpair := hs.out_partner u hu
  have hfirst : sd.outs.getD (2 * (u / 2)) none = some (sd.outLow (2 * (u / 2))) := hs.out_eq _ (by omega)
  have hchosen : (if sd.outs.getD (2 * (u / 2)) none = some (sd.outLow u)
      then 2 * (u / 2) else 2 * (u / 2) + 1) = u := by
    rw [hfirst]
    rw [xor_one_eq] at hpair
    split at hpair
    · have : 2 * (u / 2) = u := by omega
      simp [this]
    · have : 2 * (u / 2) = u - 1 := by omega
      rw [this, hpair]
      cases sd.outLow u <;> simp <;> omega
  rw [halfPerm, List.getD_eq_getElem _ _ (by simp; omega)]
  simp only [List.getElem_map, List.getElem_range, hchosen]

omit hq in
/-- Each half feeds one output of every pair. -/
theorem exists_outLow_eq {sd : Sides} (hs : sd.Splits k q) (half : Bool) {j : Nat} (hj : j < k / 2) :
    ∃ u < k, u / 2 = j ∧ sd.outLow u = half := by
  by_cases h : sd.outLow (2 * j) = half
  · exact ⟨2 * j, by omega, by omega, h⟩
  · have hpair := hs.out_partner (2 * j) (by omega)
    rw [xor_one_eq, if_pos (by omega)] at hpair
    refine ⟨2 * j + 1, by omega, by omega, ?_⟩
    rw [hpair]
    revert h
    cases sd.outLow (2 * j) <;> cases half <;> simp

omit hk in
/-- Outputs fed by one half have their sources in different pairs. -/
theorem source_pair_inj {sd : Sides} (hs : sd.Splits k q) {u v : Nat} (hu : u < k) (hv : v < k)
    (hside : sd.outLow u = sd.outLow v) (h : q.getD u 0 / 2 = q.getD v 0 / 2) : u = v := by
  rw [← perm_getD_inj hq hu hv]
  by_contra hne
  have hpartner : q.getD v 0 = q.getD u 0 ^^^ 1 := by
    rw [xor_one_eq]
    split <;> omega
  have hopposite := hs.inp_partner u hu
  rw [← hpartner, hs.inp_source v hv, hs.inp_source u hu, hside] at hopposite
  simp at hopposite

/-- Each half is handed a permutation of its own positions. -/
theorem halfPerm_perm {sd : Sides} (hs : sd.Splits k q) (half : Bool) :
    (halfPerm k q sd half).Perm (List.range (k / 2)) := by
  have hlen : (halfPerm k q sd half).length = k / 2 := by simp [halfPerm]
  refine perm_range_of_nodup hlen (fun x hx => ?_) (List.nodup_iff_injective_getElem.2 fun i j hij => ?_)
  · obtain ⟨j, hj, rfl⟩ := List.mem_iff_getElem.1 hx
    obtain ⟨u, hu, rfl, rfl⟩ := exists_outLow_eq hk hs half (hlen ▸ hj)
    have hlt := perm_getD_lt hq hu
    rw [← List.getD_eq_getElem _ 0, halfPerm_getD hk hs hu]
    omega
  · obtain ⟨u, hu, hui, hside⟩ := exists_outLow_eq hk hs half (lt_of_lt_of_eq i.isLt hlen)
    obtain ⟨v, hv, hvj, hside'⟩ := exists_outLow_eq hk hs half (lt_of_lt_of_eq j.isLt hlen)
    have hhi := halfPerm_getD hk hs hu
    have hhj := halfPerm_getD hk hs hv
    rw [hside, hui, List.getD_eq_getElem _ _ i.isLt] at hhi
    rw [hside', hvj, List.getD_eq_getElem _ _ j.isLt] at hhj
    have huv := source_pair_inj hq hs hu hv (hside.trans hside'.symm) (by rw [← hhi, ← hhj]; exact hij)
    exact Fin.ext (by rw [← hui, ← hvj, huv])

end

end Sys2Proof.Machine
end

section
/-! SUPPORT. The control bits of the pinned encoder switch by switch (42_benes.md R143, R151): each level writes the bits
of its own two rounds and leaves every other bit to its two halves. -/

namespace Sys2Proof.Machine

/-! ### Control bits by round and switch -/

theorem ctrlBit_inj {m r r' k k' : Nat} (hk : k < 2 ^ (m - 1)) (hk' : k' < 2 ^ (m - 1)) :
    ctrlBit m r k = ctrlBit m r' k' ↔ r = r' ∧ k = k' := by
  have split_eq : ∀ {r k}, k < 2 ^ (m - 1) → ctrlBit m r k / 2 ^ (m - 1) = r ∧ ctrlBit m r k % 2 ^ (m - 1) = k := by
    intro r k hk
    rw [ctrlBit, Nat.mul_comm, Nat.mul_add_div (Nat.two_pow_pos _), Nat.mul_add_mod, Nat.div_eq_of_lt hk,
      Nat.mod_eq_of_lt hk]
    exact ⟨rfl, rfl⟩
  obtain ⟨hr, hm⟩ := split_eq (r := r) hk
  obtain ⟨hr', hm'⟩ := split_eq (r := r') hk'
  constructor
  · intro h
    exact ⟨by rw [← hr, ← hr', h], by rw [← hm, ← hm', h]⟩
  · rintro ⟨rfl, rfl⟩
    rfl

theorem testBit_orBit (acc i : Nat) (x : Bool) (b : Nat) :
    (orBit acc i x).testBit b = (acc.testBit b || (x && decide (i = b))) := by
  cases x <;> simp [orBit, Nat.testBit_or, Nat.testBit_two_pow]

theorem eq_subPos_iff {l o : Nat} (ho : o < 2 ^ l) (k x : Nat) : subPos l o x = k ↔ k % 2 ^ l = o ∧ k / 2 ^ l = x := by
  constructor
  · rintro rfl
    exact ⟨subPos_mod ho x, subPos_div ho x⟩
  · rintro ⟨h1, h2⟩
    rw [← h1, ← h2, ← eq_subPos]

/-! ### One level -/

theorem two_pow_succ_div_two (n : Nat) : 2 ^ (n + 1) / 2 = 2 ^ n := by
  rw [pow_succ, Nat.mul_div_cancel _ (by norm_num)]

theorem two_pow_succ_mod_two (n : Nat) : 2 ^ (n + 1) % 2 = 0 := by rw [pow_succ, Nat.mul_mod_left]

/-- The switches of a sub-network on `2^(j+1)` positions number `2^j`. -/
theorem subPos_lt_half {m l j o : Nat} (hm : m = l + (j + 1)) (ho : o < 2 ^ l) (y : Nat) :
    subPos l o y < 2 ^ (m - 1) ↔ y < 2 ^ j := by
  rw [subPos_lt_iff (by omega) ho, show m - 1 - l = j by omega]

/-- The pair with number `n` sets its switch in each of the level's two rounds. -/
theorem sideBits_succ {l o : Nat} (ho : o < 2 ^ l) (m n : Nat) (sd : Sides) (acc : Nat) :
    sideBits m l o (2 * (n + 1)) sd acc =
      orBit (orBit (sideBits m l o (2 * n) sd acc) (ctrlBit m l (subPos l o n)) (sd.inLow (2 * n)))
        (ctrlBit m (2 * m - 2 - l) (subPos l o n)) (sd.outLow (2 * n)) := by
  have hx : o + 2 * n * 2 ^ l = subPos l o (2 * n) := by rw [subPos]; ring
  have hswitch : swidx l (o + 2 * n * 2 ^ l) = subPos l o n := by
    rw [hx, swidx_subPos ho, Nat.mul_div_cancel_left n (by norm_num)]
  rw [sideBits, sideBits, Nat.mul_div_cancel_left _ (by norm_num), Nat.mul_div_cancel_left _ (by norm_num),
    List.range_succ, List.foldl_append, List.foldl_cons, List.foldl_nil]
  simp only [hswitch]
  rfl

/-- The first `n` pairs set, in the level's two rounds, the switches with offset `o` and number below `n` whose first
input, or output, is in the lower half. -/
theorem testBit_sideBits {m l j o k : Nat} (hm : m = l + (j + 1)) (ho : o < 2 ^ l) (hk : k < 2 ^ (m - 1)) (r : Nat)
    (sd : Sides) (acc : Nat) {n : Nat} (hn : n ≤ 2 ^ j) :
    (sideBits m l o (2 * n) sd acc).testBit (ctrlBit m r k) = (acc.testBit (ctrlBit m r k) ||
      (decide (k % 2 ^ l = o ∧ k / 2 ^ l < n) && ((decide (l = r) && sd.inLow (2 * (k / 2 ^ l))) ||
        (decide (2 * m - 2 - l = r) && sd.outLow (2 * (k / 2 ^ l)))))) := by
  induction n with
  | zero => simp [sideBits]
  | succ n ih =>
    have hpos : subPos l o n < 2 ^ (m - 1) := (subPos_lt_half hm ho n).2 hn
    rw [sideBits_succ ho, testBit_orBit, testBit_orBit, ih (by omega)]
    simp only [ctrlBit_inj hpos hk, eq_subPos_iff ho]
    by_cases hoff : k % 2 ^ l = o
    · by_cases hnum : k / 2 ^ l = n
      · simp [hoff, hnum, Bool.or_assoc, Bool.and_comm]
      · have hlt : k / 2 ^ l < n + 1 ↔ k / 2 ^ l < n := by omega
        simp [hoff, hnum, hlt]
    · simp [hoff]

/-! ### All levels -/

/-- The control bit of switch `k` of round `r` in the sub-network of level `l` on `2^j` positions that `k` belongs to,
the sub-network having `q` to realise (R151). -/
def switchBit (m : Nat) : Nat → Nat → List Nat → Nat → Nat → Bool
  | 0, _, _, _, _ => false
  | 1, _, q, _, _ => q.getD 0 0 == 1
  | j + 2, l, q, r, k =>
    if r = l then (assignSides (2 ^ (j + 2)) q).inLow (2 * (k / 2 ^ l))
    else if r = 2 * m - 2 - l then (assignSides (2 ^ (j + 2)) q).outLow (2 * (k / 2 ^ l))
    else switchBit m (j + 1) (l + 1) (halfPerm (2 ^ (j + 2)) q (assignSides (2 ^ (j + 2)) q) (k.testBit l)) r k

section
variable (m j l : Nat) (q : List Nat) (k : Nat)

/-- The first round of a sub-network holds its input switches. -/
theorem switchBit_first : switchBit m (j + 2) l q l k = (assignSides (2 ^ (j + 2)) q).inLow (2 * (k / 2 ^ l)) := by
  rw [switchBit, if_pos rfl]

variable {m j l} (hm : m = l + (j + 2))
include hm

/-- Its last round holds its output switches. -/
theorem switchBit_last :
    switchBit m (j + 2) l q (2 * m - 2 - l) k = (assignSides (2 ^ (j + 2)) q).outLow (2 * (k / 2 ^ l)) := by
  rw [switchBit, if_neg (by omega), if_pos rfl]

omit hm in
/-- The rounds between are those of its halves. -/
theorem switchBit_inner {r : Nat} (h1 : l < r) (h2 : r < 2 * m - 2 - l) : switchBit m (j + 2) l q r k =
    switchBit m (j + 1) (l + 1) (halfPerm (2 ^ (j + 2)) q (assignSides (2 ^ (j + 2)) q) (k.testBit l)) r k := by
  rw [switchBit, if_neg (by omega), if_neg (by omega)]

end

/-- The halves of a sub-network are told apart by bit `l` of their offsets. -/
theorem mod_two_pow_succ_eq {l o : Nat} (ho : o < 2 ^ l) (k : Nat) (b : Bool) :
    k % 2 ^ (l + 1) = subPos l o b.toNat ↔ k % 2 ^ l = o ∧ k.testBit l = b := by
  have hmod : k % 2 ^ (l + 1) = subPos l (k % 2 ^ l) (k / 2 ^ l % 2) := by
    rw [Nat.mod_pow_succ, subPos, Nat.add_comm]
  have hbit : k.testBit l = decide (k / 2 ^ l % 2 = 1) := Nat.testBit_eq_decide_div_mod_eq
  rw [eq_comm, eq_subPos_iff ho, hmod, subPos_mod (mod_two_pow_lt l k), subPos_div (mod_two_pow_lt l k), hbit]
  cases b <;> simp

theorem subPos_toNat_false (l o : Nat) : subPos l o false.toNat = o := by simp [subPos]

theorem subPos_toNat_true (l o : Nat) : subPos l o true.toNat = o + 2 ^ l := by simp [subPos, Nat.add_comm]

/-- The encoder sets, beyond the bits it was given, the switches of its own sub-network that `switchBit` says. -/
theorem testBit_encRec {m : Nat} (j : Nat) {l o : Nat} (hm : m = l + j) (ho : o < 2 ^ l) (q : List Nat) (acc : Nat)
    {k : Nat} (hk : k < 2 ^ (m - 1)) (r : Nat) :
    (encRec m j l o q acc).testBit (ctrlBit m r k) = (acc.testBit (ctrlBit m r k) ||
      (decide (l ≤ r ∧ r ≤ 2 * m - 2 - l ∧ k % 2 ^ l = o) && switchBit m j l q r k)) := by
  induction j using Nat.twoStepInduction generalizing l o q acc with
  | zero => simp [encRec, switchBit]
  | one =>
    obtain rfl : l = m - 1 := by omega
    have hswidx : swidx (m - 1) o = o := by
      simpa [subPos] using swidx_subPos ho 0
    rw [encRec, testBit_orBit, switchBit, hswidx, Nat.mod_eq_of_lt hk, Bool.and_comm]
    congr 2
    refine decide_eq_decide.2 ((ctrlBit_inj ho hk).trans ?_)
    omega
  | more j _ ih =>
    have hupper := mod_two_pow_succ_eq ho k false
    have hlower := mod_two_pow_succ_eq ho k true
    have ho1 := subPos_bit_lt ho (Bool.toNat_lt false)
    have ho2 := subPos_bit_lt ho (Bool.toNat_lt true)
    rw [subPos_toNat_false] at hupper ho1
    rw [subPos_toNat_true] at hlower ho2
    have hpair : 2 ^ (j + 2) = 2 * 2 ^ (j + 1) := pow_succ' 2 (j + 1)
    have hnum : k / 2 ^ l < 2 ^ (j + 1) := by
      rwa [eq_subPos l k, subPos_lt_half hm (mod_two_pow_lt l k)] at hk
    have hlevel := testBit_sideBits hm ho hk r (assignSides (2 ^ (j + 2)) q) acc le_rfl
    rw [← hpair] at hlevel
    rw [encRec, ih (by omega) ho2, ih (by omega) ho1, hlevel]
    simp only [hupper, hlower]
    by_cases hoff : k % 2 ^ l = o
    · rcases lt_trichotomy l r with hl | rfl | hl
      · rcases lt_trichotomy r (2 * m - 2 - l) with hr | rfl | hr
        · rw [switchBit_inner q k hl hr]
          have h1 : r ≤ 2 * m - 2 - (l + 1) := by omega
          cases hbit : k.testBit l <;> simp [hoff, hl.ne, hr.ne', hl.le, hr.le, Nat.succ_le_of_lt hl, h1]
        · have h1 : ¬ 2 * m - 2 - l ≤ 2 * m - 2 - (l + 1) := by omega
          simp [switchBit_last q k hm, hoff, hnum, hl.ne, hl.le, h1]
        · have h1 : ¬ r ≤ 2 * m - 2 - (l + 1) := by omega
          simp [hr.ne, hl.ne, hr.not_ge, h1]
      · have h1 : l ≤ 2 * m - 2 - l := by omega
        have h2 : 2 * m - 2 - l ≠ l := by omega
        simp [switchBit_first, hoff, hnum, h1, h2]
      · have h1 : 2 * m - 2 - l ≠ r := by omega
        have h2 : ¬ l + 1 ≤ r := by omega
        simp [hl.ne', hl.not_ge, h1, h2]
    · simp [hoff]

/-! ### The bits route the permutation -/

theorem roundMap_subPos {m r l o : Nat} (hl : level m r = l) (ho : o < 2 ^ l) (c : Nat → Bool) (x : Nat) :
    roundMap m c r (subPos l o x) = subPos l o (if c (ctrlBit m r (subPos l o (x / 2))) then x ^^^ 1 else x) := by
  rw [roundMap_apply, hl, swidx_subPos ho, subPos_xor ho, ← apply_ite (subPos l o)]

/-- A switch set by the side of its first position moves every position to its side. -/
theorem pair_swap {b : Nat → Bool} {x : Nat} (hb : b (x ^^^ 1) = !b x) :
    (if b (2 * (x / 2)) then x ^^^ 1 else x) = 2 * (x / 2) + (b x).toNat := by
  rw [xor_one_eq] at hb ⊢
  split at hb
  · next h =>
    have : 2 * (x / 2) = x := by omega
    rw [this, if_pos h]
    cases b x <;> rfl
  · next h =>
    have : 2 * (x / 2) = x - 1 := by omega
    rw [this, if_neg h, hb]
    cases b x
    · rw [Bool.not_false, if_pos rfl, Bool.toNat_false, Nat.add_zero]
    · rw [Bool.not_true, if_neg (by decide), Bool.toNat_true]
      omega

/-- The same switch moves it back. -/
theorem pair_swap_back {b : Nat → Bool} {x : Nat} (hb : b (x ^^^ 1) = !b x) :
    (if b (2 * (x / 2)) then (2 * (x / 2) + (b x).toNat) ^^^ 1 else 2 * (x / 2) + (b x).toNat) = x := by
  rw [← pair_swap hb]
  split
  · exact xor_one_xor_one x
  · rfl

/-- A permutation of two positions is one switch, crossed if the first output takes the second input. -/
theorem crossed_perm_two {q : List Nat} (hq : q.Perm (List.range 2)) {x : Nat} (hx : x < 2) :
    (if q.getD 0 0 == 1 then x ^^^ 1 else x) = q.getD x 0 := by
  have h0 : q.getD 0 0 < 2 := perm_getD_lt hq (by norm_num)
  have h1 : q.getD 1 0 < 2 := perm_getD_lt hq (by norm_num)
  have hne : q.getD 0 0 ≠ q.getD 1 0 := fun he =>
    absurd ((perm_getD_inj hq (by norm_num) (by norm_num)).1 he) (by norm_num)
  have hcases : (q.getD 0 0 = 0 ∧ q.getD 1 0 = 1) ∨ (q.getD 0 0 = 1 ∧ q.getD 1 0 = 0) := by omega
  obtain ⟨hq0, hq1⟩ | ⟨hq0, hq1⟩ := hcases
  all_goals obtain rfl | rfl : x = 0 ∨ x = 1 := by omega
  all_goals simp only [hq0, hq1]; rfl

/-- The rounds of a sub-network are its two outer rounds around the rounds of its halves. -/
theorem range'_rounds (l j : Nat) :
    List.range' l (2 * (j + 2) - 1) = l :: (List.range' (l + 1) (2 * (j + 1) - 1) ++ [l + (2 * j + 2)]) := by
  rw [show 2 * (j + 2) - 1 = (2 * j + 1 + 1) + 1 by omega, List.range'_succ, List.range'_concat,
    show 2 * (j + 1) - 1 = 2 * j + 1 by omega]
  congr 3
  omega

/-- A sub-network whose outer switches follow a division of `q` into halves, and whose halves deliver what they are
handed, realises `q`: output `x` is fed by its half, which takes the item from the half its source went to. -/
theorem roundsMap_of_splits {m j l o : Nat} (hm : m = l + (j + 2)) (ho : o < 2 ^ l) {c : Nat → Bool} {q : List Nat}
    (hq : q.Perm (List.range (2 ^ (j + 2)))) {sd : Sides} (hs : sd.Splits (2 ^ (j + 2)) q)
    (hin : ∀ y < 2 ^ (j + 1), c (ctrlBit m l (subPos l o y)) = sd.inLow (2 * y))
    (hout : ∀ y < 2 ^ (j + 1), c (ctrlBit m (2 * m - 2 - l) (subPos l o y)) = sd.outLow (2 * y))
    (hhalves : ∀ (b : Bool), ∀ y < 2 ^ (j + 1), roundsMap m c (List.range' (l + 1) (2 * (j + 1) - 1))
      (subPos (l + 1) (subPos l o b.toNat) y) =
        subPos (l + 1) (subPos l o b.toNat) ((halfPerm (2 ^ (j + 2)) q sd b).getD y 0))
    {x : Nat} (hx : x < 2 ^ (j + 2)) :
    roundsMap m c (List.range' l (2 * (j + 2) - 1)) (subPos l o x) = subPos l o (q.getD x 0) := by
  have hk : 2 ^ (j + 2) % 2 = 0 := two_pow_succ_mod_two (j + 1)
  have hhalf : 2 ^ (j + 2) / 2 = 2 ^ (j + 1) := two_pow_succ_div_two (j + 1)
  have hsource := perm_getD_lt hq hx
  have hside := Bool.toNat_lt (sd.inLow (q.getD x 0))
  have hpair : (2 * (q.getD x 0 / 2) + (sd.inLow (q.getD x 0)).toNat) / 2 = q.getD x 0 / 2 := by omega
  calc roundsMap m c (List.range' l (2 * (j + 2) - 1)) (subPos l o x)
      = roundMap m c l (roundsMap m c (List.range' (l + 1) (2 * (j + 1) - 1))
          (roundMap m c (2 * m - 2 - l) (subPos l o x))) := by
        rw [range'_rounds, show l + (2 * j + 2) = 2 * m - 2 - l by omega, roundsMap, roundsMap_append]
        rfl
    _ = roundMap m c l (roundsMap m c (List.range' (l + 1) (2 * (j + 1) - 1))
          (subPos l o (2 * (x / 2) + (sd.outLow x).toNat))) := by
        rw [roundMap_subPos (by rw [level]; omega) ho, hout _ (by omega), pair_swap (hs.out_partner x hx)]
    _ = roundMap m c l (subPos l o (2 * (q.getD x 0 / 2) + (sd.inLow (q.getD x 0)).toNat)) := by
        rw [subPos_two_mul_add, hhalves _ _ (by omega), halfPerm_getD hk hs hx, ← subPos_two_mul_add,
          hs.inp_source x hx]
    _ = subPos l o (q.getD x 0) := by
        rw [roundMap_subPos (by rw [level]; omega) ho, hpair, hin _ (by omega), pair_swap_back (hs.inp_partner x hx)]

/-- A sub-network whose switches are set as `switchBit` says realises its permutation. -/
theorem roundsMap_switchBit {m : Nat} {c : Nat → Bool} (j : Nat) {l o : Nat} (hm : m = l + (j + 1)) (ho : o < 2 ^ l)
    {q : List Nat} (hq : q.Perm (List.range (2 ^ (j + 1))))
    (hc : ∀ r k, l ≤ r → r ≤ 2 * m - 2 - l → k < 2 ^ (m - 1) → k % 2 ^ l = o →
      c (ctrlBit m r k) = switchBit m (j + 1) l q r k) {x : Nat} (hx : x < 2 ^ (j + 1)) :
    roundsMap m c (List.range' l (2 * (j + 1) - 1)) (subPos l o x) = subPos l o (q.getD x 0) := by
  induction j generalizing l o q x with
  | zero =>
    have hround : roundsMap m c (List.range' l (2 * (0 + 1) - 1)) (subPos l o x) = roundMap m c l (subPos l o x) := rfl
    have hlevel : level m l = l := by rw [level]; omega
    have hhalf : x / 2 = 0 := by omega
    have hpos : subPos l o 0 = o := by simp [subPos]
    have hbit : c (ctrlBit m l o) = (q.getD 0 0 == 1) :=
      hc l o le_rfl (by omega) (by rwa [show m - 1 = l by omega]) (Nat.mod_eq_of_lt ho)
    rw [hround, roundMap_subPos hlevel ho, hhalf, hpos, hbit, crossed_perm_two hq hx]
  | succ j ih =>
    have hk : 2 ^ (j + 2) % 2 = 0 := two_pow_succ_mod_two (j + 1)
    have hs := assignSides_splits hq hk
    have hinner := halfPerm_perm hq hk hs
    rw [two_pow_succ_div_two] at hinner
    refine roundsMap_of_splits hm ho hq hs (fun y hy => ?_) (fun y hy => ?_) (fun b y hy => ?_) hx
    · rw [hc l _ le_rfl (by omega) ((subPos_lt_half hm ho y).2 hy) (subPos_mod ho y), switchBit_first, subPos_div ho]
    · rw [hc _ _ (by omega) le_rfl ((subPos_lt_half hm ho y).2 hy) (subPos_mod ho y), switchBit_last _ _ hm,
        subPos_div ho]
    · refine ih (by omega) (subPos_bit_lt ho (Bool.toNat_lt b)) (hinner b) (fun r k hl hr hk hoff => ?_) hy
      obtain ⟨hoff, hbit⟩ := (mod_two_pow_succ_eq ho k b).1 hoff
      rw [hc r k (by omega) (by omega) hk hoff, switchBit_inner q k (by omega) (by omega), hbit]

/-- Routing with the pinned encoder's bits is the permutation (R148). -/
theorem permOf_pinnedEnc {m : Nat} (hm : 1 ≤ m) {p : List Elem} (hp : (p.map BitVec.toNat).Perm (List.range (2 ^ m)))
    {i : Nat} (hi : i < 2 ^ m) : permOf m (pinnedEnc m p) i = (p.getD i 0).toNat := by
  obtain ⟨j, rfl⟩ : ∃ j, m = j + 1 := ⟨m - 1, by omega⟩
  have hc : ∀ r k, 0 ≤ r → r ≤ 2 * (j + 1) - 2 - 0 → k < 2 ^ (j + 1 - 1) → k % 2 ^ 0 = 0 →
      pinnedEnc (j + 1) p (ctrlBit (j + 1) r k) = switchBit (j + 1) (j + 1) 0 (p.map BitVec.toNat) r k := by
    intro r k h0 hr hk hmod
    rw [pinnedEnc, testBit_encRec (j + 1) (by omega) (by norm_num) _ _ hk, Nat.zero_testBit, Bool.false_or,
      decide_eq_true ⟨h0, hr, hmod⟩, Bool.true_and]
  have hroute := roundsMap_switchBit j (by omega) (by norm_num) hp hc hi
  rw [subPos, subPos, pow_zero, one_mul, one_mul, Nat.add_zero, Nat.add_zero, ← List.range_eq_range'] at hroute
  rw [permOf_eq_routeMap]
  exact hroute.trans (List.getD_map p 0 BitVec.toNat)

end Sys2Proof.Machine
end

section
/-! PROOFS. The statement about the pinned encoder (42_benes.md R148, R151). -/

namespace Sys2Proof.Machine

/-- Settles O43: the side assignment of every level divides the loops, so that the two halves realise what is left. -/
theorem pinnedEncoderEncodesEveryBijection : Obligations.PinnedEncoderEncodesEveryBijection := by
  intro c p hv hlen hp i hi
  obtain ⟨⟨h2, -⟩, -⟩ := (valid_iff c).1 hv
  rw [isBijection, Bool.and_eq_true, List.all_eq_true, decide_eq_true_eq] at hp
  obtain ⟨hlt, hnd⟩ := hp
  refine permOf_pinnedEnc (by omega) (perm_range_of_nodup (by rw [List.length_map]; exact hlen) (fun x hx => ?_) ?_) hi
  · obtain ⟨e, he, rfl⟩ := List.mem_map.1 hx
    exact of_decide_eq_true (hlt e he)
  · exact hnd.map (fun a b h => BitVec.eq_of_toNat_eq h)

end Sys2Proof.Machine
end

section
/-! SUPPORT. The counter as a number, the bytes of an update block by block, and what RB.INIT, RB.UPD and RB.GEN answer
(43_drbg.md R171 to R178). -/

namespace Sys2Proof.Machine

/-! ### The counter (R171) -/

/-- The bytes of `n` from the top one down, read back as digits: `k` of them are the top `k` digits below `2^128`. -/
theorem foldl_base256_digits (n : Nat) {k : Nat} (hk : k ≤ 16) :
    (List.range k).foldl (fun acc i => acc * 256 + n / 256 ^ (15 - i) % 256) 0 = n / 256 ^ (16 - k) % 256 ^ k := by
  induction k with
  | zero => rw [List.range_zero, List.foldl_nil, pow_zero, Nat.mod_one]
  | succ k ih =>
    have hpow : 256 ^ (16 - k) = 256 ^ (15 - k) * 256 := by rw [← pow_succ]; congr 1; omega
    have hexp : 16 - (k + 1) = 15 - k := by omega
    rw [List.range_succ, List.foldl_append, ih (by omega), List.foldl_cons, List.foldl_nil, hexp, hpow,
      ← Nat.div_div_eq_div_mul, pow_succ', Nat.mod_mul, Nat.mul_comm, Nat.add_comm]

theorem toList_bytesOf128 (n : Nat) :
    (bytesOf128 n).toList = (List.range 16).map (fun i => BitVec.ofNat 8 (n / 256 ^ (15 - i))) := by
  rw [bytesOf128, Vector.toList_ofFn, List.ofFn_eq_map, ← List.map_coe_finRange_eq_range, List.map_map]
  rfl

/-- Writing a number as 16 bytes and reading it back keeps it modulo `2^128` (20_memory.md R53). -/
theorem be128_bytesOf128 (n : Nat) : be128 (bytesOf128 n) = n % 2 ^ 128 := by
  rw [be128, toList_bytesOf128, List.foldl_map]
  simpa using foldl_base256_digits n le_rfl

/-- The counter counts up from the number it holds. -/
theorem incrBy_bytesOf128 {n k : Nat} (h : n + k ≤ 2 ^ 128) : incrBy k (bytesOf128 n) = bytesOf128 (n + k) := by
  induction k with
  | zero => rfl
  | succ k ih =>
    rw [incrBy_succ, ih (by omega), incr, be128_bytesOf128, Nat.mod_eq_of_lt (by omega), Nat.add_assoc]

/-- The zero state's counter values (R173). -/
theorem incrBy_zero {k : Nat} (h : k ≤ 2 ^ 128) : incrBy k (Vector.replicate 16 0) = bytesOf128 k := by
  have hzero : (Vector.replicate 16 0 : Bytes16) = bytesOf128 0 := by decide
  rw [hzero, incrBy_bytesOf128 (by omega), Nat.zero_add]

/-! ### An update, block by block (R172) -/

/-- Byte `k` of the provided data, 0 where there is none. -/
def providedByte (pd : Option Bytes48) (k : Nat) : Byte := pd.elim 0 (fun d => d.toList.getD k 0)

theorem xor_providedByte_none (x : Byte) (k : Nat) : x ^^^ providedByte none k = x := BitVec.xor_zero

theorem providedByte_some (d : Bytes48) {k : Nat} (hk : k < 48) : providedByte (some d) k = d[k] := by
  simp [providedByte, hk]

theorem providedByte_entropy (s : State) {k : Nat} (hk : k < 48) :
    providedByte (some s.entropy) k = s.readB .ent k := by
  rw [providedByte_some _ hk, State.entropy, Vector.getElem_ofFn]

theorem update_key_byte (e : Cipher) (pd : Option Bytes48) (key : Bytes32) (v : Bytes16) {k : Nat} (hk : k < 32) :
    (update e pd key v).1[k] =
      (e key (incrBy (k / 16 + 1) v))[k % 16]'(Nat.mod_lt _ (by norm_num)) ^^^ providedByte pd k := by
  rw [← Fin.getElem_fin (update e pd key v).1 ⟨k, hk⟩, getElem_update_key]
  cases pd with
  | none => rfl
  | some d => rw [providedByte_some d (by omega)]

/-- The two blocks of the new key and the one of the new counter. -/
theorem update_blocks (e : Cipher) (pd : Option Bytes48) (key : Bytes32) (v : Bytes16) :
    (∀ i : Fin 16, (update e pd key v).1[i.val] = (e key (incrBy 1 v))[i] ^^^ providedByte pd i) ∧
    (∀ i : Fin 16, (update e pd key v).1[16 + i.val] = (e key (incrBy 2 v))[i] ^^^ providedByte pd (16 + i)) ∧
    (∀ i : Fin 16, (update e pd key v).2[i] = (e key (incrBy 3 v))[i] ^^^ providedByte pd (32 + i)) := by
  refine ⟨fun i => ?_, fun i => ?_, fun i => ?_⟩
  · have hdiv : i.val / 16 = 0 := by omega
    have hmod : i.val % 16 = i.val := by omega
    simp only [update_key_byte, hdiv, hmod, Fin.getElem_fin]
  · have hdiv : (16 + i.val) / 16 = 1 := by omega
    have hmod : (16 + i.val) % 16 = i.val := by omega
    simp only [update_key_byte, hdiv, hmod, Fin.getElem_fin]
  · rw [getElem_update_v]
    cases pd with
    | none => rfl
    | some d => rw [providedByte_some d (by omega)]

/-- Zero bytes of provided data change nothing (R174). -/
theorem update_of_zero {d : Bytes48} (hd : ∀ (k : Nat) (hk : k < 48), d[k] = 0) (e : Cipher) (key : Bytes32)
    (v : Bytes16) : update e (some d) key v = update e none key v := by
  have hxor : xorProvided (keystream e key v) (some d) = keystream e key v := by
    ext k hk
    simp [xorProvided, hd k hk]
  rw [update, update, hxor, xorProvided]

/-! ### RB.INIT and RB.UPD (R173, R174) -/

theorem initWith_eq (e : Cipher) (s : State) : initWith e s =
    { s with key := (initWith e s).key, v := (initWith e s).v, status := { s.status with seeded := true } } := by
  simp only [initWith, State.setDrbg]

theorem initWith_key (e : Cipher) (s : State) : (initWith e s).key =
    (update e (some s.entropy) (Vector.replicate 32 0) (Vector.replicate 16 0)).1 := rfl

theorem initWith_v (e : Cipher) (s : State) : (initWith e s).v =
    (update e (some s.entropy) (Vector.replicate 32 0) (Vector.replicate 16 0)).2 := rfl

theorem updateWith_key (e : Cipher) (pd : Bool) (s : State) : (updateWith e pd s).key =
    (update e (if pd then some s.entropy else none) s.key s.v).1 := rfl

theorem updateWith_v (e : Cipher) (pd : Bool) (s : State) : (updateWith e pd s).v =
    (update e (if pd then some s.entropy else none) s.key s.v).2 := rfl

section
variable {s : State}

theorem exec_rbInit (hent : (s.getLen (.byte .ent)).toNat = 48) : exec .rbInit s = .next (initWith Config.cipher s) :=
  needFilled_pos (b := .byte .ent) hent _ _

theorem exec_rbInit_precond (hent : (s.getLen (.byte .ent)).toNat ≠ 48) :
    exec .rbInit s = .next (s.takeFault .precond (encode .rbInit)) :=
  needFilled_neg (b := .byte .ent) hent _ _

theorem exec_rbUpd {pd : Bool} (hs : s.status.seeded = true) (hent : pd = true → (s.getLen (.byte .ent)).toNat = 48) :
    exec (.rbUpd pd) s = .next (updateWith Config.cipher pd s) := by
  show execRbUpd pd s = _
  rw [execRbUpd, needSeeded_pos hs]
  cases pd with
  | false => rfl
  | true => exact needFilled_pos (b := .byte .ent) (hent rfl) _ _

theorem exec_rbUpd_noSeed (pd : Bool) (hs : s.status.seeded = false) :
    exec (.rbUpd pd) s = .next (s.takeFault .noSeed (encode (.rbUpd pd))) :=
  needSeeded_neg hs _ _

theorem exec_rbUpd_precond (hs : s.status.seeded = true) (hent : (s.getLen (.byte .ent)).toNat ≠ 48) :
    exec (.rbUpd true) s = .next (s.takeFault .precond (encode (.rbUpd true))) := by
  show execRbUpd true s = _
  rw [execRbUpd, needSeeded_pos hs]
  exact needFilled_neg (b := .byte .ent) hent _ _

/-- The provided data of RB.UPD is the entropy or none (R174). -/
theorem providedByte_rbUpd (pd : Bool) {k : Nat} (hk : k < 48) :
    providedByte (if pd then some s.entropy else none) k = if pd then s.readB .ent k else 0 := by
  cases pd with
  | false => rfl
  | true => exact providedByte_entropy s hk

end

/-! ### RB.GEN (R175) -/

section
variable {s : State} {n : BitVec 16}

theorem exec_rbGen (hn : n.toNat ≤ s.build.outMax) (hs : s.status.seeded = true) :
    exec (.rbGen n) s = .next (generateWith Config.cipher n.toNat s) := by
  show execRbGen n s = _
  rw [execRbGen, decide_eq_true hn, check_true, needSeeded_pos hs]

theorem exec_rbGen_range (hn : s.build.outMax < n.toNat) :
    exec (.rbGen n) s = .next (s.takeFault .range (encode (.rbGen n))) := by
  show execRbGen n s = _
  rw [execRbGen, decide_eq_false (Nat.not_le.2 hn), check_false, raise]

theorem exec_rbGen_noSeed (hn : n.toNat ≤ s.build.outMax) (hs : s.status.seeded = false) :
    exec (.rbGen n) s = .next (s.takeFault .noSeed (encode (.rbGen n))) := by
  show execRbGen n s = _
  rw [execRbGen, decide_eq_true hn, check_true, needSeeded_neg hs]

end

section
variable (e : Cipher) (n : Nat) (s : State)

theorem generateWith_key : (generateWith e n s).key = (update e none s.key (incrBy (blockCount n) s.v)).1 := rfl

theorem generateWith_v : (generateWith e n s).v = (update e none s.key (incrBy (blockCount n) s.v)).2 := rfl

theorem generateWith_out : (generateWith e n s).out =
    s.out.fill n (fun i => (blocks e s.key (blockCount n) s.v).getD i 0) := rfl

theorem getLen_generateWith_out : (generateWith e n s).getLen (.byte .out) = BitVec.ofNat 32 n := by
  rw [generateWith, getLen_setDrbg, getLen_setLen_self]

theorem getE_generateWith (b : EBuf) : (generateWith e n s).getE b = s.getE b := by simp [generateWith]

theorem getB_generateWith_of_ne {b : BBuf} (hb : b ≠ .out) : (generateWith e n s).getB b = s.getB b := by
  rw [generateWith, getB_setDrbg, getB_setLen, State.fillB, getB_setB, if_neg hb]

variable {s n}

/-- Byte `i` of `OUT` is byte `i mod 16` of the block on counter value `i / 16 + 1`. -/
theorem readB_generateWith_out (hwf : (s.getB .out).wf = true) {i : Nat} (hi : i < n) :
    (generateWith e n s).readB .out i = (e s.key (incrBy (i / 16 + 1) s.v)).toList.getD (i % 16) 0 := by
  have hblocks : i < 16 * blockCount n := by rw [blockCount]; omega
  rw [generateWith, readB_setDrbg, readB_setLen, readB_fillB hwf, if_pos ⟨rfl, hi⟩, getD_blocks _ _ _ _ _ hblocks]

end

/-! ### What the commands read (R178) -/

theorem wellFormed_of_usesGenerator {i : Instr} (h : usesGenerator i = true) (m : Nat) : WellFormed m i = true := by
  cases i with
  | rbInit | rbUpd _ | rbGen _ => rfl
  | _ => cases h

section
variable {s t : State} (h : sameGenerator s t)
include h

theorem sameGenerator.entropy : s.entropy = t.entropy := by
  obtain ⟨-, -, -, -, hent, -⟩ := h
  have hmem : s.getB .ent = t.getB .ent := hent
  simp only [State.entropy, readB_congr hmem]

theorem sameGenerator.faultOf {i : Instr} (hi : usesGenerator i = true) : faultOf s i = faultOf t i := by
  obtain ⟨hbuild, hseed, -, -, -, -, hlen, -⟩ := h
  have hfill : fillFails s i = fillFails t i := by
    cases i with
    | rbInit => simp only [fillFails, fillRequired, List.any_cons, hlen]; rfl
    | rbUpd pd => cases pd <;> simp [fillFails, fillRequired, hlen]
    | rbGen _ => rfl
    | _ => cases hi
  rw [Machine.faultOf, Machine.faultOf, hbuild, hseed, hfill]

/-- FAULT ENTRY writes nothing of the generator's. -/
theorem sameGenerator.takeFault (c : Cause) (w : Word) : sameGenerator (s.takeFault c w) (t.takeFault c w) := h

theorem sameGenerator.initWith (e : Cipher) : sameGenerator (initWith e s) (initWith e t) := by
  have hdata := h.entropy
  obtain ⟨hbuild, -, -, -, hent, hout, hlenE, hlenO⟩ := h
  simp only [sameGenerator, initWith_build, initWith_status, initWith_key, initWith_v, initWith_ent, initWith_out,
    getLen_initWith, hbuild, hdata, hent, hout, hlenE, hlenO, and_self]

theorem sameGenerator.updateWith (e : Cipher) (pd : Bool) : sameGenerator (updateWith e pd s) (updateWith e pd t) := by
  have hdata := h.entropy
  obtain ⟨hbuild, hseed, hkey, hv, hent, hout, hlenE, hlenO⟩ := h
  simp only [sameGenerator, updateWith_build, updateWith_status, updateWith_key, updateWith_v, updateWith_ent,
    updateWith_out, getLen_updateWith, hbuild, hseed, hkey, hv, hdata, hent, hout, hlenE, hlenO, and_self]

theorem sameGenerator.generateWith (e : Cipher) (n : Nat) :
    sameGenerator (generateWith e n s) (generateWith e n t) := by
  obtain ⟨hbuild, hseed, hkey, hv, hent, hout, hlenE, -⟩ := h
  have hne : Buf.byte .ent ≠ .byte .out := by decide
  simp only [sameGenerator, generateWith_build, generateWith_status, generateWith_key, generateWith_v, generateWith_ent,
    generateWith_out, getLen_generateWith_of_ne hne, getLen_generateWith_out, hbuild, hseed, hkey, hv, hent, hout, hlenE,
    and_self]

/-- Every generator command has the same effect on the two states, as far as `sameGenerator` sees (R178). -/
theorem sameGenerator.effect {i : Instr} (hi : usesGenerator i = true) : sameGenerator (effect i s) (effect i t) := by
  cases i with
  | rbInit => exact h.initWith _
  | rbUpd pd => exact h.updateWith _ pd
  | rbGen n => exact h.generateWith _ _
  | _ => cases hi

end

end Sys2Proof.Machine
end

section
/-! PROOFS. The statements about the bit generator (43_drbg.md R171 to R178). -/

namespace Sys2Proof.Machine

/-- Settles O45: the increment writes the successor as 16 bytes, which read back as it modulo `2^128`. -/
theorem incrAddsOneBigEndian : Obligations.IncrAddsOneBigEndian :=
  fun v => be128_bytesOf128 (be128 v + 1)

/-- Settles O46: the counter values after zero are 1, 2 and 3, and the update is read block by block. -/
theorem rbInitSeedsTheGenerator : Obligations.RbInitSeedsTheGenerator := by
  intro s
  refine ⟨fun hent => ⟨_, _, (exec_rbInit hent).trans (congrArg _ (initWith_eq _ s)), ?_⟩, exec_rbInit_precond⟩
  obtain ⟨hlow, hhigh, hv⟩ :=
    update_blocks Config.cipher (some s.entropy) (Vector.replicate 32 0) (Vector.replicate 16 0)
  rw [← initWith_key] at hlow hhigh
  rw [← initWith_v] at hv
  refine ⟨fun i => ?_, fun i => ?_, fun i => ?_⟩
  · rw [hlow, incrBy_zero (by norm_num), providedByte_entropy s (by omega)]
  · rw [hhigh, incrBy_zero (by norm_num), providedByte_entropy s (by omega)]
  · rw [hv, incrBy_zero (by norm_num), providedByte_entropy s (by omega)]

/-- Settles O47: the update under the old key is read block by block, and the checks decide in their order. -/
theorem rbUpdAdvancesTheGenerator : Obligations.RbUpdAdvancesTheGenerator := by
  intro pd s
  refine ⟨fun hs hent => ⟨_, _, exec_rbUpd hs hent, ?_⟩, exec_rbUpd_noSeed pd, fun hs hpd hent => ?_⟩
  · obtain ⟨hlow, hhigh, hv⟩ := update_blocks Config.cipher (if pd then some s.entropy else none) s.key s.v
    refine ⟨fun i => ?_, fun i => ?_, fun i => ?_⟩
    · rw [hlow, providedByte_rbUpd pd (by omega)]
    · rw [hhigh, providedByte_rbUpd pd (by omega)]
    · rw [hv, providedByte_rbUpd pd (by omega)]
  · rw [hpd]
    exact exec_rbUpd_precond hs hent

/-- Settles O48: the update with 48 zero bytes of provided data is the update without. -/
theorem zeroProvidedDataIsNoProvidedData : Obligations.ZeroProvidedDataIsNoProvidedData := by
  intro s hent hs hzero
  have hentropy : ∀ (k : Nat) (hk : k < 48), s.entropy[k] = 0 := fun k hk => by
    rw [State.entropy, Vector.getElem_ofFn, hzero k hk]
  have hsame : updateWith Config.cipher true s = updateWith Config.cipher false s :=
    congrArg s.setDrbg (update_of_zero hentropy Config.cipher s.key s.v)
  exact ⟨_, exec_rbUpd hs fun _ => hent, by rw [hsame]; exact exec_rbUpd hs nofun⟩

/-- Settles O49: the fill of `OUT` is read block by block, and the final update starts at the counter after the last. -/
theorem rbGenWritesTheBlocks : Obligations.RbGenWritesTheBlocks := by
  intro n s hinv
  refine ⟨fun hn hs => ⟨_, exec_rbGen hn hs, ?_⟩, exec_rbGen_range, exec_rbGen_noSeed⟩
  have hwf := hinv.wfB .out
  have hlen : (BitVec.ofNat 32 n.toNat).toNat = n.toNat := Nat.mod_eq_of_lt (by have := n.isLt; omega)
  obtain ⟨hlow, hhigh, hv⟩ := update_blocks Config.cipher none s.key (incrBy (blockCount n.toNat) s.v)
  simp only [xor_providedByte_none, ← incrBy_add] at hlow hhigh hv
  exact ⟨fun i hi => readB_generateWith_out _ hwf hi,
    fun i hi => readB_generateWith_of_not_stored hwf fun hstored => absurd hstored.2 (Nat.not_lt.2 hi),
    by rw [getLen_generateWith_out, hlen], fun b hb => getLen_generateWith_of_ne hb, hlow, hhigh, hv,
    fun b hb => getB_generateWith_of_ne _ _ _ hb, getE_generateWith _ _ _, generateWith_g _ _ _,
    generateWith_status _ _ _, generateWith_fcmd _ _ _, generateWith_bufaddr _ _ _⟩

/-- Settles O50: agreeing states fail the same check, and each effect reads nothing but what they agree on. -/
theorem generatorOutputIsDetermined : Obligations.GeneratorOutputIsDetermined := by
  intro i s s' t t' hi h hs hs'
  rw [exec_eq (wellFormed_of_usesGenerator hi _)] at hs hs'
  rw [← h.faultOf hi] at hs'
  cases hf : faultOf s i with
  | some c =>
    rw [hf] at hs hs'
    cases hs
    cases hs'
    exact h.takeFault c (encode i)
  | none =>
    rw [hf] at hs hs'
    cases hs
    cases hs'
    exact h.effect hi

end Sys2Proof.Machine
end

section
/-! SUPPORT. What the commands of data movement answer in each case (44_data_movement_system.md R191 to R194), and the
decoder's rows of NOP and LDI. -/

namespace Sys2Proof

/-- A constraint either goes on or rejects the word by name (30_encoding.md R76). -/
theorem need_cases (ok : Bool) (why : Illegal) (k : Except Illegal Instr) :
    (ok = true ∧ need ok why k = k) ∨ (ok = false ∧ need ok why k = .error why) := by
  cases ok
  · exact .inr ⟨rfl, rfl⟩
  · exact .inl ⟨rfl, rfl⟩

/-- The row of NOP (30_encoding.md R75): every field but `op` is zero. -/
theorem decode_of_fieldOp_nop (m : Nat) {w : Word} (hop : fieldOp w = 0) : decode m w = decodeI0 w .nop := by
  rw [decode, hop]
  rfl

/-- The row of LDI (30_encoding.md R75): first the must-be-zero field, then the immediate. -/
theorem decode_of_fieldOp_ldi (m : Nat) {w : Word} (hop : fieldOp w = 1) :
    decode m w = need (fieldB w == 0) .strayBits
      (need (decide ((fieldImm w).toNat < 2 ^ m)) .ldiImmediate (.ok (.ldi (fieldA w) (fieldImm w)))) := by
  rw [decode, hop]
  rfl

namespace Machine

variable {s : State}

/-- Masking to `M` bits leaves an immediate that decoding let through as it is (R191). -/
theorem exec_ldi (gd : GReg) {imm : BitVec 16} (h : imm.toNat < 2 ^ s.build.m) :
    exec (.ldi gd imm) s = .next (s.setG gd imm) := by
  show execLdi gd imm s = _
  rw [execLdi, decide_eq_true h, check_true, lowBits_of_lt h]

theorem exec_lde (gd : GReg) {b : EBuf} {idx : BitVec 16} (h : idx.toNat < capE s.build b) :
    exec (.lde gd b idx) s = .next (s.setG gd (s.readE b idx.toNat)) :=
  needBelow_pos h _ _ _

theorem exec_lde_range (gd : GReg) {b : EBuf} {idx : BitVec 16} (h : capE s.build b ≤ idx.toNat) :
    exec (.lde gd b idx) s = .next (s.takeFault .range (encode (.lde gd b idx))) :=
  needBelow_neg h _ _ _

theorem exec_ste (gs : GReg) {b : EBuf} {idx : BitVec 16} (h : idx.toNat < capE s.build b) :
    exec (.ste gs b idx) s = .next (s.writeE b idx.toNat (s.getG gs)) :=
  needBelow_pos h _ _ _

theorem exec_ste_range (gs : GReg) {b : EBuf} {idx : BitVec 16} (h : capE s.build b ≤ idx.toNat) :
    exec (.ste gs b idx) s = .next (s.takeFault .range (encode (.ste gs b idx))) :=
  needBelow_neg h _ _ _

theorem exec_setfull (b : Buf) (s : State) :
    exec (.setfull b) s = .next (s.setLen b (BitVec.ofNat 32 (cap s.build b))) := rfl

end Machine
end Sys2Proof
end

section
/-! PROOFS. The statements about data movement (44_data_movement_system.md R190 to R194). -/

namespace Sys2Proof.Machine

/-- Settles O16: the word of NOP is 0, so the round trip in both directions decides which words decode to it, and its row
rejects every other word for a non-zero field. -/
theorem nopLeavesTheStateEqual : Obligations.NopLeavesTheStateEqual := by
  have hword : encode .nop = 0 := rfl
  have hnop (m : Nat) (w : Word) : decode m w = .ok .nop ↔ w = 0 := by
    constructor
    · intro h
      rw [← encode_of_decode h, hword]
    · rintro rfl
      rw [← hword]
      exact decodeOfEncodeIsTheCommand m .nop rfl
  refine ⟨hnop, fun m w hop hne => ?_, fun s => rfl⟩
  have hrow := decode_of_fieldOp_nop m hop
  rcases need_cases (fieldA w == 0 && fieldB w == 0 && fieldImm w == 0) .strayBits (.ok .nop) with ⟨-, hok⟩ | ⟨-, herr⟩
  · exact absurd ((hnop m w).1 (hrow.trans hok)) hne
  · exact hrow.trans herr

/-- Settles O17: the two constraints of LDI's row decide the verdict. -/
theorem ldiLoadsTheImmediate : Obligations.LdiLoadsTheImmediate := by
  refine ⟨fun m w hop => ?_, fun gd imm s h => exec_ldi gd h⟩
  rw [decode_of_fieldOp_ldi m hop]
  constructor
  · rintro ⟨hb, himm⟩
    rw [beq_iff_eq.2 hb, decide_eq_true himm, need_true, need_true]
  · intro hbad
    rw [← isOk_eq_false_iff_exists_error, isOk_need, isOk_need, isOk_ok]
    rcases hbad with hb | himm
    · rw [beq_eq_false_iff_ne.2 hb, Bool.false_and]
    · rw [decide_eq_false (Nat.not_lt.2 himm), Bool.false_and, Bool.and_false]

/-- Settles O18, from the two outcomes of the index check. -/
theorem ldeLoadsTheEntry : Obligations.LdeLoadsTheEntry :=
  fun gd _ _ _ => ⟨exec_lde gd, exec_lde_range gd⟩

/-- Settles O19: a read after the write sees the register at the index and the old entry elsewhere. -/
theorem steStoresTheRegister : Obligations.SteStoresTheRegister := by
  intro gs b idx s hwf
  refine ⟨fun hidx => ⟨_, exec_ste gs hidx, ?_, fun b' k hne => ?_, ?frame⟩, exec_ste_range gs⟩
  · rw [readE_writeE (hwf b), if_pos ⟨rfl, rfl⟩]
  · rw [readE_writeE (hwf b), if_neg fun ⟨hb, hk⟩ => hne (Prod.ext hb hk)]
  case frame =>
    exact ⟨writeE_g .., writeE_len .., getB_writeE _ _ _ _, writeE_key .., writeE_v .., writeE_status .., writeE_fcmd ..,
      writeE_bufaddr ..⟩

/-- Settles O20: every capacity of an existing build fits the 32-bit fill count. -/
theorem setfullDeclaresTheCapacity : Obligations.SetfullDeclaresTheCapacity := by
  intro b s hv
  refine ⟨_, exec_setfull b s, ?_⟩
  rw [BitVec.toNat_ofNat, Nat.mod_eq_of_lt (cap_lt hv b)]

end Sys2Proof.Machine
end

section
/-! SUPPORT. The checks of 60_exceptions.md R206 as equations: what a command and an issued word do at their first
failing check and past all of them; and what the port does in ABORT (R204). -/

namespace Sys2Proof.Machine

/-! ### A decoded command (R206, steps 3 to 6) -/

section
variable {i : Instr} {s : State}

/-- The checks of a decoded command raise RANGE, NOSEED and PRECOND; ILLEGAL is raised before it is decoded (R202). -/
theorem faultOf_ne_illegal : faultOf s i ≠ some .illegal := by
  unfold faultOf
  split_ifs <;> simp

theorem exec_of_faultOf_some {c : Cause} (hwf : WellFormed s.build.m i = true) (hf : faultOf s i = some c) :
    exec i s = .next (s.takeFault c (encode i)) := by
  rw [exec_eq hwf, hf]
  rfl

theorem exec_of_faultOf_none (hwf : WellFormed s.build.m i = true) (hf : faultOf s i = none) :
    exec i s = .next (effect i s) := by
  rw [exec_eq hwf, hf]

theorem effect_fcmd : (effect i s).fcmd = s.fcmd := by
  cases i <;> simp [effect]

/-- No effect touches the fault fields of STATUS, not even that of RB.INIT, which writes SEEDED (R209). -/
theorem effect_fault_fields : (effect i s).status.abort = s.status.abort ∧
    (effect i s).status.cause = s.status.cause ∧ (effect i s).status.busy = s.status.busy := by
  by_cases hi : i = .rbInit
  · subst hi
    simp [effect]
  · rw [effect_status hi]
    exact ⟨rfl, rfl, rfl⟩

/-- Every command answers a next state in the same build: takes a fault or has its effect. -/
theorem exec_next_build (i : Instr) (s : State) : ∃ t, exec i s = .next t ∧ t.build = s.build := by
  rcases exec_cases i s with ⟨c, he⟩ | ⟨-, -, he⟩
  · exact ⟨_, he, takeFault_build s c _⟩
  · obtain ⟨-, hbuild, -, -⟩ := effect_host (s := s) (i := i)
    exact ⟨_, he, hbuild⟩

end

/-! ### An issued word (R206, steps 1 and 2) -/

theorem issue_of_abort {s : State} (ha : s.status.abort = true) (w : Word) : s.issue w = (s, none) := by
  rw [State.issue, if_pos ha]

theorem issue_of_illegal {s : State} {w : Word} {e : Illegal} (ha : s.status.abort = false)
    (hd : decode s.build.m w = .error e) : s.issue w = (s.takeFault .illegal w, none) := by
  simp [State.issue, ha, hd]

/-- Where no check of an issued word fails, the word decodes and no check of its command fails. -/
theorem faultOfWord_eq_none {s : State} {w : Word} :
    faultOfWord s w = none ↔ ∃ i, decode s.build.m w = .ok i ∧ faultOf s i = none := by
  unfold faultOfWord
  cases decode s.build.m w <;> simp

/-- A failing check of an issued word is that the word is Illegal, or a check of its command. -/
theorem faultOfWord_eq_some {s : State} {w : Word} {c : Cause} : faultOfWord s w = some c ↔
    (∃ e, decode s.build.m w = .error e ∧ c = .illegal) ∨ ∃ i, decode s.build.m w = .ok i ∧ faultOf s i = some c := by
  unfold faultOfWord
  cases decode s.build.m w <;> simp [eq_comm]

section
variable {s : State} {w : Word} {rest : List HostTxn}

theorem step_command_of_abort (hv : s.build.valid = true) (hport : s.port = commandTxn w :: rest)
    (ha : s.status.abort = true) : step s = .next { s with port := rest } :=
  step_accept hv hport ((accept_command _ w).trans (issue_of_abort (s := { s with port := rest }) ha w))

theorem step_command_of_fault {c : Cause} (hv : s.build.valid = true) (hport : s.port = commandTxn w :: rest)
    (ha : s.status.abort = false) (hf : faultOfWord s w = some c) :
    step s = .next (State.takeFault { s with port := rest } c w) := by
  rcases faultOfWord_eq_some.1 hf with ⟨e, hd, rfl⟩ | ⟨i, hd, hfi⟩
  · exact step_accept hv hport ((accept_command _ w).trans (issue_of_illegal ha hd))
  · have hexec : exec i { s with port := rest } = .next (State.takeFault { s with port := rest } c (encode i)) :=
      exec_of_faultOf_some (wellFormed_of_decode hd) hfi
    rw [stepRunsTheIssuedCommand s w rest i ⟨hv, ha, hport⟩ hd, hexec, encode_of_decode hd]

end

/-! ### The port (R204) -/

/-- Only offset 0x0C is BUFADDR (10_state.md R41). -/
theorem hostReg_bufaddr {off : Nat} (h : hostReg off = some .bufaddr) : off = 0x0C := by
  by_contra hoff
  by_cases hnamed : off ∈ [0x00, 0x04, 0x08, 0x0C, 0x10, 0x20, 0x24, 0x28, 0x2C, 0x30]
  · simp only [List.mem_cons, List.not_mem_nil, or_false] at hnamed
    rcases hnamed with rfl | rfl | rfl | rfl | rfl | rfl | rfl | rfl | rfl | rfl
    case inr.inr.inr.inl => exact hoff rfl
    all_goals cases h
  · rw [hostReg_of_not_named hnamed] at h
    split at h
    · obtain ⟨b, -, hb⟩ := Option.map_eq_some_iff.mp h
      cases hb
    · cases h

/-- In ABORT every write is ignored but that of 32 bits to BUFADDR. -/
theorem accept_write_of_abort {s : State} (ha : s.status.abort = true) {width off : Nat}
    (h : ¬(width = 32 ∧ off = 0x0C)) (v : Word) : s.accept (.write width off v) = (s, none) := by
  by_cases hw : width = 32
  · rw [State.accept, if_pos hw, State.hostWrite]
    split
    · exact issue_of_abort ha v
    · next hr => exact absurd ⟨hw, hostReg_bufaddr hr⟩ h
    · rw [if_pos ha]
    · rw [if_pos ha]
    · rfl
  · rw [State.accept, if_neg hw]

/-- No transaction changes the build (00_scope.md section 3). -/
theorem accept_build {s t : State} {x : HostTxn} (h : s.accept x = (t, none)) : t.build = s.build := by
  rcases accept_cases h with ⟨-, rfl⟩ | ⟨rs, rfl⟩ | ⟨a, rfl⟩ | ⟨v, rfl⟩ | ⟨b, v, rfl⟩ | ⟨w, rfl⟩ | rfl
  case inr.inr.inr.inl =>
    obtain ⟨-, -, -, -, -, -, hbuild, -⟩ := writeBufdata_frame s v
    exact hbuild
  all_goals rfl

end Sys2Proof.Machine
end

section
/-! PROOFS. The statements about faults (60_exceptions.md R200 to R212). -/

namespace Sys2Proof.Machine

/-- Settles O8: past its checks a command has its effect, which writes neither FCMD nor the fault fields of STATUS. -/
theorem commandsCompleteWhereNoCheckFails : Obligations.CommandsCompleteWhereNoCheckFails := by
  intro i s hwf hf
  obtain ⟨habort, hcause, hbusy⟩ := effect_fault_fields (i := i) (s := s)
  exact ⟨_, exec_of_faultOf_none hwf hf, habort, hcause, hbusy, effect_fcmd⟩

/-- Settles O9: both a command and the issue of a word take their fault by the one fault entry, with the code of the
cause. -/
theorem failingChecksTakeTheFault : Obligations.FailingChecksTakeTheFault := by
  refine ⟨fun i s c hwf hf => ⟨c.code, exec_of_faultOf_some hwf hf, ?_⟩, fun s w e ha hd => issue_of_illegal ha hd⟩
  cases c with
  | precond => exact .inl ⟨rfl, rfl⟩
  | illegal => exact absurd hf faultOf_ne_illegal
  | range => exact .inr (.inl ⟨rfl, rfl⟩)
  | noSeed => exact .inr (.inr ⟨rfl, rfl⟩)

/-- Settles O7: the word is discarded in ABORT; outside it the step takes the fault of the first failing check, and past
the checks it is the effect of the command. -/
theorem issuedWordsAreCheckedInOrder : Obligations.IssuedWordsAreCheckedInOrder := by
  intro s w rest hv hport
  refine ⟨step_command_of_abort hv hport, fun ha c hf => ?fault, fun ha hf => ?completes⟩
  case fault =>
    refine ⟨c.code, step_command_of_fault hv hport ha hf, ?_, ?_, ?_, ?_⟩ <;> rintro rfl <;> rfl
  case completes =>
    obtain ⟨i, hd, hfi⟩ := faultOfWord_eq_none.1 hf
    obtain ⟨t, hexec, habort, -, -, hfcmd⟩ :=
      commandsCompleteWhereNoCheckFails i { s with port := rest } (wellFormed_of_decode hd) hfi
    exact ⟨i, t, hd, stepRunsTheIssuedCommand s w rest i ⟨hv, ha, hport⟩ hd, hexec, habort.trans ha, hfcmd⟩

/-- Settles O10, transaction by transaction: a read extends the record, a 32-bit write to BUFADDR sets it, every other
write is ignored, and HostReset clears ABORT. -/
theorem abortIsLeftOnlyByReset : Obligations.AbortIsLeftOnlyByReset := by
  intro s x rest hv ha hport
  cases x with
  | reset => exact ⟨fun h => absurd rfl h, fun _ => ⟨_, step_accept hv hport rfl, rfl⟩⟩
  | read width off =>
    refine ⟨fun _ => ⟨s.bufaddr, s.replyTo width off :: s.replies, step_accept hv hport rfl, fun _ => rfl, nofun,
      fun h => absurd rfl (h width off), ?_⟩, nofun⟩
    rintro _ _ ⟨⟩
    rfl
  | write width off v =>
    refine ⟨fun _ => ?_, nofun⟩
    by_cases hbuf : width = 32 ∧ off = 0x0C
    · obtain ⟨rfl, rfl⟩ := hbuf
      refine ⟨v, s.replies, step_accept hv hport rfl, fun h => absurd rfl (h v), ?_, fun _ => rfl, nofun⟩
      rintro _ ⟨⟩
      rfl
    · refine ⟨s.bufaddr, s.replies, step_accept hv hport ?ignored, fun _ => rfl, ?_, fun _ => rfl, nofun⟩
      case ignored => exact accept_write_of_abort (s := { s with port := rest }) ha hbuf v
      rintro _ ⟨⟩
      exact absurd ⟨rfl, rfl⟩ hbuf

/-- Settles O55: an idle step, a transaction that issues no command and the execution of a command each answer a next
state. -/
theorem noStepStops : Obligations.NoStepStops := by
  intro s hinv
  cases hport : s.port with
  | nil => exact ⟨s, step_idle hinv.valid hport, rfl⟩
  | cons x rest =>
    rcases hacc : State.accept { s with port := rest } x with ⟨s', _ | i⟩
    · exact ⟨s', step_accept hinv.valid hport hacc, accept_build (s := { s with port := rest }) hacc⟩
    · obtain ⟨-, -, rfl, -, -⟩ := accept_some hacc
      rw [step_exec hinv.valid hport hacc]
      exact exec_next_build i { s with port := rest }

end Sys2Proof.Machine
end

section
/-! SUPPORT. What the public part of the state decides (70_reset_and_hazards.md R237): each operation on the state, and
so each command, takes states of one build, with the same fill counts and STATUS, to such states again, whatever data
it stores. -/

namespace Sys2Proof.Machine

/-! ### One rule per operation on the state -/

section
variable {s t : State} (h : samePublic s t)
include h

theorem samePublic.getLen (b : Buf) : s.getLen b = t.getLen b := by
  obtain ⟨-, hlen, -⟩ := h
  rw [State.getLen, State.getLen, hlen]

theorem samePublic.setG (r : GReg) (x y : Elem) : samePublic (s.setG r x) (t.setG r y) := h

theorem samePublic.setE (b : EBuf) (x y : Memory 16) : samePublic (s.setE b x) (t.setE b y) := by
  cases b <;> exact h

theorem samePublic.setB (b : BBuf) (x y : Memory 8) : samePublic (s.setB b x) (t.setB b y) := by
  cases b <;> exact h

theorem samePublic.writeE (b : EBuf) (k : Nat) (x y : Elem) : samePublic (s.writeE b k x) (t.writeE b k y) :=
  h.setE b _ _

theorem samePublic.fillE (b : EBuf) (n n' : Nat) (f f' : Nat → Elem) : samePublic (s.fillE b n f) (t.fillE b n' f') :=
  h.setE b _ _

theorem samePublic.fillB (b : BBuf) (n n' : Nat) (f f' : Nat → Byte) : samePublic (s.fillB b n f) (t.fillB b n' f') :=
  h.setB b _ _

theorem samePublic.setLen (b : Buf) (x : Word) : samePublic (s.setLen b x) (t.setLen b x) := by
  obtain ⟨hbuild, hlen, hstatus⟩ := h
  exact ⟨hbuild, congrArg (fun l => l.set (bufSlot b).val x (bufSlot b).isLt) hlen, hstatus⟩

/-- The capacity a buffer is declared full with depends on the build alone (10_state.md R26). -/
theorem samePublic.declareFull (b : Buf) : samePublic (s.declareFull b) (t.declareFull b) := by
  obtain ⟨hbuild, -, -⟩ := id h
  rw [State.declareFull, State.declareFull, hbuild]
  exact h.setLen b _

theorem samePublic.setDrbg (kv kv' : Bytes32 × Bytes16) : samePublic (s.setDrbg kv) (t.setDrbg kv') := h

theorem samePublic.initWith (e : Cipher) : samePublic (initWith e s) (initWith e t) := by
  obtain ⟨hbuild, hlen, hstatus⟩ := h
  simp only [samePublic, initWith_build, initWith_len, initWith_status, hbuild, hlen, hstatus, and_self]

theorem samePublic.generateWith (e : Cipher) (n : Nat) : samePublic (generateWith e n s) (generateWith e n t) :=
  ((h.fillB .out n n _ _).setLen (.byte .out) _).setDrbg _ _

theorem samePublic.takeFault (c : Cause) (w : Word) : samePublic (s.takeFault c w) (t.takeFault c w) := by
  obtain ⟨hbuild, hlen, hstatus⟩ := h
  exact ⟨hbuild, hlen, congrArg (fun st => { st with abort := true, cause := c.code }) hstatus⟩

/-! ### The checks and the effect of a command -/

/-- The checks of 60_exceptions.md R206 read the build, SEEDED and the fill counts. -/
theorem samePublic.faultOf (i : Instr) : faultOf s i = faultOf t i := by
  obtain ⟨hbuild, -, hstatus⟩ := id h
  have hfill : fillFails s i = fillFails t i := by simp only [fillFails, hbuild, h.getLen]
  rw [Machine.faultOf, Machine.faultOf, hbuild, hstatus, hfill]

theorem samePublic.effect (i : Instr) : samePublic (effect i s) (effect i t) := by
  cases i with
  | nop => exact h
  | ldi gd _ | lde gd _ _ | gfAdd gd _ _ | gfMul gd _ _ | gfInv gd _ | gfFrac gd _ _ | gfIszero gd _ | gfBitrev gd _
  | plEval gd _ _ => exact h.setG gd _ _
  | ste _ b idx => exact h.writeE b idx.toNat _ _
  | setfull b => exact h.declareFull b
  | bmRun pd => exact (h.fillE (.p pd) _ _ _ _).declareFull _
  | bnEnc => exact (h.fillB .cb _ _ _ _).declareFull (.byte .cb)
  | bnApply rev => exact h.fillB .pl _ _ _ _
  | bnSup => exact (((h.fillB .pl _ _ _ _).declareFull _).fillE .sup _ _ _ _).declareFull _
  | rbInit => exact h.initWith _
  | rbUpd _ => exact h.setDrbg _ _
  | rbGen n => exact h.generateWith _ _

/-- The two states fail the same check or none, and whether a term is well-formed depends on the build. -/
theorem samePublic.exec {i : Instr} {u v : State} (hs : exec i s = .next u) (ht : exec i t = .next v) :
    samePublic u v := by
  obtain ⟨hbuild, -, -⟩ := id h
  cases hwf : WellFormed s.build.m i with
  | false =>
    rw [exec_of_not_wellFormed hwf] at hs
    rw [exec_of_not_wellFormed (hbuild ▸ hwf)] at ht
    cases hs
    cases ht
    exact h.takeFault .illegal (encode i)
  | true =>
    have hwf' : WellFormed t.build.m i = true := hbuild ▸ hwf
    cases hf : Machine.faultOf s i with
    | some c =>
      rw [exec_of_faultOf_some hwf hf] at hs
      rw [exec_of_faultOf_some hwf' ((h.faultOf i).symm.trans hf)] at ht
      cases hs
      cases ht
      exact h.takeFault c (encode i)
    | none =>
      rw [exec_of_faultOf_none hwf hf] at hs
      rw [exec_of_faultOf_none hwf' ((h.faultOf i).symm.trans hf)] at ht
      cases hs
      cases ht
      exact h.effect i

end

end Sys2Proof.Machine
end

section
/-! PROOFS. The statement about what the fault checks depend on (70_reset_and_hazards.md R237). -/

namespace Sys2Proof.Machine

/-- Settles O52: the two next states agree on the whole of STATUS and on the fill counts again. -/
theorem faultChecksAreNotSecretDependent : Obligations.FaultChecksAreNotSecretDependent := by
  intro i s s' t t' h hs hs'
  obtain ⟨-, hlen, hstatus⟩ := h.exec hs hs'
  rw [hstatus]
  exact ⟨rfl, rfl, rfl, hlen⟩

end Sys2Proof.Machine
end
